-- ==== Sys2Proof/Word.lean ====
section
/-! DEFINITION. The word types of the fox32 CPU: 32-bit words, bytes, and the numbers of its 35 registers. -/

namespace Sys2Proof

/-- A register, an address or a port number: 32 bits (R20, R60, R68). -/
abbrev Word := BitVec 32

/-- The smallest addressable unit (R60). -/
abbrev Byte := BitVec 8

/-- A register number of R21: 0 to 31 are r0 to r31, 32 is rsp, 33 is resp, 34 is rfp. -/
abbrev RegNo := Fin 35

/-- Number 32 of R21: the current stack pointer. -/
abbrev rsp : RegNo := 32

/-- Number 33 of R21: the exception stack pointer. -/
abbrev resp : RegNo := 33

/-- Number 34 of R21: the frame pointer. -/
abbrev rfp : RegNo := 34

end Sys2Proof
end

