-- ==== Sys2Proof/Syntax.lean ====
section
/-! DEFINITION. The instructions of the fox32 CPU: sizes, conditions, operands, and `Instr` with one constructor for each row of
`spec/opcode_table.json`. -/

namespace Sys2Proof

/-- The operation size (R102); the reserved size 3 is no instruction's. -/
inductive Size where
  | byte
  | half
  | word
deriving DecidableEq, Repr

/-- `W` of R8: the operation width in bits. -/
abbrev Size.bits : Size → Nat
  | .byte => 8
  | .half => 16
  | .word => 32

/-- `N` of R8: the operation width in bytes. -/
abbrev Size.bytes : Size → Nat
  | .byte => 1
  | .half => 2
  | .word => 4

/-- The conditions 0 to 6 of R106, by the source's names; condition code 7 is no instruction's (R124). -/
inductive Cond where
  | always
  | ifz
  | ifnz
  | ifc
  | ifnc
  | ifgt
  | iflteq
deriving DecidableEq, Repr

/-- The four operand types of R104. A register pointer carries its offset byte when the control word's `off` bit is set (R107);
an immediate is held zero-extended to 32 bits, and its width is checked by `WellFormed` (R110). -/
inductive Operand where
  | reg (r : RegNo)
  | ptr (r : RegNo) (off : Option Byte)
  | imm (v : Word)
  | immPtr (a : Word)
deriving DecidableEq, Repr

/-- The operation codes that take no operand (R105). -/
inductive ZeroOp where
  | nop
  | ise
  | mse
  | halt
  | icl
  | mcl
  | brk
  | ret
  | reti
deriving DecidableEq, Repr

/-- The operation codes that take one operand, in the source slot (R105). -/
inductive OneOp where
  | jmp
  | rjmp
  | push
  | inc
  | call
  | rcall
  | pop
  | loop
  | rloop
  | int
  | tlb
  | dec
  | not
  | flp
deriving DecidableEq, Repr

/-- The operation codes that take a source and a target operand (R105). -/
inductive TwoOp where
  | add
  | mul
  | and
  | sla
  | sra
  | bse
  | cmp
  | ioIn
  | or
  | imul
  | srl
  | bcl
  | mov
  | ioOut
  | sub
  | div
  | xor
  | rol
  | ror
  | bts
  | movz
  | rem
  | idiv
  | irem
  | icmp
  | rta
deriving DecidableEq, Repr

/-- An operation code of R120, by the number of operands it takes. -/
inductive Op where
  | zero (o : ZeroOp)
  | one (o : OneOp)
  | two (o : TwoOp)
deriving DecidableEq, Repr

/-- The instructions of R120. `c` is the condition every instruction carries (R106); `sz` the operation size, left out where
the table allows size 32 only (R121); `src` and `tgt` the operands; `amt` the amount selector of INC and DEC (R109). The fields
that select nothing are ignored (R126) and are not held. -/
inductive Instr where
  /-- NOP, "no operation" (R211). -/
  | nop (sz : Size) (c : Cond)
  /-- ADD, "add" (R141). -/
  | add (sz : Size) (c : Cond) (src : Operand) (tgt : Operand)
  /-- MUL, "multiply (unsigned)" (R145). -/
  | mul (sz : Size) (c : Cond) (src : Operand) (tgt : Operand)
  /-- AND, "bitwise AND" (R161). -/
  | and (sz : Size) (c : Cond) (src : Operand) (tgt : Operand)
  /-- SLA, "shift left" (R165). -/
  | sla (sz : Size) (c : Cond) (src : Operand) (tgt : Operand)
  /-- SRA, "shift right arithmetic (with sign extension)" (R166). -/
  | sra (sz : Size) (c : Cond) (src : Operand) (tgt : Operand)
  /-- BSE, "bit set" (R170). -/
  | bse (sz : Size) (c : Cond) (src : Operand) (tgt : Operand)
  /-- CMP, "unsigned compare" (R183). -/
  | cmp (sz : Size) (c : Cond) (src : Operand) (tgt : Operand)
  /-- JMP, "absolute jump" (R191). -/
  | jmp (c : Cond) (src : Operand)
  /-- RJMP, "relative jump" (R192). -/
  | rjmp (sz : Size) (c : Cond) (src : Operand)
  /-- PUSH, "push value to stack" (R201). -/
  | push (sz : Size) (c : Cond) (src : Operand)
  /-- IN, "get input from I/O bus" (R203). -/
  | ioIn (c : Cond) (src : Operand) (tgt : Operand)
  /-- ISE, "set interrupt enable flag" (R214). -/
  | ise (c : Cond)
  /-- MSE, "set MMU enable flag" (R223). -/
  | mse (c : Cond)
  /-- HALT, "halt CPU" (R212). -/
  | halt (sz : Size) (c : Cond)
  /-- INC, "increment (add 1 << tgt in opcode encoding)" (R143). -/
  | inc (sz : Size) (c : Cond) (amt : BitVec 2) (src : Operand)
  /-- OR, "bitwise OR" (R162). -/
  | or (sz : Size) (c : Cond) (src : Operand) (tgt : Operand)
  /-- IMUL, "multiply (signed)" (R146). -/
  | imul (sz : Size) (c : Cond) (src : Operand) (tgt : Operand)
  /-- SRL, "shift right logical (with zero extension)" (R167). -/
  | srl (sz : Size) (c : Cond) (src : Operand) (tgt : Operand)
  /-- BCL, "bit clear" (R171). -/
  | bcl (sz : Size) (c : Cond) (src : Operand) (tgt : Operand)
  /-- MOV, "move value" (R181). -/
  | mov (sz : Size) (c : Cond) (src : Operand) (tgt : Operand)
  /-- CALL, "absolute call" (R193). -/
  | call (c : Cond) (src : Operand)
  /-- RCALL, "relative call" (R194). -/
  | rcall (sz : Size) (c : Cond) (src : Operand)
  /-- POP, "pop value from stack" (R202). -/
  | pop (sz : Size) (c : Cond) (src : Operand)
  /-- OUT, "output on I/O bus" (R204). -/
  | ioOut (c : Cond) (src : Operand) (tgt : Operand)
  /-- ICL, "clear interrupt enable flag" (R215). -/
  | icl (c : Cond)
  /-- MCL, "clear MMU enable flag" (R224). -/
  | mcl (c : Cond)
  /-- BRK, "debug breakpoint" (R213). -/
  | brk (sz : Size) (c : Cond)
  /-- SUB, "subtract" (R142). -/
  | sub (sz : Size) (c : Cond) (src : Operand) (tgt : Operand)
  /-- DIV, "divide (unsigned)" (R147). -/
  | div (sz : Size) (c : Cond) (src : Operand) (tgt : Operand)
  /-- XOR, "bitwise XOR" (R163). -/
  | xor (sz : Size) (c : Cond) (src : Operand) (tgt : Operand)
  /-- ROL, "rotate left" (R168). -/
  | rol (sz : Size) (c : Cond) (src : Operand) (tgt : Operand)
  /-- ROR, "rotate right" (R169). -/
  | ror (sz : Size) (c : Cond) (src : Operand) (tgt : Operand)
  /-- BTS, "test if bit set" (R172). -/
  | bts (sz : Size) (c : Cond) (src : Operand) (tgt : Operand)
  /-- MOVZ, "move value and clear upper bits in target register" (R182). -/
  | movz (sz : Size) (c : Cond) (src : Operand) (tgt : Operand)
  /-- LOOP, "absolute loop" (R196). -/
  | loop (c : Cond) (src : Operand)
  /-- RLOOP, "relative loop" (R197). -/
  | rloop (sz : Size) (c : Cond) (src : Operand)
  /-- RET, "return from function" (R195). -/
  | ret (c : Cond)
  /-- INT, "raise interrupt" (R216). -/
  | int (c : Cond) (src : Operand)
  /-- TLB, "flush TLB and set page directory pointer" (R225). -/
  | tlb (c : Cond) (src : Operand)
  /-- DEC, "decrement (subtract 1 << tgt in opcode encoding)" (R144). -/
  | dec (sz : Size) (c : Cond) (amt : BitVec 2) (src : Operand)
  /-- REM, "calculate remainder of division (unsigned)" (R149). -/
  | rem (sz : Size) (c : Cond) (src : Operand) (tgt : Operand)
  /-- NOT, "bitwise NOT" (R164). -/
  | not (sz : Size) (c : Cond) (src : Operand)
  /-- IDIV, "divide (signed)" (R148). -/
  | idiv (sz : Size) (c : Cond) (src : Operand) (tgt : Operand)
  /-- IREM, "remainder (signed)" (R150). -/
  | irem (sz : Size) (c : Cond) (src : Operand) (tgt : Operand)
  /-- ICMP, "signed compare" (R184). -/
  | icmp (sz : Size) (c : Cond) (src : Operand) (tgt : Operand)
  /-- RTA, "calculate address relative to instruction pointer" (R185). -/
  | rta (sz : Size) (c : Cond) (src : Operand) (tgt : Operand)
  /-- RETI, "return from interrupt" (R217). -/
  | reti (c : Cond)
  /-- FLP, "flush page from TLB" (R226). -/
  | flp (c : Cond) (src : Operand)
deriving DecidableEq, Repr

/-- An instruction seen by its operand count: what its encoding is written from. `amt` is the `tgt` field of a one-operand
instruction (R109); an encoder writes 0 there for all but INC and DEC (R126). -/
inductive Form where
  | zero (o : ZeroOp) (sz : Size) (c : Cond)
  | one (o : OneOp) (sz : Size) (c : Cond) (amt : BitVec 2) (src : Operand)
  | two (o : TwoOp) (sz : Size) (c : Cond) (src tgt : Operand)
deriving DecidableEq, Repr

end Sys2Proof
end

