-- ==== Sys2Proof/Decode.lean ====
section
/-! DEFINITION. Decoding bytes to instructions (`30_encoding.md`): the opcode table, the control word, operands, lengths; total
on any bytes, rejecting by name; then the encoder, written from the same tables. -/

namespace Sys2Proof

/-! ## Instructions by operand count -/

/-- The form of an instruction. -/
def Instr.form : Instr → Form
  | .nop sz c => .zero .nop sz c
  | .add sz c src tgt => .two .add sz c src tgt
  | .mul sz c src tgt => .two .mul sz c src tgt
  | .and sz c src tgt => .two .and sz c src tgt
  | .sla sz c src tgt => .two .sla sz c src tgt
  | .sra sz c src tgt => .two .sra sz c src tgt
  | .bse sz c src tgt => .two .bse sz c src tgt
  | .cmp sz c src tgt => .two .cmp sz c src tgt
  | .jmp c src => .one .jmp .word c 0 src
  | .rjmp sz c src => .one .rjmp sz c 0 src
  | .push sz c src => .one .push sz c 0 src
  | .ioIn c src tgt => .two .ioIn .word c src tgt
  | .ise c => .zero .ise .word c
  | .mse c => .zero .mse .word c
  | .halt sz c => .zero .halt sz c
  | .inc sz c amt src => .one .inc sz c amt src
  | .or sz c src tgt => .two .or sz c src tgt
  | .imul sz c src tgt => .two .imul sz c src tgt
  | .srl sz c src tgt => .two .srl sz c src tgt
  | .bcl sz c src tgt => .two .bcl sz c src tgt
  | .mov sz c src tgt => .two .mov sz c src tgt
  | .call c src => .one .call .word c 0 src
  | .rcall sz c src => .one .rcall sz c 0 src
  | .pop sz c src => .one .pop sz c 0 src
  | .ioOut c src tgt => .two .ioOut .word c src tgt
  | .icl c => .zero .icl .word c
  | .mcl c => .zero .mcl .word c
  | .brk sz c => .zero .brk sz c
  | .sub sz c src tgt => .two .sub sz c src tgt
  | .div sz c src tgt => .two .div sz c src tgt
  | .xor sz c src tgt => .two .xor sz c src tgt
  | .rol sz c src tgt => .two .rol sz c src tgt
  | .ror sz c src tgt => .two .ror sz c src tgt
  | .bts sz c src tgt => .two .bts sz c src tgt
  | .movz sz c src tgt => .two .movz sz c src tgt
  | .loop c src => .one .loop .word c 0 src
  | .rloop sz c src => .one .rloop sz c 0 src
  | .ret c => .zero .ret .word c
  | .int c src => .one .int .word c 0 src
  | .tlb c src => .one .tlb .word c 0 src
  | .dec sz c amt src => .one .dec sz c amt src
  | .rem sz c src tgt => .two .rem sz c src tgt
  | .not sz c src => .one .not sz c 0 src
  | .idiv sz c src tgt => .two .idiv sz c src tgt
  | .irem sz c src tgt => .two .irem sz c src tgt
  | .icmp sz c src tgt => .two .icmp sz c src tgt
  | .rta sz c src tgt => .two .rta sz c src tgt
  | .reti c => .zero .reti .word c
  | .flp c src => .one .flp .word c 0 src

/-- The instruction of a no-operand form. -/
def ZeroOp.toInstr (sz : Size) (c : Cond) : ZeroOp → Instr
  | .nop => .nop sz c
  | .ise => .ise c
  | .mse => .mse c
  | .halt => .halt sz c
  | .icl => .icl c
  | .mcl => .mcl c
  | .brk => .brk sz c
  | .ret => .ret c
  | .reti => .reti c

/-- The instruction of a one-operand form. -/
def OneOp.toInstr (sz : Size) (c : Cond) (amt : BitVec 2) (src : Operand) : OneOp → Instr
  | .jmp => .jmp c src
  | .rjmp => .rjmp sz c src
  | .push => .push sz c src
  | .inc => .inc sz c amt src
  | .call => .call c src
  | .rcall => .rcall sz c src
  | .pop => .pop sz c src
  | .loop => .loop c src
  | .rloop => .rloop sz c src
  | .int => .int c src
  | .tlb => .tlb c src
  | .dec => .dec sz c amt src
  | .not => .not sz c src
  | .flp => .flp c src

/-- The instruction of a two-operand form. -/
def TwoOp.toInstr (sz : Size) (c : Cond) (src tgt : Operand) : TwoOp → Instr
  | .add => .add sz c src tgt
  | .mul => .mul sz c src tgt
  | .and => .and sz c src tgt
  | .sla => .sla sz c src tgt
  | .sra => .sra sz c src tgt
  | .bse => .bse sz c src tgt
  | .cmp => .cmp sz c src tgt
  | .ioIn => .ioIn c src tgt
  | .or => .or sz c src tgt
  | .imul => .imul sz c src tgt
  | .srl => .srl sz c src tgt
  | .bcl => .bcl sz c src tgt
  | .mov => .mov sz c src tgt
  | .ioOut => .ioOut c src tgt
  | .sub => .sub sz c src tgt
  | .div => .div sz c src tgt
  | .xor => .xor sz c src tgt
  | .rol => .rol sz c src tgt
  | .ror => .ror sz c src tgt
  | .bts => .bts sz c src tgt
  | .movz => .movz sz c src tgt
  | .rem => .rem sz c src tgt
  | .idiv => .idiv sz c src tgt
  | .irem => .irem sz c src tgt
  | .icmp => .icmp sz c src tgt
  | .rta => .rta sz c src tgt

/-- The instruction of a form. A form whose size or amount the instruction does not have gives the instruction without it. -/
def Form.toInstr : Form → Instr
  | .zero o sz c => o.toInstr sz c
  | .one o sz c amt src => o.toInstr sz c amt src
  | .two o sz c src tgt => o.toInstr sz c src tgt

/-- The condition an instruction carries (R106). -/
def Instr.cond (i : Instr) : Cond :=
  match i.form with
  | .zero _ _ c => c
  | .one _ _ c _ _ => c
  | .two _ _ c _ _ => c

/-- The operation code of an instruction. -/
def Instr.op (i : Instr) : Op :=
  match i.form with
  | .zero o _ _ => .zero o
  | .one o _ _ _ _ => .one o
  | .two o _ _ _ _ => .two o

/-- The operands of an instruction, source first. -/
def Instr.operands (i : Instr) : List Operand :=
  match i.form with
  | .zero _ _ _ => []
  | .one _ _ _ _ src => [src]
  | .two _ _ _ src tgt => [src, tgt]

/-! ## The opcode table (R120) -/

/-- The `opcode` field of a no-operand instruction (R120). -/
def ZeroOp.code : ZeroOp → BitVec 6
  | .nop => 0x00
  | .ise => 0x0C
  | .mse => 0x0D
  | .halt => 0x10
  | .icl => 0x1C
  | .mcl => 0x1D
  | .brk => 0x20
  | .ret => 0x2A
  | .reti => 0x3A

/-- The `opcode` field of a one-operand instruction (R120). -/
def OneOp.code : OneOp → BitVec 6
  | .jmp => 0x08
  | .rjmp => 0x09
  | .push => 0x0A
  | .inc => 0x11
  | .call => 0x18
  | .rcall => 0x19
  | .pop => 0x1A
  | .loop => 0x28
  | .rloop => 0x29
  | .int => 0x2C
  | .tlb => 0x2D
  | .dec => 0x31
  | .not => 0x33
  | .flp => 0x3D

/-- The `opcode` field of a two-operand instruction (R120). -/
def TwoOp.code : TwoOp → BitVec 6
  | .add => 0x01
  | .mul => 0x02
  | .and => 0x03
  | .sla => 0x04
  | .sra => 0x05
  | .bse => 0x06
  | .cmp => 0x07
  | .ioIn => 0x0B
  | .or => 0x13
  | .imul => 0x14
  | .srl => 0x15
  | .bcl => 0x16
  | .mov => 0x17
  | .ioOut => 0x1B
  | .sub => 0x21
  | .div => 0x22
  | .xor => 0x23
  | .rol => 0x24
  | .ror => 0x25
  | .bts => 0x26
  | .movz => 0x27
  | .rem => 0x32
  | .idiv => 0x34
  | .irem => 0x35
  | .icmp => 0x37
  | .rta => 0x39

/-- The `opcode` field of an operation code (R120). -/
def Op.code : Op → BitVec 6
  | .zero o => o.code
  | .one o => o.code
  | .two o => o.code

/-- The rows of R120, by operand count. -/
def ZeroOp.all : List ZeroOp :=
  [.nop, .ise, .mse, .halt, .icl, .mcl, .brk, .ret, .reti]

/-- The rows of R120 that take one operand. -/
def OneOp.all : List OneOp :=
  [.jmp, .rjmp, .push, .inc, .call, .rcall, .pop, .loop, .rloop, .int, .tlb, .dec, .not, .flp]

/-- The rows of R120 that take two operands. -/
def TwoOp.all : List TwoOp :=
  [.add, .mul, .and, .sla, .sra, .bse, .cmp, .ioIn, .or, .imul, .srl, .bcl, .mov,
    .ioOut, .sub, .div, .xor, .rol, .ror, .bts, .movz, .rem, .idiv, .irem, .icmp, .rta]

/-- The 49 rows of R120. -/
def Op.all : List Op :=
  ZeroOp.all.map .zero ++ OneOp.all.map .one ++ TwoOp.all.map .two

/-- The operation code of an `opcode` field; none for the 15 undefined values of R122. -/
def Op.ofCode (code : BitVec 6) : Option Op :=
  Op.all.find? fun o => o.code == code

/-- The rows of R120 whose "op sizes" column is "32" (R121). -/
def Op.wordOnly : Op → Bool
  | .zero .nop => false
  | .zero .ise => true
  | .zero .mse => true
  | .zero .halt => false
  | .zero .icl => true
  | .zero .mcl => true
  | .zero .brk => false
  | .zero .ret => true
  | .zero .reti => true
  | .one .jmp => true
  | .one .rjmp => false
  | .one .push => false
  | .one .inc => false
  | .one .call => true
  | .one .rcall => false
  | .one .pop => false
  | .one .loop => true
  | .one .rloop => false
  | .one .int => true
  | .one .tlb => true
  | .one .dec => false
  | .one .not => false
  | .one .flp => true
  | .two .add => false
  | .two .mul => false
  | .two .and => false
  | .two .sla => false
  | .two .sra => false
  | .two .bse => false
  | .two .cmp => false
  | .two .ioIn => true
  | .two .or => false
  | .two .imul => false
  | .two .srl => false
  | .two .bcl => false
  | .two .mov => false
  | .two .ioOut => true
  | .two .sub => false
  | .two .div => false
  | .two .xor => false
  | .two .rol => false
  | .two .ror => false
  | .two .bts => false
  | .two .movz => false
  | .two .rem => false
  | .two .idiv => false
  | .two .irem => false
  | .two .icmp => false
  | .two .rta => false

/-- Whether the instruction writes the operand in its source slot (column "src" of R120). -/
def OneOp.writesSrc : OneOp → Bool
  | .jmp => false
  | .rjmp => false
  | .push => false
  | .inc => true
  | .call => false
  | .rcall => false
  | .pop => true
  | .loop => false
  | .rloop => false
  | .int => false
  | .tlb => false
  | .dec => true
  | .not => true
  | .flp => false

/-- Whether the instruction writes its target operand (column "tgt" of R120). -/
def TwoOp.writesTgt : TwoOp → Bool
  | .add => true
  | .mul => true
  | .and => true
  | .sla => true
  | .sra => true
  | .bse => true
  | .cmp => false
  | .ioIn => true
  | .or => true
  | .imul => true
  | .srl => true
  | .bcl => true
  | .mov => true
  | .ioOut => false
  | .sub => true
  | .div => true
  | .xor => true
  | .rol => true
  | .ror => true
  | .bts => false
  | .movz => true
  | .rem => true
  | .idiv => true
  | .irem => true
  | .icmp => false
  | .rta => true

/-- The eight opcodes of R110, whose source immediate is one byte at every operation size. -/
def TwoOp.narrowImm : TwoOp → Bool
  | .add => false
  | .mul => false
  | .and => false
  | .sla => true
  | .sra => true
  | .bse => true
  | .cmp => false
  | .ioIn => false
  | .or => false
  | .imul => false
  | .srl => true
  | .bcl => true
  | .mov => false
  | .ioOut => false
  | .sub => false
  | .div => false
  | .xor => false
  | .rol => true
  | .ror => true
  | .bts => true
  | .movz => false
  | .rem => false
  | .idiv => false
  | .irem => false
  | .icmp => false
  | .rta => false

/-- The bytes of a source immediate (R110). -/
def Op.srcImmBytes (o : Op) (sz : Size) : Nat :=
  match o with
  | .two t => if t.narrowImm then 1 else sz.bytes
  | _ => sz.bytes

/-! ## The control word (R101) -/

/-- The six fields of a control word (R101). -/
structure CtlWord where
  size : BitVec 2
  opcode : BitVec 6
  off : BitVec 1
  cond : BitVec 3
  tgt : BitVec 2
  src : BitVec 2
deriving DecidableEq, Repr

/-- R101: `cw = size << 14 | opcode << 8 | off << 7 | cond << 4 | tgt << 2 | src`. -/
def CtlWord.toBits (c : CtlWord) : BitVec 16 :=
  c.size ++ c.opcode ++ c.off ++ c.cond ++ c.tgt ++ c.src

/-- R101, read the other way. -/
def CtlWord.ofBits (w : BitVec 16) : CtlWord where
  size := w.extractLsb' 14 2
  opcode := w.extractLsb' 8 6
  off := w.extractLsb' 7 1
  cond := w.extractLsb' 4 3
  tgt := w.extractLsb' 2 2
  src := w.extractLsb' 0 2

/-- R102. -/
def Size.ofBits (b : BitVec 2) : Option Size :=
  match b.toNat with
  | 0 => some .byte
  | 1 => some .half
  | 2 => some .word
  | _ => none

/-- R102, the other way. -/
def Size.toBits : Size → BitVec 2
  | .byte => 0
  | .half => 1
  | .word => 2

/-- R106; condition code 7 is undefined (R124). -/
def Cond.ofBits (b : BitVec 3) : Option Cond :=
  match b.toNat with
  | 0 => some .always
  | 1 => some .ifz
  | 2 => some .ifnz
  | 3 => some .ifc
  | 4 => some .ifnc
  | 5 => some .ifgt
  | 6 => some .iflteq
  | _ => none

/-- R106, the other way. -/
def Cond.toBits : Cond → BitVec 3
  | .always => 0
  | .ifz => 1
  | .ifnz => 2
  | .ifc => 3
  | .ifnc => 4
  | .ifgt => 5
  | .iflteq => 6

/-- The operand types of R104. -/
inductive OperandType where
  | reg
  | ptr
  | imm
  | immPtr
deriving DecidableEq, Repr

/-- R104. -/
def OperandType.ofBits (b : BitVec 2) : OperandType :=
  match b.toNat with
  | 0 => .reg
  | 1 => .ptr
  | 2 => .imm
  | _ => .immPtr

/-- R104, the other way. -/
def OperandType.toBits : OperandType → BitVec 2
  | .reg => 0
  | .ptr => 1
  | .imm => 2
  | .immPtr => 3

/-- Why bytes are no instruction. All but `truncated` are the causes of `InvalidOpcode` in R232. -/
inductive DecodeError where
  /-- An opcode value with no row in R120 (R122). -/
  | undefinedOpcode
  /-- A size the table does not list for the opcode, size 3 among them (R121, R123). -/
  | invalidSize
  /-- Condition code 7 (R124). -/
  | undefinedCondition
  /-- An immediate in a place the instruction writes (R125). -/
  | immediateDestination
  /-- A register-number byte above 34 (R108). -/
  | badRegister
  /-- Fewer bytes than the instruction has. -/
  | truncated
deriving DecidableEq, Repr

/-- What the control word alone says of an instruction: R117 steps 4 and 5. -/
structure Head where
  op : Op
  size : Size
  cond : Cond
  off : Bool
  tgt : BitVec 2
  src : BitVec 2
deriving DecidableEq, Repr

/-- R121: the size of a valid (opcode, size) pair. -/
def Op.sizeOf (o : Op) (b : BitVec 2) : Option Size :=
  match Size.ofBits b with
  | some sz => if o.wordOnly && sz != .word then none else some sz
  | none => none

/-- R125: an operand the instruction writes has type immediate. -/
def Head.immediateDestination (h : Head) : Bool :=
  match h.op with
  | .zero _ => false
  | .one o => o.writesSrc && OperandType.ofBits h.src == .imm
  | .two o => o.writesTgt && OperandType.ofBits h.tgt == .imm

/-- R117 step 4: the checks on the control word alone (R121, R122, R123, R124, R125). -/
def decodeHead (w : BitVec 16) : Except DecodeError Head :=
  let c := CtlWord.ofBits w
  match Op.ofCode c.opcode with
  | none => .error .undefinedOpcode
  | some op =>
    match op.sizeOf c.size with
    | none => .error .invalidSize
    | some sz =>
      match Cond.ofBits c.cond with
      | none => .error .undefinedCondition
      | some cond =>
        let h : Head := ⟨op, sz, cond, c.off == 1#1, c.tgt, c.src⟩
        if h.immediateDestination then .error .immediateDestination else .ok h

/-! ## Lengths (R111) -/

/-- `len(type)` of R111; `immBytes` is the width of an immediate in bytes. -/
def OperandType.len (off : Bool) (immBytes : Nat) : OperandType → Nat
  | .reg => 1
  | .ptr => if off then 2 else 1
  | .imm => immBytes
  | .immPtr => 4

/-- The operand bytes that follow a control word (R103, R111). -/
def Head.bodyLen (h : Head) : Nat :=
  match h.op with
  | .zero _ => 0
  | .one _ => (OperandType.ofBits h.src).len h.off (h.op.srcImmBytes h.size)
  | .two _ =>
    (OperandType.ofBits h.src).len h.off (h.op.srcImmBytes h.size)
      + (OperandType.ofBits h.tgt).len h.off h.size.bytes

/-- `L` of R111, from the control word alone. -/
def Head.length (h : Head) : Nat :=
  2 + h.bodyLen

/-- `len` of R111 for a decoded operand. -/
def Operand.len (immBytes : Nat) : Operand → Nat
  | .reg _ => 1
  | .ptr _ none => 1
  | .ptr _ (some _) => 2
  | .imm _ => immBytes
  | .immPtr _ => 4

/-- `L` of R111 for a decoded instruction. -/
def Instr.length (i : Instr) : Nat :=
  match i.form with
  | .zero _ _ _ => 2
  | .one o sz _ _ src => 2 + src.len ((Op.one o).srcImmBytes sz)
  | .two o sz _ src tgt => 2 + src.len ((Op.two o).srcImmBytes sz) + tgt.len sz.bytes

/-! ## Little-endian bytes (R61) -/

/-- The unsigned value of bytes in ascending address order (R61). -/
def leNat : List Byte → Nat
  | [] => 0
  | b :: bs => b.toNat + 256 * leNat bs

/-- The low `n` bytes of a value in ascending address order (R61). -/
def leBytes : Nat → Nat → List Byte
  | 0, _ => []
  | n + 1, v => BitVec.ofNat 8 v :: leBytes n (v / 256)

/-- Take `n` bytes as a little-endian value; none if there are fewer. -/
def takeLe : Nat → List Byte → Option (Nat × List Byte)
  | 0, bs => some (0, bs)
  | _ + 1, [] => none
  | n + 1, b :: bs =>
    match takeLe n bs with
    | some (v, rest) => some (b.toNat + 256 * v, rest)
    | none => none

/-! ## Operands (R103, R104, R107, R108, R110) -/

/-- R108: the register of a register-number byte; none above 34. -/
def regOfByte (b : Byte) : Option RegNo :=
  if h : b.toNat < 35 then some ⟨b.toNat, h⟩ else none

/-- One operand from the bytes that follow, and the bytes left. -/
def decodeOperand (ty : OperandType) (off : Bool) (immBytes : Nat) (bs : List Byte) :
    Except DecodeError (Operand × List Byte) :=
  match ty with
  | .reg =>
    match bs with
    | [] => .error .truncated
    | b :: rest =>
      match regOfByte b with
      | none => .error .badRegister
      | some r => .ok (.reg r, rest)
  | .ptr =>
    match bs with
    | [] => .error .truncated
    | b :: rest =>
      match regOfByte b with
      | none => .error .badRegister
      | some r =>
        if off then
          match rest with
          | [] => .error .truncated
          | o :: rest' => .ok (.ptr r (some o), rest')
        else .ok (.ptr r none, rest)
  | .imm =>
    match takeLe immBytes bs with
    | none => .error .truncated
    | some (v, rest) => .ok (.imm (BitVec.ofNat 32 v), rest)
  | .immPtr =>
    match takeLe 4 bs with
    | none => .error .truncated
    | some (v, rest) => .ok (.immPtr (BitVec.ofNat 32 v), rest)

/-- The instruction of a control word and the operand bytes after it, source operand first (R103), and the bytes left. -/
def decodeBody (h : Head) (bs : List Byte) : Except DecodeError (Instr × List Byte) :=
  match h.op with
  | .zero o => .ok (o.toInstr h.size h.cond, bs)
  | .one o =>
    match decodeOperand (OperandType.ofBits h.src) h.off (h.op.srcImmBytes h.size) bs with
    | .error e => .error e
    | .ok (src, rest) => .ok (o.toInstr h.size h.cond h.tgt src, rest)
  | .two o =>
    match decodeOperand (OperandType.ofBits h.src) h.off (h.op.srcImmBytes h.size) bs with
    | .error e => .error e
    | .ok (src, rest) =>
      match decodeOperand (OperandType.ofBits h.tgt) h.off h.size.bytes rest with
      | .error e => .error e
      | .ok (tgt, rest') => .ok (o.toInstr h.size h.cond src tgt, rest')

/-- The first instruction of a list of bytes, and the bytes left. The control word is stored low byte first (R100). -/
def decode (bs : List Byte) : Except DecodeError (Instr × List Byte) :=
  match bs with
  | lo :: hi :: rest =>
    match decodeHead (hi ++ lo) with
    | .error e => .error e
    | .ok h => decodeBody h rest
  | _ => .error .truncated

/-! ## Encoding -/

/-- The operand type of an operand (R104). -/
def Operand.ty : Operand → OperandType
  | .reg _ => .reg
  | .ptr _ _ => .ptr
  | .imm _ => .imm
  | .immPtr _ => .immPtr

/-- Whether an operand is followed by an offset byte (R107). -/
def Operand.hasOff : Operand → Bool
  | .ptr _ (some _) => true
  | _ => false

/-- The bytes of an operand (R103, R104, R107, R110). -/
def encodeOperand (immBytes : Nat) : Operand → List Byte
  | .reg r => [BitVec.ofNat 8 r.val]
  | .ptr r none => [BitVec.ofNat 8 r.val]
  | .ptr r (some o) => [BitVec.ofNat 8 r.val, o]
  | .imm v => leBytes immBytes v.toNat
  | .immPtr a => leBytes 4 a.toNat

/-- The control word of a form (R101); fields that select nothing are written 0 (R126). -/
def Form.ctlWord : Form → CtlWord
  | .zero o sz c => ⟨sz.toBits, o.code, 0, c.toBits, 0, 0⟩
  | .one o sz c amt src => ⟨sz.toBits, o.code, BitVec.ofBool src.hasOff, c.toBits, amt, src.ty.toBits⟩
  | .two o sz c src tgt =>
    ⟨sz.toBits, o.code, BitVec.ofBool (src.hasOff || tgt.hasOff), c.toBits, tgt.ty.toBits, src.ty.toBits⟩

/-- The operand bytes of a form, source operand first (R103). -/
def Form.body : Form → List Byte
  | .zero _ _ _ => []
  | .one o sz _ _ src => encodeOperand ((Op.one o).srcImmBytes sz) src
  | .two o sz _ src tgt => encodeOperand ((Op.two o).srcImmBytes sz) src ++ encodeOperand sz.bytes tgt

/-- The bytes of an instruction in ascending address order (R100, R103). -/
def encode (i : Instr) : List Byte :=
  let w := i.form.ctlWord.toBits
  w.extractLsb' 0 8 :: w.extractLsb' 8 8 :: i.form.body

/-! ## The table's numbering -/

/-- The longest instruction, in bytes (R111). -/
def maxLength : Nat := 10

/-- The bytes, as the hardware stores them (R61), of an instruction whose bits below `nbits` are `w` and all others zero; bit 0
is the least significant bit of the control word. -/
def tableBytes (nbits w : Nat) : List Byte :=
  leBytes maxLength (w % 2 ^ nbits)

/-- The instruction the decoder reads from an instruction numbered as `spec/opcode_table.json` numbers its bits. -/
def decodeTableWord (nbits w : Nat) : Option Instr :=
  match decode (tableBytes nbits w) with
  | .ok (i, _) => some i
  | .error _ => none

end Sys2Proof
end

