-- ==== Sys2Proof/Config.lean ====
section
/-! DEFINITION. What the spec leaves to an implementation: the free values (opaque, with no body), and the values the model
names for reset and for unwritten memory. -/

namespace Sys2Proof

/-- `UNSPECIFIED(32)` of R9: the `n`-th free draw of a value the spec does not fix. DESIGN CHOICE (log 11): no proof can see
what it is. -/
opaque Config.freeWord : Nat → Word

/-- `UNSPECIFIED(1)` of R9: a free draw of one bit (log 11). -/
opaque Config.freeBit : Nat → Bool

/-- `IoRead(port)` of R68: what the environment answers to the `n`-th draw, a read of `port` (log 10). -/
opaque Config.ioRead : Nat → Word → Word

/-- R83: whether the TLB still holds its entry for a virtual page at the `n`-th draw; any entry may disappear at any moment
(log 12). -/
opaque Config.tlbRetains : Nat → BitVec 20 → Bool

/-- R83: whether the TLB gains the entry for a virtual page when a walk succeeds at the `n`-th draw (log 12). -/
opaque Config.tlbFills : Nat → BitVec 20 → Bool

/-- What a read of physical memory is for: an access, or an entry of the page directory or of a page table (R64, R81). -/
inductive BusUse where
  | data
  | directory
  | table
deriving DecidableEq, Repr

/-- The byte a physical address without memory answers to a read at the `n`-th draw, on a platform whose `BusError` lets the read go
on (R71). DESIGN CHOICE (log 9): no proof can see what it is. -/
opaque Config.busRead : Nat → BusUse → Word → Byte

/-- `RESET_RIP` of R270, which the spec leaves to the platform. DESIGN CHOICE (log 1), unsafe: a program that relies on this
start address relies on the model's choice. -/
def Config.resetRip : Word := 0

/-- What r0 to r31, rsp, resp and rfp hold after reset; R40 says unspecified. DESIGN CHOICE (log 2), unsafe. -/
def Config.resetReg : Word := 0

/-- What a byte of memory that nothing has written reads as (R273 leaves it to the platform). DESIGN CHOICE (log 6), unsafe. -/
def Config.unwritten : Byte := 0

end Sys2Proof
end

