-- ==== Sys2Proof/Machine/State.lean ====
section
/-! DEFINITION. The state of the fox32 CPU as plain data (`10_state.md` R20), the model's own fields that hold the platform and
the environment, the reasons a step can stop, and the state after reset. -/

namespace Sys2Proof.Machine

/-- Why the machine has no step where the spec gives it none. -/
inductive Fault where
  /-- Raised by taking an interrupt or exception whose vector holds 0 (R250, U4). Safe: the model stops where the hardware may go
  on. -/
  | missingHandler (vector : Word)
  /-- Raised by a page fault inside the entry sequence (R251, U5). Safe. -/
  | pageFaultInEntry (va : Word)
  /-- Raised by an access, a page walk's among them, to a physical address where `PhysMap` has no memory, on a platform whose
  `BusError` gives that access no step (R71, U11, log 9). Safe. -/
  | noMemory (pa : Word)
  /-- Raised by a write to a physical address where `PhysMap` has ROM, on a platform whose `BusError` gives it no step (R71, U11,
  log 9). Safe. -/
  | romWrite (pa : Word)
deriving DecidableEq, Repr

/-- Why the model gives an instruction no meaning. -/
inductive Refusal where
  /-- Answered by an arm of `exec` for an instruction that has no meaning yet. Safe. -/
  | notModelled (mnemonic : String)
  /-- Answered by INT with a source value above 0xFF (R216, U8: "a model refuses"). Safe. -/
  | intVectorAbove0xFF (value : Word)
deriving DecidableEq, Repr

/-- What storage a region of physical memory holds (R70). -/
inductive MemKind where
  | ram
  | rom
deriving DecidableEq, Repr

/-- A region of `PhysMap` (R70): the addresses from `base`, `size` of them. -/
structure Region where
  base : Nat
  size : Nat
  kind : MemKind
deriving DecidableEq, Repr

/-- What a platform does with an access that memory does not answer (R71): it has no step, or the access goes on, a read with a free
value and a write with no effect. What an access that goes on does is a DESIGN CHOICE (log 9), unsafe. -/
inductive BusAction where
  | noStep
  | goesOn
deriving DecidableEq, Repr

/-- The platform parameter `BusError` (R71): what a read and a write of a physical address without memory do, and a write where there
is ROM. -/
structure BusError where
  readNone : BusAction
  writeNone : BusAction
  writeRom : BusAction
deriving DecidableEq, Repr

/-- An entry of the TLB (R37, R83). -/
structure TlbEntry where
  vpn : BitVec 20
  ppn : BitVec 20
  writable : Bool
deriving DecidableEq, Repr

/-- A transfer on the I/O bus (R68). -/
inductive IoEvent where
  | read (port value : Word)
  | write (port value : Word)
deriving DecidableEq, Repr

/-- Memory as cells (address, byte) in rising order of address, with no cell that holds what an unlisted byte reads as (log 6). -/
abbrev Memory := List Host.Cell

/-- The state of the machine. The first eleven fields are the spec's (R20); the last five are the model's own. -/
structure State where
  /-- `x[0]` to `x[34]`: r0 to r31, rsp, resp, rfp (R20, R21). -/
  regs : Vector Word 35
  /-- The instruction pointer (R25). -/
  rip : Word
  /-- The zero flag `Z` (R28). -/
  flagZ : Bool
  /-- The carry flag `C` (R29). -/
  flagC : Bool
  /-- The interrupt flag `IF` (R30). -/
  flagI : Bool
  /-- The swap sp flag `SWAP` (R31). -/
  swapSp : Bool
  /-- The MMU enabled flag `MMU_EN` (R33). -/
  mmuEn : Bool
  /-- The page directory pointer `PDP` (R34). -/
  pdp : Word
  /-- The halted bit `HALTED` (R36). -/
  halted : Bool
  /-- The translation cache `TLB` (R37, R83). -/
  tlb : List TlbEntry
  /-- Physical memory `Mem` (R60). -/
  mem : Memory
  /-- The platform parameter `PhysMap` (R70, log 7); no step changes it. -/
  physMap : List Region
  /-- The platform parameter `BusError` (R71, log 9); no step changes it. -/
  busError : BusError
  /-- The requests the environment presents at the coming boundaries, the argument `IrqSchedule` (R240, log 8). -/
  irq : List (Option Byte)
  /-- The transfers on the I/O bus so far, newest first (R68, log 10). -/
  ioLog : List IoEvent
  /-- How many free values have been drawn (log 11). -/
  draws : Nat
deriving DecidableEq, Repr

/-- The state after reset (R40, R271): `IF`, `SWAP`, `MMU_EN` and `HALTED` are 0 as the spec decides; the other values are the
model's (logs 1 to 11). -/
def State.reset : State where
  regs := Vector.replicate 35 Config.resetReg
  rip := Config.resetRip
  flagZ := false
  flagC := false
  flagI := false
  swapSp := false
  mmuEn := false
  pdp := 0
  halted := false
  tlb := []
  mem := []
  physMap := [⟨0, 2 ^ 32, .ram⟩]
  busError := ⟨.noStep, .noStep, .noStep⟩
  irq := []
  ioLog := []
  draws := 0

end Sys2Proof.Machine
end

