-- ==== Sys2Proof/Machine/Regs.lean ====
section
/-! DEFINITION. The one place that reads and updates each field of State: the registers of R21 and the named updates. -/

namespace Sys2Proof.Machine

/-- `x[i]` of R21. -/
def State.reg (s : State) (r : RegNo) : Word :=
  s.regs[r.val]

/-- `x[i] <- v` of R21. -/
def State.setReg (s : State) (r : RegNo) (v : Word) : State :=
  { s with regs := s.regs.set r.val v r.isLt }

/-- `rip <- v` (R26). -/
def State.setRip (s : State) (v : Word) : State :=
  { s with rip := v }

/-- `Z <- b`. -/
def State.setZ (s : State) (b : Bool) : State :=
  { s with flagZ := b }

/-- `C <- b`. -/
def State.setC (s : State) (b : Bool) : State :=
  { s with flagC := b }

/-- `IF <- b`. -/
def State.setI (s : State) (b : Bool) : State :=
  { s with flagI := b }

/-- `SWAP <- b`. -/
def State.setSwap (s : State) (b : Bool) : State :=
  { s with swapSp := b }

/-- `MMU_EN <- b`. -/
def State.setMmu (s : State) (b : Bool) : State :=
  { s with mmuEn := b }

/-- `PDP <- v`. -/
def State.setPdp (s : State) (v : Word) : State :=
  { s with pdp := v }

/-- `HALTED <- b`. -/
def State.setHalted (s : State) (b : Bool) : State :=
  { s with halted := b }

/-- Replace the cached translations. -/
def State.setTlb (s : State) (t : List TlbEntry) : State :=
  { s with tlb := t }

/-- Replace physical memory. -/
def State.setMem (s : State) (m : Memory) : State :=
  { s with mem := m }

/-- Replace the requests still to come. -/
def State.setIrq (s : State) (q : List (Option Byte)) : State :=
  { s with irq := q }

/-- Record a transfer on the I/O bus. -/
def State.logIo (s : State) (e : IoEvent) : State :=
  { s with ioLog := e :: s.ioLog }

/-- One free value has been drawn. -/
def State.drawn (s : State) : State :=
  { s with draws := s.draws + 1 }

/-- What an abandoned instruction leaves behind (R84, R249): only the TLB fills of its translations, and the draws made. -/
def State.keepFills (s t : State) : State :=
  { s with tlb := t.tlb, draws := t.draws }

/-- `next` of R116: the address of the byte after an instruction of `len` bytes at `rip`. -/
def State.next (s : State) (len : Nat) : Word :=
  s.rip + BitVec.ofNat 32 len

/-- `RegRead(i, W)` of R23. -/
def State.regRead (s : State) (r : RegNo) (sz : Size) : BitVec sz.bits :=
  (s.reg r).setWidth sz.bits

/-- Bits 31:W of `old` above the W bits of `v` (R23). -/
def mergeLow (sz : Size) (old : Word) (v : BitVec sz.bits) : Word :=
  ((old >>> sz.bits) <<< sz.bits) ||| v.setWidth 32

/-- `RegWrite(i, W, v)` of R23: bits 31:W are kept. -/
def State.regWrite (s : State) (r : RegNo) (sz : Size) (v : BitVec sz.bits) : State :=
  s.setReg r (mergeLow sz (s.reg r) v)

end Sys2Proof.Machine
end

