-- ==== Sys2Proof/Machine/Flags.lean ====
section
/-! DEFINITION. The flags: the flag table of R41 as data, conditions (R106), the table's columns computed from
operands and result, and the flags byte (R32). -/

namespace Sys2Proof.Machine

/-- How an instruction may write `Z` (the second column of R41). -/
inductive ZRule where
  | resultZero
  | operandsEqual
  | testedBitClear
  | unchanged
deriving DecidableEq, Repr

/-- How an instruction may write `C` (the third column of R41). -/
inductive CRule where
  | carryOut
  | borrow
  | signedLess
  | productTooBig
  | signedProductTooBig
  | unchanged
deriving DecidableEq, Repr

/-- A row of the flag table of R41. -/
structure FlagRule where
  z : ZRule
  c : CRule
deriving DecidableEq, Repr

/-- The instructions that R41 lets write a flag from a result. RETI restores both flags by its own rule (R217); every other
instruction writes neither. -/
inductive FlagRow where
  | add | inc | sub | cmp | dec | icmp | mul | imul
  | div | rem | idiv | irem
  | and | or | xor | not
  | sla | sra | srl | rol | ror
  | bts
deriving DecidableEq, Repr

/-- `FlagPolicy` of R41, the spec's own decision D4 and D5, as data. DEDUCED (log 25), unsafe: the source says only that the
condition flags are updated after some operations. -/
def flagPolicy : FlagRow → FlagRule
  | .add => ⟨.resultZero, .carryOut⟩
  | .inc => ⟨.resultZero, .carryOut⟩
  | .sub => ⟨.resultZero, .borrow⟩
  | .cmp => ⟨.operandsEqual, .borrow⟩
  | .dec => ⟨.resultZero, .borrow⟩
  | .icmp => ⟨.operandsEqual, .signedLess⟩
  | .mul => ⟨.resultZero, .productTooBig⟩
  | .imul => ⟨.resultZero, .signedProductTooBig⟩
  | .div => ⟨.resultZero, .unchanged⟩
  | .rem => ⟨.resultZero, .unchanged⟩
  | .idiv => ⟨.resultZero, .unchanged⟩
  | .irem => ⟨.resultZero, .unchanged⟩
  | .and => ⟨.resultZero, .unchanged⟩
  | .or => ⟨.resultZero, .unchanged⟩
  | .xor => ⟨.resultZero, .unchanged⟩
  | .not => ⟨.resultZero, .unchanged⟩
  | .sla => ⟨.resultZero, .unchanged⟩
  | .sra => ⟨.resultZero, .unchanged⟩
  | .srl => ⟨.resultZero, .unchanged⟩
  | .rol => ⟨.resultZero, .unchanged⟩
  | .ror => ⟨.resultZero, .unchanged⟩
  | .bts => ⟨.testedBitClear, .unchanged⟩

/-- `CondHolds` of R106. -/
def condHolds (c : Cond) (s : State) : Bool :=
  match c with
  | .always => true
  | .ifz => s.flagZ
  | .ifnz => !s.flagZ
  | .ifc => s.flagC
  | .ifnc => !s.flagC
  | .ifgt => !s.flagZ && !s.flagC
  | .iflteq => s.flagZ || s.flagC

/-- `Z` after an instruction with W-bit target `t`, source `v` and result `r` (column 2 of R41); `old` is `Z` before. For BTS the
result is the tested bit of the target in its place. -/
def zAfter {w : Nat} (rule : ZRule) (t v r : BitVec w) (old : Bool) : Bool :=
  match rule with
  | .resultZero => r == 0
  | .operandsEqual => t == v
  | .testedBitClear => r == 0
  | .unchanged => old

/-- `C` after an instruction with W-bit target `t` and source `v` (column 3 of R41); `old` is `C` before. -/
def cAfter {w : Nat} (rule : CRule) (t v : BitVec w) (old : Bool) : Bool :=
  match rule with
  | .carryOut => decide (2 ^ w ≤ t.toNat + v.toNat)
  | .borrow => decide (t.toNat < v.toNat)
  | .signedLess => decide (t.toInt < v.toInt)
  | .productTooBig => decide (2 ^ w ≤ t.toNat * v.toNat)
  | .signedProductTooBig => decide (2 * (t.toInt * v.toInt) < -(2 ^ w) ∨ 2 ^ w ≤ 2 * (t.toInt * v.toInt))
  | .unchanged => old

/-- Write the flags as the row of R41 says, from the W-bit target, source and result, a free result among them (log 26). -/
def setFlags {w : Nat} (row : FlagRow) (t v r : BitVec w) (s : State) : State :=
  let rule := flagPolicy row
  (s.setZ (zAfter rule.z t v r s.flagZ)).setC (cAfter rule.c t v s.flagC)

/-- `FlagsByte()` of R32: bits 7:4 are 0. -/
def flagsByte (s : State) : Byte :=
  0#4 ++ BitVec.ofBool s.swapSp ++ BitVec.ofBool s.flagI ++ BitVec.ofBool s.flagC ++ BitVec.ofBool s.flagZ

/-- Restore the four flags from a flags byte (R32, R217); bits 7:4 are ignored. -/
def restoreFlags (f : Byte) (s : State) : State :=
  (((s.setZ (f.getLsbD 0)).setC (f.getLsbD 1)).setI (f.getLsbD 2)).setSwap (f.getLsbD 3)

end Sys2Proof.Machine
end

