-- ==== Sys2Proof/Machine/Memory.lean ====
section
/-! DEFINITION. Physical memory as a canonical list of cells, the platform's memory map, and what an access outside it
does (R60 to R63, R70, R71). -/

namespace Sys2Proof.Machine

/-- The byte at an address; an unlisted address reads as `Config.unwritten` (log 6). -/
def Memory.read : Memory → Nat → Byte
  | [], _ => Config.unwritten
  | (a, b) :: m, x => if a = x then b else Memory.read m x

/-- Store a byte, keeping the canonical form: a byte equal to what an unlisted address reads as is not listed. -/
def Memory.write : Memory → Nat → Byte → Memory
  | [], x, v => if v = Config.unwritten then [] else [(x, v)]
  | (a, b) :: m, x, v =>
    if x < a then
      if v = Config.unwritten then (a, b) :: m else (x, v) :: (a, b) :: m
    else if x = a then
      if v = Config.unwritten then m else (x, v) :: m
    else (a, b) :: Memory.write m x v

/-- The canonical form from address `lo` on: addresses rise strictly, lie in the 2^32 bytes of R60, and no cell holds what an
unlisted address reads as. -/
def Memory.wfFrom : Nat → Memory → Bool
  | _, [] => true
  | lo, (a, b) :: m => decide (lo ≤ a) && decide (a < 2 ^ 32) && (b != Config.unwritten) && Memory.wfFrom (a + 1) m

/-- The canonical form of memory. -/
def Memory.wf (m : Memory) : Bool :=
  Memory.wfFrom 0 m

/-- The bytes at a list of physical addresses. -/
def Memory.readBytes (m : Memory) (pas : List Word) : List Byte :=
  pas.map fun pa => Memory.read m pa.toNat

/-- `PhysMap` of R70: what storage a physical address has; none where no region holds it. The first region that holds the address
counts (log 7). -/
def kindAt : List Region → Word → Option MemKind
  | [], _ => none
  | r :: rs, pa => if r.base ≤ pa.toNat ∧ pa.toNat < r.base + r.size then some r.kind else kindAt rs pa

/-- Store a byte at a physical address; where that is not RAM, the byte is dropped (R71; DESIGN CHOICE, log 9). -/
def Memory.writeByte (map : List Region) (m : Memory) (pa : Word) (b : Byte) : Memory :=
  match kindAt map pa with
  | some .ram => Memory.write m pa.toNat b
  | _ => m

/-- Store bytes at a list of physical addresses, the first byte first. -/
def Memory.writeRam (map : List Region) : Memory → List Word → List Byte → Memory
  | m, pa :: pas, b :: bs => Memory.writeRam map (Memory.writeByte map m pa b) pas bs
  | m, _, _ => m

/-- Whether an access that memory does not answer stops, with the fault it then stops in (R71, log 9). -/
def BusAction.stop (a : BusAction) (f : Fault) : Option Fault :=
  match a with
  | .noStep => some f
  | .goesOn => none

/-- Why a read of one physical address has no step, if it has none (R71, log 9). -/
def readStop (map : List Region) (be : BusError) (pa : Word) : Option Fault :=
  match kindAt map pa with
  | none => be.readNone.stop (.noMemory pa)
  | some _ => none

/-- Why a write to one physical address has no step, if it has none (R71, log 9). -/
def writeStop (map : List Region) (be : BusError) (pa : Word) : Option Fault :=
  match kindAt map pa with
  | none => be.writeNone.stop (.noMemory pa)
  | some .rom => be.writeRom.stop (.romWrite pa)
  | some .ram => none

/-- Why a read of these physical addresses has no step, if it has none: the first of them that stops it (R71). -/
def readFault (map : List Region) (be : BusError) (pas : List Word) : Option Fault :=
  pas.findSome? (readStop map be)

/-- Why a write to these physical addresses has no step, if it has none: the first of them that stops it (R71). -/
def writeFault (map : List Region) (be : BusError) (pas : List Word) : Option Fault :=
  pas.findSome? (writeStop map be)

/-- `n` addresses from `a` on, modulo 2^32 (R61, R63). -/
def addrs (a : Word) (n : Nat) : List Word :=
  (List.range n).map fun i => a + BitVec.ofNat 32 i

end Sys2Proof.Machine
end

