-- ==== Sys2Proof/Machine/Ops.lean ====
section
/-! DEFINITION. The named operations every instruction is written with (R9): translation, memory, stack, free draws, and taking an
exception or interrupt (R245). -/

namespace Sys2Proof.Machine

/-! ## Results -/

/-- The five exceptions of R230; a page fault carries the faulting virtual byte address (R247). -/
inductive Exn where
  | divideByZero
  | invalidOpcode
  | pageFaultRead (va : Word)
  | pageFaultWrite (va : Word)
  | breakpoint
deriving DecidableEq, Repr

/-- What a part of an instruction gives: a value and a state, an exception with the state it was met in, or a stop. -/
inductive Res (α : Type) where
  | ok (a : α) (s : State)
  | raised (e : Exn) (s : State)
  | fault (f : Fault)
  | refused (r : Refusal)
deriving DecidableEq, Repr

/-- The outcome of a step or an instruction. -/
abbrev Outcome := Host.Outcome State Fault Refusal

/-- One part after another, in the order of R119. -/
def Res.bind {α β : Type} (x : Res α) (k : α → State → Res β) : Res β :=
  match x with
  | .ok a s => k a s
  | .raised e s => .raised e s
  | .fault f => .fault f
  | .refused r => .refused r

/-! ## Address translation (R80 to R83) -/

/-- `kind` of `Translate` (R80). -/
inductive AccessKind where
  | read
  | write
deriving DecidableEq, Repr

/-- The page fault of an access at a virtual byte address (R80). -/
def pageFault (kind : AccessKind) (va : Word) : Exn :=
  match kind with
  | .read => .pageFaultRead va
  | .write => .pageFaultWrite va

/-- `va[31:12]` (R80). -/
def vpnOf (va : Word) : BitVec 20 :=
  va.extractLsb' 12 20

/-- `ppn ++ va[11:0]` (R80). -/
def joinPage (ppn : BitVec 20) (va : Word) : Word :=
  ppn ++ va.extractLsb' 0 12

/-- The byte a read of one physical address answers (R61, R63); where there is no memory, a free value (R71, log 9). -/
def State.busByte (s : State) (use : BusUse) (pa : Word) : Byte :=
  match kindAt s.physMap pa with
  | none => Config.busRead s.draws use pa
  | some _ => Memory.read s.mem pa.toNat

/-- The bytes a read of physical addresses answers (R61, R63). -/
def State.busBytes (s : State) (use : BusUse) (pas : List Word) : List Byte :=
  pas.map (s.busByte use)

/-- `PhysRead(pa, 4)` of R63 in a page walk, or why it has no step. -/
def physRead32 (use : BusUse) (s : State) (pa : Word) : Except Fault Word :=
  match readFault s.physMap s.busError (addrs pa 4) with
  | some f => .error f
  | none => .ok (BitVec.ofNat 32 (leNat (s.busBytes use (addrs pa 4))))

/-- `Walk(va)` of R81: the translation, or none if an entry is not present. Bits 11:2 of an entry are not read (R82). -/
def walk (s : State) (va : Word) : Except Fault (Option TlbEntry) :=
  match physRead32 .directory s (s.pdp + 4 * (va.extractLsb' 22 10).setWidth 32) with
  | .error f => .error f
  | .ok pde =>
    if pde.getLsbD 0 then
      match physRead32 .table s (joinPage (pde.extractLsb' 12 20) 0 + 4 * (va.extractLsb' 12 10).setWidth 32) with
      | .error f => .error f
      | .ok pte =>
        if pte.getLsbD 0 then .ok (some ⟨vpnOf va, pte.extractLsb' 12 20, pte.getLsbD 1⟩) else .ok none
    else .ok none

/-- R83: any entry may have disappeared by the time of a translation; the free bits of this draw say which are left (log 12). -/
def State.forgetSome (s : State) : State :=
  (s.setTlb (s.tlb.filter fun e => Config.tlbRetains s.draws e.vpn)).drawn

/-- R83: a successful walk may add its entry; the free bit of draw `n` says whether it does (log 12). -/
def State.mayFill (s : State) (n : Nat) (e : TlbEntry) : State :=
  if Config.tlbFills n e.vpn then s.setTlb (e :: s.tlb) else s

/-- The end of `Translate` (R80): a write through an entry whose writable bit is 0 faults. -/
def applyEntry (kind : AccessKind) (va : Word) (e : TlbEntry) (s : State) : Res Word :=
  if kind = .write ∧ e.writable = false then .raised (pageFault kind va) s else .ok (joinPage e.ppn va) s

/-- `Translate(va, kind)` of R80. A present TLB entry is used without a walk (R83). -/
def translate (kind : AccessKind) (va : Word) (s : State) : Res Word :=
  if s.mmuEn then
    let t := s.forgetSome
    match t.tlb.find? fun e => e.vpn == vpnOf va with
    | some e => applyEntry kind va e t
    | none =>
      match walk s va with
      | .error f => .fault f
      | .ok none => .raised (pageFault kind va) t
      | .ok (some e) => applyEntry kind va e (t.mayFill s.draws e)
  else .ok va s

/-- How many of the `n` bytes from `va` on lie in the page of `va` (R85). -/
def bytesInPage (va : Word) (n : Nat) : Nat :=
  min n (4096 - va.toNat % 4096)

/-- The physical addresses of the `n` bytes from `va` on, all translated before any is accessed (log 27). Bytes in one page share
one translation (log 29), and the lowest failing address is reported (R64, R65, R85). -/
def translateRange (kind : AccessKind) (va : Word) (n : Nat) (s : State) : Res (List Word) :=
  let k := bytesInPage va n
  (translate kind va s).bind fun pa s₁ =>
    if n ≤ k then .ok (addrs pa n) s₁
    else (translate kind (va + BitVec.ofNat 32 k) s₁).bind fun pa₂ s₂ => .ok (addrs pa k ++ addrs pa₂ (n - k)) s₂

/-! ## Memory access (R64 to R66) -/

/-- After a read of physical addresses: a free value has been drawn if one of them has no memory (R71, log 9). -/
def State.afterRead (s : State) (pas : List Word) : State :=
  if pas.any fun pa => (kindAt s.physMap pa).isNone then s.drawn else s

/-- `MemRead(addr, n)` of R64, `n` the bytes of a size. -/
def memRead (sz : Size) (va : Word) (s : State) : Res (BitVec sz.bits) :=
  (translateRange .read va sz.bytes s).bind fun pas t =>
    match readFault t.physMap t.busError pas with
    | some f => .fault f
    | none => .ok (BitVec.ofNat sz.bits (leNat (t.busBytes .data pas))) (t.afterRead pas)

/-- Where a result goes: a register, or the physical addresses of its bytes, lowest virtual address first. -/
inductive Dest where
  | reg (r : RegNo)
  | mem (pas : List Word)
deriving DecidableEq, Repr

/-- The translation half of `MemWrite(addr, n, v)` of R65: every byte is translated, and found not to stop
the write (R71), before any is written (R249). -/
def memDest (sz : Size) (va : Word) (s : State) : Res Dest :=
  (translateRange .write va sz.bytes s).bind fun pas t =>
    match writeFault t.physMap t.busError pas with
    | some f => .fault f
    | none => .ok (.mem pas) t

/-- Store a W-bit value at a destination: R23 for a register, R61 for memory, where bytes that are not RAM are dropped
(R71, log 9). -/
def State.store (s : State) (d : Dest) (sz : Size) (v : BitVec sz.bits) : State :=
  match d with
  | .reg r => s.regWrite r sz v
  | .mem pas => s.setMem (Memory.writeRam s.physMap s.mem pas (leBytes sz.bytes v.toNat))

/-! ## The stack (R73, R74) -/

/-- `Push(n, v)` of R73. -/
def push (sz : Size) (v : BitVec sz.bits) (s : State) : Res Unit :=
  let a := s.reg rsp - BitVec.ofNat 32 sz.bytes
  (memDest sz a s).bind fun d t => .ok () ((t.store d sz v).setReg rsp a)

/-- `Pop(n)` of R74. -/
def pop (sz : Size) (s : State) : Res (BitVec sz.bits) :=
  (memRead sz (s.reg rsp) s).bind fun v t => .ok v (t.setReg rsp (t.reg rsp + BitVec.ofNat 32 sz.bytes))

/-! ## Free values (R9) -/

/-- `UNSPECIFIED(W)` of R9: the next free draw (log 11). -/
def drawValue (sz : Size) (s : State) : Res (BitVec sz.bits) :=
  .ok ((Config.freeWord s.draws).setWidth sz.bits) s.drawn

/-! ## Trap entry (R244 to R251) -/

/-- The code of an exception (R230). -/
def Exn.code : Exn → Nat
  | .divideByZero => 0
  | .invalidOpcode => 1
  | .pageFaultRead _ => 2
  | .pageFaultWrite _ => 3
  | .breakpoint => 4

/-- The vector address of an exception: `0x400 + 4*e` (R244). -/
def Exn.vector (e : Exn) : Word :=
  BitVec.ofNat 32 (0x400 + 4 * e.code)

/-- The vector address of an interrupt: `4*v` (R244). -/
def intVector (v : Byte) : Word :=
  BitVec.ofNat 32 (4 * v.toNat)

/-- The exception operand (R247): the faulting address of a page fault; none where it is `UNSPECIFIED(32)` (U7). -/
def Exn.operand : Exn → Option Word
  | .pageFaultRead va => some va
  | .pageFaultWrite va => some va
  | _ => none

/-- The pushes of R245: with `SWAP` = 1 first the switch to the exception stack and the old rsp, then the saved rip, the flags
byte, and the vector number or exception operand. -/
def pushFrame (saved w : Word) (s : State) : Res Unit :=
  (if s.swapSp then push .word (s.reg rsp) (s.setReg rsp (s.reg resp)) else .ok () s).bind fun _ s₁ =>
    (push .word saved s₁).bind fun _ s₂ =>
      (push .byte (flagsByte s) s₂).bind fun _ s₃ => push .word w s₃

/-- The end of R245: `IF`, `SWAP` and `HALTED` become 0 and the handler is entered. -/
def State.enterHandler (s : State) (h : Word) : State :=
  (((s.setI false).setSwap false).setHalted false).setRip h

/-- `Enter(va, sr, w)` of R245. A handler address of 0 has no step (R250), nor has a page fault inside the entry (R251; log 17). -/
def enter (vector saved w : Word) (s : State) : Outcome :=
  let entry : Res Word :=
    (memRead .word vector s).bind fun (h : Word) s₁ =>
      if h = 0#32 then .fault (.missingHandler vector)
      else (pushFrame saved w s₁).bind fun _ s₂ => .ok h s₂
  match entry with
  | .ok h t => .next (t.enterHandler h)
  | .raised e _ => .fault (.pageFaultInEntry (e.operand.getD 0))
  | .fault f => .fault f
  | .refused r => .refused r

/-- Take an exception (R230, R245): the saved rip is the `rip` of the state (R246); an unspecified operand is a free draw (log 15). -/
def takeException (e : Exn) (s : State) : Outcome :=
  match e.operand with
  | some va => enter e.vector s.rip va s
  | none => enter e.vector s.rip (Config.freeWord s.draws) s.drawn

/-- Take interrupt `v` (R241, R216): the saved rip is the `rip` of the state (R246), the pushed word the vector number. -/
def takeInterrupt (v : Byte) (s : State) : Outcome :=
  enter (intVector v) s.rip (v.setWidth 32) s

/-- The return from a trap beside it: RETI's effect (R217). The swap sp flag tested is the one just restored. -/
def returnFromTrap (s : State) : Res Unit :=
  (pop .byte s).bind fun f s₁ =>
    (pop .word s₁).bind fun r s₂ =>
      if f.getLsbD 3 then
        (memRead .word (s₂.reg rsp) s₂).bind fun sp s₃ => .ok () (((restoreFlags f s₃).setReg rsp sp).setRip r)
      else .ok () ((restoreFlags f s₂).setRip r)

/-! ## Completing an instruction -/

/-- End an instruction that started in `s`: an exception abandons it with no architectural effect but TLB fills (R249) and is
taken, with `rip` still the instruction's own address (R246). -/
def conclude {α : Type} (s : State) (x : Res α) (k : α → State → Outcome) : Outcome :=
  match x with
  | .ok a t => k a t
  | .raised e t => takeException e (s.keepFills t)
  | .fault f => .fault f
  | .refused r => .refused r

/-- R118: a false condition skips the whole instruction. -/
def whenHolds (c : Cond) (len : Nat) (s : State) (x : Outcome) : Outcome :=
  if condHolds c s then x else .next (s.setRip (s.next len))

/-- An instruction that goes on at `next` (R26). -/
def advancing (c : Cond) (len : Nat) (s : State) (x : Res Unit) : Outcome :=
  whenHolds c len s (conclude s x fun _ t => .next (t.setRip (s.next len)))

/-- An instruction that gives the address it goes on at (R26). -/
def transferring (c : Cond) (len : Nat) (s : State) (x : Res Word) : Outcome :=
  whenHolds c len s (conclude s x fun target t => .next (t.setRip target))

end Sys2Proof.Machine
end

