-- ==== Sys2Proof/Machine/Operands.lean ====
section
/-! DEFINITION. The operand accessors of R112 to R116, for every operand form, and the instruction shapes built on them. -/

namespace Sys2Proof.Machine

/-- The effective address of a register pointer: the register plus the zero-extended offset, modulo 2^32 (R107, R116). -/
def effectiveAddress (r : RegNo) (off : Option Byte) (s : State) : Word :=
  s.reg r + (off.getD 0).setWidth 32

/-- `SrcVal` and `TgtVal` of R112, R113. -/
def readOperand (sz : Size) (o : Operand) (s : State) : Res (BitVec sz.bits) :=
  match o with
  | .reg r => .ok (s.regRead r sz) s
  | .ptr r off => memRead sz (effectiveAddress r off s) s
  | .imm v => .ok (v.setWidth sz.bits) s
  | .immPtr a => memRead sz a s

/-- Where `SrcWrite` and `TgtWrite` write (R114, R115): a memory destination is translated for writing, and nothing is written
yet (R249). An immediate cannot be written: `InvalidOpcode` (R125; the decoder lets no such instruction through, log 21). -/
def operandDest (sz : Size) (o : Operand) (s : State) : Res Dest :=
  match o with
  | .reg r => .ok (.reg r) s
  | .ptr r off => memDest sz (effectiveAddress r off s) s
  | .imm _ => .raised .invalidOpcode s
  | .immPtr a => memDest sz a s

/-- Read the source, then the target (R119). -/
def readBoth (sz : Size) (src tgt : Operand) (s : State) : Res (BitVec sz.bits × BitVec sz.bits) :=
  (readOperand sz src s).bind fun v s₁ => (readOperand sz tgt s₁).bind fun t s₂ => .ok (v, t) s₂

/-- `TgtWrite(v)` or `SrcWrite(v)` (R114, R115). -/
def writeOperand (sz : Size) (o : Operand) (v : BitVec sz.bits) (s : State) : Res Unit :=
  (operandDest sz o s).bind fun d t => .ok () (t.store d sz v)

/-- A two-operand instruction `target <- f(target, source)` that writes flags by a row of R41 (R140, R160): both operands are read,
the result is computed (or an exception raised), the target is written, the flags are written. -/
def combine (row : FlagRow) (sz : Size) (src tgt : Operand)
    (f : BitVec sz.bits → BitVec sz.bits → State → Res (BitVec sz.bits)) (s : State) : Res Unit :=
  (readBoth sz src tgt s).bind fun vt s₁ =>
    (f vt.2 vt.1 s₁).bind fun r s₂ =>
      (writeOperand sz tgt r s₂).bind fun _ s₃ => .ok () (setFlags row vt.2 vt.1 r s₃)

/-- A two-operand instruction `target <- f(target, source)` that writes no flag (R170, R171). -/
def combineNoFlags (sz : Size) (src tgt : Operand)
    (f : BitVec sz.bits → BitVec sz.bits → State → Res (BitVec sz.bits)) (s : State) : Res Unit :=
  (readBoth sz src tgt s).bind fun vt s₁ => (f vt.2 vt.1 s₁).bind fun r s₂ => writeOperand sz tgt r s₂

/-- A one-operand instruction `operand <- f(operand)` that writes flags by a row of R41, with `k` as the second operand of the
flag computation (R143, R144, R164). -/
def modify (row : FlagRow) (sz : Size) (o : Operand) (k : BitVec sz.bits) (f : BitVec sz.bits → BitVec sz.bits) (s : State) :
    Res Unit :=
  (readOperand sz o s).bind fun v s₁ =>
    (writeOperand sz o (f v) s₁).bind fun _ s₂ => .ok () (setFlags row v k (f v) s₂)

/-- A result that is computed from the operands alone. -/
def total {w : Nat} (f : BitVec w → BitVec w → BitVec w) (t v : BitVec w) (s : State) : Res (BitVec w) :=
  .ok (f t v) s

/-- A shift or bit result by a count `v`: `f t n` for a count below W, a free value otherwise (R173, U2; log 13). -/
def counted (sz : Size) (f : BitVec sz.bits → Nat → BitVec sz.bits) (t v : BitVec sz.bits) (s : State) :
    Res (BitVec sz.bits) :=
  if v.toNat < sz.bits then .ok (f t v.toNat) s else drawValue sz s

/-- A quotient or remainder: `DivideByZero` for a zero source (R147 to R150). -/
def divided {w : Nat} (f : BitVec w → BitVec w → State → Res (BitVec w)) (t v : BitVec w) (s : State) : Res (BitVec w) :=
  if v = 0 then .raised .divideByZero s else f t v s

/-- A signed quotient or remainder: a free value for the most negative number by -1 (R148, R150, U3; log 14). -/
def signedDivided (sz : Size) (f : Int → Int → Int) (t v : BitVec sz.bits) (s : State) : Res (BitVec sz.bits) :=
  if t.toInt = -(2 ^ (sz.bits - 1)) ∧ v.toInt = -1 then drawValue sz s
  else .ok (BitVec.ofInt sz.bits (f t.toInt v.toInt)) s

/-- The target of a relative transfer (R190): `ip0 + sext_32(displacement)`. -/
def relative {w : Nat} (s : State) (disp : BitVec w) : Word :=
  s.rip + disp.signExtend 32

end Sys2Proof.Machine
end

