-- ==== Sys2Proof/Machine/Arithmetic.lean ====
section
/-! DEFINITION. The arithmetic instructions (`40_arithmetic.md`). -/

namespace Sys2Proof.Machine

/-- ADD, R141: target <- target + source modulo 2^W; `C` is the carry out. -/
def execAdd (sz : Size) (c : Cond) (src tgt : Operand) (s : State) : Outcome :=
  advancing c (Instr.add sz c src tgt).length s <|
    combine .add sz src tgt (total fun t v => t + v) s

/-- SUB, R142: target <- target - source modulo 2^W; `C` is the borrow. -/
def execSub (sz : Size) (c : Cond) (src tgt : Operand) (s : State) : Outcome :=
  advancing c (Instr.sub sz c src tgt).length s <|
    combine .sub sz src tgt (total fun t v => t - v) s

/-- The amount of INC and DEC: `1 << tgt` (R109). -/
def stepAmount (sz : Size) (amt : BitVec 2) : BitVec sz.bits :=
  BitVec.ofNat sz.bits (1 <<< amt.toNat)

/-- INC, R143: operand <- operand + amount modulo 2^W. -/
def execInc (sz : Size) (c : Cond) (amt : BitVec 2) (src : Operand) (s : State) : Outcome :=
  advancing c (Instr.inc sz c amt src).length s <|
    modify .inc sz src (stepAmount sz amt) (fun v => v + stepAmount sz amt) s

/-- DEC, R144: operand <- operand - amount modulo 2^W. -/
def execDec (sz : Size) (c : Cond) (amt : BitVec 2) (src : Operand) (s : State) : Outcome :=
  advancing c (Instr.dec sz c amt src).length s <|
    modify .dec sz src (stepAmount sz amt) (fun v => v - stepAmount sz amt) s

/-- MUL, R145: the low W bits of the unsigned product; `C` says it did not fit. -/
def execMul (sz : Size) (c : Cond) (src tgt : Operand) (s : State) : Outcome :=
  advancing c (Instr.mul sz c src tgt).length s <|
    combine .mul sz src tgt (total fun t v => t * v) s

/-- IMUL, R146: the low W bits of the signed product; `C` says it did not fit. -/
def execImul (sz : Size) (c : Cond) (src tgt : Operand) (s : State) : Outcome :=
  advancing c (Instr.imul sz c src tgt).length s <|
    combine .imul sz src tgt (total fun t v => BitVec.ofInt sz.bits (t.toInt * v.toInt)) s

/-- DIV, R147: the unsigned quotient, rounded down. -/
def execDiv (sz : Size) (c : Cond) (src tgt : Operand) (s : State) : Outcome :=
  advancing c (Instr.div sz c src tgt).length s <|
    combine .div sz src tgt (divided (total fun t v => BitVec.ofNat sz.bits (t.toNat / v.toNat))) s

/-- IDIV, R148: the signed quotient, rounded toward zero. -/
def execIdiv (sz : Size) (c : Cond) (src tgt : Operand) (s : State) : Outcome :=
  advancing c (Instr.idiv sz c src tgt).length s <|
    combine .idiv sz src tgt (divided (signedDivided sz Int.tdiv)) s

/-- REM, R149: the unsigned remainder. -/
def execRem (sz : Size) (c : Cond) (src tgt : Operand) (s : State) : Outcome :=
  advancing c (Instr.rem sz c src tgt).length s <|
    combine .rem sz src tgt (divided (total fun t v => BitVec.ofNat sz.bits (t.toNat % v.toNat))) s

/-- IREM, R150: the signed remainder, with the sign of the target. -/
def execIrem (sz : Size) (c : Cond) (src tgt : Operand) (s : State) : Outcome :=
  advancing c (Instr.irem sz c src tgt).length s <|
    combine .irem sz src tgt (divided (signedDivided sz Int.tmod)) s

end Sys2Proof.Machine
end

