-- ==== Sys2Proof/Machine/Control.lean ====
section
/-! DEFINITION. The control transfers (`43_control_flow.md`). -/

namespace Sys2Proof.Machine

/-- JMP, R191: `rip` becomes the source value. -/
def execJmp (c : Cond) (src : Operand) (s : State) : Outcome :=
  transferring c (Instr.jmp c src).length s (readOperand .word src s)

/-- RJMP, R192: `rip` becomes the address of this instruction plus the sign-extended source. -/
def execRjmp (sz : Size) (c : Cond) (src : Operand) (s : State) : Outcome :=
  transferring c (Instr.rjmp sz c src).length s <|
    (readOperand sz src s).bind fun v s₁ => .ok (relative s v) s₁

/-- Push a 4-byte return address, then go to `target` (R193, R194). -/
def pushReturn (ret target : Word) (s : State) : Res Word :=
  (push .word ret s).bind fun _ t => .ok target t

/-- CALL, R193: the source is read before `next` is pushed. -/
def execCall (c : Cond) (src : Operand) (s : State) : Outcome :=
  transferring c (Instr.call c src).length s <|
    (readOperand .word src s).bind fun v s₁ => pushReturn (s.next (Instr.call c src).length) v s₁

/-- RCALL, R194: four bytes are pushed whatever the size of the displacement. -/
def execRcall (sz : Size) (c : Cond) (src : Operand) (s : State) : Outcome :=
  transferring c (Instr.rcall sz c src).length s <|
    (readOperand sz src s).bind fun v s₁ => pushReturn (s.next (Instr.rcall sz c src).length) (relative s v) s₁

/-- RET, R195: `rip` is popped. -/
def execRet (c : Cond) (s : State) : Outcome :=
  transferring c (Instr.ret c).length s (pop .word s)

/-- `LOOP_REG` of R196: r31, which the spec takes from general knowledge. PRESUMED (log 16), unsafe. -/
def loopReg : RegNo := 31

/-- Decrement the loop counter, all 32 bits of it, and go to `target` while it is not zero, else to `next` (R196, R197). -/
def countDown (target next : Word) (s : State) : Res Word :=
  let n := s.reg loopReg - 1
  .ok (if n = 0 then next else target) (s.setReg loopReg n)

/-- LOOP, R196: the source is read before the decrement. -/
def execLoop (c : Cond) (src : Operand) (s : State) : Outcome :=
  transferring c (Instr.loop c src).length s <|
    (readOperand .word src s).bind fun v s₁ => countDown v (s.next (Instr.loop c src).length) s₁

/-- RLOOP, R197: the size is that of the displacement only. -/
def execRloop (sz : Size) (c : Cond) (src : Operand) (s : State) : Outcome :=
  transferring c (Instr.rloop sz c src).length s <|
    (readOperand sz src s).bind fun v s₁ => countDown (relative s v) (s.next (Instr.rloop sz c src).length) s₁

end Sys2Proof.Machine
end

