-- ==== Sys2Proof/Machine/Logic.lean ====
section
/-! DEFINITION. The logic, shift, rotate and bit instructions (`41_logic_shift_bit.md`). -/

namespace Sys2Proof.Machine

/-- AND, R161. -/
def execAnd (sz : Size) (c : Cond) (src tgt : Operand) (s : State) : Outcome :=
  advancing c (Instr.and sz c src tgt).length s <|
    combine .and sz src tgt (total fun t v => t &&& v) s

/-- OR, R162. -/
def execOr (sz : Size) (c : Cond) (src tgt : Operand) (s : State) : Outcome :=
  advancing c (Instr.or sz c src tgt).length s <|
    combine .or sz src tgt (total fun t v => t ||| v) s

/-- XOR, R163. -/
def execXor (sz : Size) (c : Cond) (src tgt : Operand) (s : State) : Outcome :=
  advancing c (Instr.xor sz c src tgt).length s <|
    combine .xor sz src tgt (total fun t v => t ^^^ v) s

/-- NOT, R164: one operand, read and written. -/
def execNot (sz : Size) (c : Cond) (src : Operand) (s : State) : Outcome :=
  advancing c (Instr.not sz c src).length s <|
    modify .not sz src 0 (fun v => ~~~v) s

/-- SLA, R165: shift left; a count of W or more gives a free value (U2). -/
def execSla (sz : Size) (c : Cond) (src tgt : Operand) (s : State) : Outcome :=
  advancing c (Instr.sla sz c src tgt).length s <|
    combine .sla sz src tgt (counted sz fun t n => t <<< n) s

/-- SRA, R166: shift right, the sign bit of the W-bit operand entering; a count of W or more gives a free value (U2). -/
def execSra (sz : Size) (c : Cond) (src tgt : Operand) (s : State) : Outcome :=
  advancing c (Instr.sra sz c src tgt).length s <|
    combine .sra sz src tgt (counted sz fun t n => t.sshiftRight n) s

/-- SRL, R167: shift right, zeros entering; a count of W or more gives a free value (U2). -/
def execSrl (sz : Size) (c : Cond) (src tgt : Operand) (s : State) : Outcome :=
  advancing c (Instr.srl sz c src tgt).length s <|
    combine .srl sz src tgt (counted sz fun t n => t >>> n) s

/-- Rotate the W-bit operand left by `n` modulo W (R168). -/
def rotateLeft {w : Nat} (t v : BitVec w) : BitVec w :=
  let n := v.toNat % w
  (t <<< n) ||| (t >>> (w - n))

/-- Rotate the W-bit operand right by `n` modulo W (R169). -/
def rotateRight {w : Nat} (t v : BitVec w) : BitVec w :=
  let n := v.toNat % w
  (t >>> n) ||| (t <<< (w - n))

/-- ROL, R168. -/
def execRol (sz : Size) (c : Cond) (src tgt : Operand) (s : State) : Outcome :=
  advancing c (Instr.rol sz c src tgt).length s <|
    combine .rol sz src tgt (total rotateLeft) s

/-- ROR, R169. -/
def execRor (sz : Size) (c : Cond) (src tgt : Operand) (s : State) : Outcome :=
  advancing c (Instr.ror sz c src tgt).length s <|
    combine .ror sz src tgt (total rotateRight) s

/-- The W-bit value `1 << n` (R170 to R172). -/
def bitAt (w n : Nat) : BitVec w :=
  1#w <<< n

/-- BSE, R170: set a bit; no flag is written; a bit number of W or more gives a free value (U2). -/
def execBse (sz : Size) (c : Cond) (src tgt : Operand) (s : State) : Outcome :=
  advancing c (Instr.bse sz c src tgt).length s <|
    combineNoFlags sz src tgt (counted sz fun t n => t ||| bitAt sz.bits n) s

/-- BCL, R171: clear a bit; no flag is written; a bit number of W or more gives a free value (U2). -/
def execBcl (sz : Size) (c : Cond) (src tgt : Operand) (s : State) : Outcome :=
  advancing c (Instr.bcl sz c src tgt).length s <|
    combineNoFlags sz src tgt (counted sz fun t n => t &&& ~~~bitAt sz.bits n) s

/-- `Z` from bit `v` of `t` (R172): 1 when the bit is 0; a free bit for a bit number of W or more (U2). -/
def testBit (sz : Size) (t v : BitVec sz.bits) (s : State) : State :=
  if v.toNat < sz.bits then setFlags .bts t v (t &&& bitAt sz.bits v.toNat) s
  else s.drawn.setZ (Config.freeBit s.draws)

/-- BTS, R172: both operands are only read; nothing but `Z` is written. -/
def execBts (sz : Size) (c : Cond) (src tgt : Operand) (s : State) : Outcome :=
  advancing c (Instr.bts sz c src tgt).length s <|
    (readBoth sz src tgt s).bind fun vt s₁ => .ok () (testBit sz vt.2 vt.1 s₁)

end Sys2Proof.Machine
end

