-- ==== Sys2Proof/Machine/Move.lean ====
section
/-! DEFINITION. The move, compare and address instructions (`42_move_compare.md`). -/

namespace Sys2Proof.Machine

/-- MOV, R181: the target is not read; no flag is written. -/
def execMov (sz : Size) (c : Cond) (src tgt : Operand) (s : State) : Outcome :=
  advancing c (Instr.mov sz c src tgt).length s <|
    (readOperand sz src s).bind fun v s₁ => writeOperand sz tgt v s₁

/-- Where MOVZ writes (R182): all 32 bits of a register target, the bytes of the operation size of a memory target. -/
def writeZeroExtended (sz : Size) (tgt : Operand) (v : BitVec sz.bits) (s : State) : Res Unit :=
  match tgt with
  | .reg r => .ok () (s.setReg r (v.setWidth 32))
  | _ => writeOperand sz tgt v s

/-- MOVZ, R182: MOV that clears the upper bits of a target register. -/
def execMovz (sz : Size) (c : Cond) (src tgt : Operand) (s : State) : Outcome :=
  advancing c (Instr.movz sz c src tgt).length s <|
    (readOperand sz src s).bind fun v s₁ => writeZeroExtended sz tgt v s₁

/-- CMP, R183: `Z` is equality, `C` unsigned less-than of target and source; nothing else is written. -/
def execCmp (sz : Size) (c : Cond) (src tgt : Operand) (s : State) : Outcome :=
  advancing c (Instr.cmp sz c src tgt).length s <|
    (readBoth sz src tgt s).bind fun vt s₁ => .ok () (setFlags .cmp vt.2 vt.1 (vt.2 - vt.1) s₁)

/-- ICMP, R184: `Z` is equality, `C` signed less-than of target and source; nothing else is written. -/
def execIcmp (sz : Size) (c : Cond) (src tgt : Operand) (s : State) : Outcome :=
  advancing c (Instr.icmp sz c src tgt).length s <|
    (readBoth sz src tgt s).bind fun vt s₁ => .ok () (setFlags .icmp vt.2 vt.1 (vt.2 - vt.1) s₁)

/-- RTA, R185: the low W bits of the address of this instruction plus the sign-extended source; no flag is written. -/
def execRta (sz : Size) (c : Cond) (src tgt : Operand) (s : State) : Outcome :=
  advancing c (Instr.rta sz c src tgt).length s <|
    (readOperand sz src s).bind fun v s₁ => writeOperand sz tgt ((relative s v).setWidth sz.bits) s₁

end Sys2Proof.Machine
end

