-- ==== Sys2Proof/Machine/StackIo.lean ====
section
/-! DEFINITION. The stack and I/O bus instructions (`44_stack_io.md`). -/

namespace Sys2Proof.Machine

/-- PUSH, R201: the source is read with the old rsp. -/
def execPush (sz : Size) (c : Cond) (src : Operand) (s : State) : Outcome :=
  advancing c (Instr.push sz c src).length s <|
    (readOperand sz src s).bind fun v s₁ => push sz v s₁

/-- POP, R202: the operand in the source slot is written. Its address is that of the registers before the instruction, and a
memory destination is translated before rsp moves (R116, R249); the write comes after the increment of rsp. -/
def execPop (sz : Size) (c : Cond) (src : Operand) (s : State) : Outcome :=
  advancing c (Instr.pop sz c src).length s <|
    (memRead sz (s.reg rsp) s).bind fun v s₁ =>
      (operandDest sz src s₁).bind fun d s₂ =>
        .ok () ((s₂.setReg rsp (s₂.reg rsp + BitVec.ofNat 32 sz.bytes)).store d sz v)

/-- `IoRead(port)` of R68: a free value of the environment, and the transfer on record (log 10). -/
def ioRead (port : Word) (s : State) : Res Word :=
  let v := Config.ioRead s.draws port
  .ok v (s.drawn.logIo (.read port v))

/-- IN, R203: the source is the port; the target is translated for writing before the port is read (R249). -/
def execIoIn (c : Cond) (src tgt : Operand) (s : State) : Outcome :=
  advancing c (Instr.ioIn c src tgt).length s <|
    (readOperand .word src s).bind fun p s₁ =>
      (operandDest .word tgt s₁).bind fun d s₂ =>
        (ioRead p s₂).bind fun v s₃ => .ok () (s₃.store d .word v)

/-- OUT, R204: the target is the port, the source the datum; `IoWrite` is an event for the environment (R68). -/
def execIoOut (c : Cond) (src tgt : Operand) (s : State) : Outcome :=
  advancing c (Instr.ioOut c src tgt).length s <|
    (readBoth .word src tgt s).bind fun vp s₁ => .ok () (s₁.logIo (.write vp.2 vp.1))

end Sys2Proof.Machine
end

