-- ==== Sys2Proof/Machine/System.lean ====
section
/-! DEFINITION. The system instructions (`45_system.md`). -/

namespace Sys2Proof.Machine

/-- NOP, R211: the size has no effect. -/
def execNop (sz : Size) (c : Cond) (s : State) : Outcome :=
  advancing c (Instr.nop sz c).length s (.ok () s)

/-- HALT, R212: `rip` advances and `HALTED` becomes 1. -/
def execHalt (sz : Size) (c : Cond) (s : State) : Outcome :=
  advancing c (Instr.halt sz c).length s (.ok () (s.setHalted true))

/-- BRK, R213: exception 4 with `next` as the saved rip. -/
def execBrk (sz : Size) (c : Cond) (s : State) : Outcome :=
  let len := (Instr.brk sz c).length
  whenHolds c len s (takeException .breakpoint (s.setRip (s.next len)))

/-- ISE, R214: `IF` becomes 1. -/
def execIse (c : Cond) (s : State) : Outcome :=
  advancing c (Instr.ise c).length s (.ok () (s.setI true))

/-- ICL, R215: `IF` becomes 0. -/
def execIcl (c : Cond) (s : State) : Outcome :=
  advancing c (Instr.icl c).length s (.ok () (s.setI false))

/-- INT, R216: the source is the vector number; dropped when `IF` = 0. A value above 0xFF is refused (U8, log 18). -/
def execInt (c : Cond) (src : Operand) (s : State) : Outcome :=
  let len := (Instr.int c src).length
  whenHolds c len s <|
    conclude s (readOperand .word src s) fun (v : Word) t =>
      if 0xFF < v.toNat then .refused (.intVectorAbove0xFF v)
      else if t.flagI then takeInterrupt (v.setWidth 8) (t.setRip (s.next len))
      else .next (t.setRip (s.next len))

/-- RETI, R217: the flags, `rip` and, if the restored `SWAP` is 1, rsp are popped. -/
def execReti (c : Cond) (s : State) : Outcome :=
  whenHolds c (Instr.reti c).length s (conclude s (returnFromTrap s) fun _ t => .next t)

/-- MSE, R223: `MMU_EN` becomes 1; the TLB is not flushed. -/
def execMse (c : Cond) (s : State) : Outcome :=
  advancing c (Instr.mse c).length s (.ok () (s.setMmu true))

/-- MCL, R224: `MMU_EN` becomes 0; the TLB keeps its entries. -/
def execMcl (c : Cond) (s : State) : Outcome :=
  advancing c (Instr.mcl c).length s (.ok () (s.setMmu false))

/-- TLB, R225: the TLB is emptied and `PDP` becomes the source value. -/
def execTlb (c : Cond) (src : Operand) (s : State) : Outcome :=
  advancing c (Instr.tlb c src).length s <|
    (readOperand .word src s).bind fun v s₁ => .ok () ((s₁.setTlb []).setPdp v)

/-- FLP, R226: the entry of the page of the source value, if there is one, is removed from the TLB. -/
def execFlp (c : Cond) (src : Operand) (s : State) : Outcome :=
  advancing c (Instr.flp c src).length s <|
    (readOperand .word src s).bind fun v s₁ => .ok () (s₁.setTlb (s₁.tlb.filter fun e => e.vpn != vpnOf v))

end Sys2Proof.Machine
end

