-- ==== Sys2Proof/Machine/Dispatch.lean ====
section
/-! DEFINITION. Which meaning each instruction has: one arm per constructor of `Instr`, each one direct call. -/

namespace Sys2Proof.Machine

def exec (i : Instr) (s : State) : Host.Outcome State Fault Refusal :=
  match i with
  | .nop sz c => Sys2Proof.Machine.execNop sz c s
  | .add sz c src tgt => Sys2Proof.Machine.execAdd sz c src tgt s
  | .mul sz c src tgt => Sys2Proof.Machine.execMul sz c src tgt s
  | .and sz c src tgt => Sys2Proof.Machine.execAnd sz c src tgt s
  | .sla sz c src tgt => Sys2Proof.Machine.execSla sz c src tgt s
  | .sra sz c src tgt => Sys2Proof.Machine.execSra sz c src tgt s
  | .bse sz c src tgt => Sys2Proof.Machine.execBse sz c src tgt s
  | .cmp sz c src tgt => Sys2Proof.Machine.execCmp sz c src tgt s
  | .jmp c src => Sys2Proof.Machine.execJmp c src s
  | .rjmp sz c src => Sys2Proof.Machine.execRjmp sz c src s
  | .push sz c src => Sys2Proof.Machine.execPush sz c src s
  | .ioIn c src tgt => Sys2Proof.Machine.execIoIn c src tgt s
  | .ise c => Sys2Proof.Machine.execIse c s
  | .mse c => Sys2Proof.Machine.execMse c s
  | .halt sz c => Sys2Proof.Machine.execHalt sz c s
  | .inc sz c amt src => Sys2Proof.Machine.execInc sz c amt src s
  | .or sz c src tgt => Sys2Proof.Machine.execOr sz c src tgt s
  | .imul sz c src tgt => Sys2Proof.Machine.execImul sz c src tgt s
  | .srl sz c src tgt => Sys2Proof.Machine.execSrl sz c src tgt s
  | .bcl sz c src tgt => Sys2Proof.Machine.execBcl sz c src tgt s
  | .mov sz c src tgt => Sys2Proof.Machine.execMov sz c src tgt s
  | .call c src => Sys2Proof.Machine.execCall c src s
  | .rcall sz c src => Sys2Proof.Machine.execRcall sz c src s
  | .pop sz c src => Sys2Proof.Machine.execPop sz c src s
  | .ioOut c src tgt => Sys2Proof.Machine.execIoOut c src tgt s
  | .icl c => Sys2Proof.Machine.execIcl c s
  | .mcl c => Sys2Proof.Machine.execMcl c s
  | .brk sz c => Sys2Proof.Machine.execBrk sz c s
  | .sub sz c src tgt => Sys2Proof.Machine.execSub sz c src tgt s
  | .div sz c src tgt => Sys2Proof.Machine.execDiv sz c src tgt s
  | .xor sz c src tgt => Sys2Proof.Machine.execXor sz c src tgt s
  | .rol sz c src tgt => Sys2Proof.Machine.execRol sz c src tgt s
  | .ror sz c src tgt => Sys2Proof.Machine.execRor sz c src tgt s
  | .bts sz c src tgt => Sys2Proof.Machine.execBts sz c src tgt s
  | .movz sz c src tgt => Sys2Proof.Machine.execMovz sz c src tgt s
  | .loop c src => Sys2Proof.Machine.execLoop c src s
  | .rloop sz c src => Sys2Proof.Machine.execRloop sz c src s
  | .ret c => Sys2Proof.Machine.execRet c s
  | .int c src => Sys2Proof.Machine.execInt c src s
  | .tlb c src => Sys2Proof.Machine.execTlb c src s
  | .dec sz c amt src => Sys2Proof.Machine.execDec sz c amt src s
  | .rem sz c src tgt => Sys2Proof.Machine.execRem sz c src tgt s
  | .not sz c src => Sys2Proof.Machine.execNot sz c src s
  | .idiv sz c src tgt => Sys2Proof.Machine.execIdiv sz c src tgt s
  | .irem sz c src tgt => Sys2Proof.Machine.execIrem sz c src tgt s
  | .icmp sz c src tgt => Sys2Proof.Machine.execIcmp sz c src tgt s
  | .rta sz c src tgt => Sys2Proof.Machine.execRta sz c src tgt s
  | .reti c => Sys2Proof.Machine.execReti c s
  | .flp c src => Sys2Proof.Machine.execFlp c src s

end Sys2Proof.Machine
end

