-- ==== Sys2Proof/Machine/Fetch.lean ====
section
/-! DEFINITION. Fetching an instruction (R117 steps 3 to 6), the requests of the environment (R240), and placing an instruction
where the next fetch reads it. -/

namespace Sys2Proof.Machine

/-- What a fetch gives: an instruction to execute, or one whose condition is false, of which only the length is known (R118). -/
inductive Fetched where
  | run (i : Instr)
  | skip (len : Nat)
deriving DecidableEq, Repr

/-- `Fetch(addr, 1)` (R66). -/
def fetchByte (a : Word) (s : State) : Res Byte :=
  memRead .byte a s

/-- R117 step 6: fetch the operand bytes at the given addresses in ascending order, stopping at a register-number byte above 34
(R108, R243; log 22), and give the instruction. `bs` are the operand bytes fetched so far. -/
def fetchBody (h : Head) : List Byte → List Word → State → Res Instr
  | bs, [], s =>
    match decodeBody h bs with
    | .ok (i, _) => .ok i s
    | .error _ => .raised .invalidOpcode s
  | bs, a :: as, s =>
    if decodeBody h bs = .error .badRegister then .raised .invalidOpcode s
    else (fetchByte a s).bind fun b t => fetchBody h (bs ++ [b]) as t

/-- R117 steps 3 to 6 at `rip`: the control word, the checks on it, the condition, the operand bytes. -/
def fetch (s : State) : Res Fetched :=
  (memRead .half s.rip s).bind fun w t =>
    match decodeHead w with
    | .error _ => .raised .invalidOpcode t
    | .ok h =>
      if condHolds h.cond s then
        (fetchBody h [] (addrs (s.rip + 2) h.bodyLen) t).bind fun i u => .ok (.run i) u
      else .ok (.skip h.length) t

/-- The request the environment presents at this boundary, if any (R240). -/
def State.request (s : State) : Option Byte :=
  match s.irq with
  | some v :: _ => some v
  | _ => none

/-- The boundary is over: its request, taken or not, is gone (R38, R240). -/
def State.boundary (s : State) : State :=
  s.setIrq s.irq.tail

/-- The physical address the next fetch of the byte at `va` would use, as the TLB and the page tables stand; none where it would
fault. -/
def fetchPlace (s : State) (va : Word) : Option Word :=
  if s.mmuEn then
    match s.tlb.find? fun e => e.vpn == vpnOf va with
    | some e => some (joinPage e.ppn va)
    | none =>
      match walk s va with
      | .ok (some e) => some (joinPage e.ppn va)
      | _ => none
  else some va

/-- Store bytes where the fetches at `va`, `va + 1`, … read them; a byte whose address does not translate is left out. -/
def placeBytes (s : State) : Word → List Byte → Memory
  | _, [] => s.mem
  | va, b :: bs =>
    match fetchPlace s va with
    | some pa => Memory.write (placeBytes s (va + 1) bs) pa.toNat b
    | none => placeBytes s (va + 1) bs

/-- The state whose next fetch reads these bytes at `rip`: they are in memory, no request is presented at the coming boundary, and
the CPU is not halted (log 20). -/
def State.withFetchBytes (s : State) (bs : List Byte) : State :=
  ((s.setMem (placeBytes s s.rip bs)).setIrq (if s.request.isSome then none :: s.irq.tail else s.irq)).setHalted false

end Sys2Proof.Machine
end

