-- ==== Sys2Proof/Machine/Cycle.lean ====
section
/-! DEFINITION. The execution cycle (R117). -/

namespace Sys2Proof.Machine

/-- R117 steps 3 to 7: fetch the instruction at `rip` and execute it. -/
def fetchExecute (s : State) : Outcome :=
  conclude s (fetch s) fun f t =>
    match f with
    | .run i => exec i t
    | .skip len => .next (t.setRip (t.next len))

/-- R117 without step 1: a halted CPU stays as it is (R36, U16, log 19). -/
def cpuStep (s : State) : Outcome :=
  if s.halted then .next s else fetchExecute s

/-- One step of the CPU (R117). A request presented with `IF` = 1 is taken and the step ends, also while halted (R241); with
`IF` = 0 it has no effect. -/
def cycle (s : State) : Outcome :=
  match s.request with
  | some v => if s.flagI then takeInterrupt v s.boundary else cpuStep s.boundary
  | none => cpuStep s.boundary

end Sys2Proof.Machine
end

