-- ==== Sys2Proof/Machine/Step.lean ====
section
/-! DEFINITION. The step of the machine, and the state whose next step runs a given instruction. -/

namespace Sys2Proof.Machine

/-- One step: one instruction, one interrupt entry, or one boundary passed while halted (R117, R285). -/
def step (s : State) : Host.Outcome State Fault Refusal :=
  cycle s

/-- `s` with the instruction whose bits below `nbits` are `w`, all others zero, where the next fetch reads it. -/
def State.withFetchWord (s : State) (nbits w : Nat) : State :=
  s.withFetchBytes (tableBytes nbits w)

end Sys2Proof.Machine
end

