-- ==== Sys2Proof/WellFormed.lean ====
section
/-! DEFINITION. Which terms of `Instr` are instructions of the machine: what the encoding can hold and R125 allows. -/

namespace Sys2Proof

/-- An immediate fits its bytes (R110). -/
def Operand.fits (immBytes : Nat) : Operand → Bool
  | .imm v => decide (v.toNat < 256 ^ immBytes)
  | _ => true

/-- An operand that is written is no immediate (R125). -/
def Operand.writable : Operand → Bool
  | .imm _ => false
  | _ => true

/-- The one `off` bit of the control word serves both operands (R107): two register pointers both have an offset byte, or neither
has one. -/
def Operand.offAgrees : Operand → Operand → Bool
  | .ptr _ o₁, .ptr _ o₂ => o₁.isSome == o₂.isSome
  | _, _ => true

/-- The checks on a form. -/
def Form.wellFormed : Form → Bool
  | .zero _ _ _ => true
  | .one o sz _ _ src => src.fits sz.bytes && (!o.writesSrc || src.writable)
  | .two o sz _ src tgt =>
    src.fits ((Op.two o).srcImmBytes sz) && tgt.fits sz.bytes && (!o.writesTgt || tgt.writable) && src.offAgrees tgt

/-- An instruction the encoding of `30_encoding.md` can hold and that R125 does not call invalid. -/
def Instr.wellFormed (i : Instr) : Bool :=
  i.form.wellFormed

end Sys2Proof
end

