-- ==== Sys2Proof/Safety.lean ====
section
/-! DEFINITION. What a run keeps, in the terms the statements use: the invariant, frames, and what it is to complete. -/

namespace Sys2Proof.Machine

/-- `t` is `s` but for cached translations and free draws: what fetches, reads and translations may change (R83, R249). -/
def SameButFills (s t : State) : Prop :=
  t = s.keepFills t

/-- At most one TLB entry for each virtual page (R37, R83). -/
abbrev TlbUnique (l : List TlbEntry) : Prop :=
  l.Pairwise fun a b => a.vpn ≠ b.vpn

/-- What every step keeps: memory is in its canonical form (log 6) and the TLB has at most one entry for each page (R83). -/
abbrev Inv (s : State) : Prop :=
  Memory.wf s.mem = true ∧ TlbUnique s.tlb

/-- What an instruction that completes leaves unchanged: every register but those of `regs`, every byte of memory but those of
`stored` that are RAM, every control flag and register, the platform and the environment; with the MMU disabled the TLB too. The flags `Z` and
`C` and `rip` are not part of it. -/
structure Frame (s t : State) (regs : List RegNo) (stored : List Word) : Prop where
  regs : ∀ r, r ∉ regs → t.reg r = s.reg r
  mem : ∀ a : Nat, (∀ pa ∈ stored, kindAt s.physMap pa = some .ram → pa.toNat ≠ a) → Memory.read t.mem a = Memory.read s.mem a
  flagI : t.flagI = s.flagI
  swapSp : t.swapSp = s.swapSp
  mmuEn : t.mmuEn = s.mmuEn
  pdp : t.pdp = s.pdp
  halted : t.halted = s.halted
  tlb : s.mmuEn = false → t.tlb = s.tlb
  physMap : t.physMap = s.physMap
  busError : t.busError = s.busError
  irq : t.irq = s.irq
  ioLog : t.ioLog = s.ioLog

/-- The register a destination is, if it is one. -/
def Dest.regs : Dest → List RegNo
  | .reg r => [r]
  | .mem _ => []

/-- The physical addresses a destination stores to. -/
def Dest.stored : Dest → List Word
  | .reg _ => []
  | .mem pas => pas

/-- `t` holds the W-bit value `v` where `s` was to be written: the low W bits of a register, whose other bits are as before (R23,
the spec's decision D2, log 25), or the bytes of memory in little-endian order (R61). A byte whose address is not RAM is not
held: the write dropped it, as the platform's `BusError` says (R71, log 9). -/
def Holds (s t : State) (d : Dest) (sz : Size) (v : BitVec sz.bits) : Prop :=
  match d with
  | .reg r => (t.reg r).setWidth sz.bits = v ∧ t.reg r >>> sz.bits = s.reg r >>> sz.bits
  | .mem pas =>
    ∀ p ∈ pas.zip (leBytes sz.bytes v.toNat), kindAt s.physMap p.1 = some .ram → Memory.read t.mem p.1.toNat = p.2

/-- `i` completes in `s`: it writes `v` at `d` and nothing else, leaves the flags `z` and `c`, and goes on at `next` (R26). -/
def Completes (i : Instr) (s : State) (d : Dest) (sz : Size) (v : BitVec sz.bits) (z c : Bool) : Prop :=
  ∃ t, exec i s = .next t ∧ Holds s t d sz v ∧ Frame s t d.regs d.stored ∧ t.flagZ = z ∧ t.flagC = c ∧
    t.rip = s.next i.length

/-- `i` completes in `s` writing nothing but the flags `z` and `c`, and goes on at `next` (R26). -/
def CompletesFlags (i : Instr) (s : State) (z c : Bool) : Prop :=
  ∃ t, exec i s = .next t ∧ Frame s t [] [] ∧ t.flagZ = z ∧ t.flagC = c ∧ t.rip = s.next i.length

/-- Every one of these physical addresses is storage that can be read (R70). -/
def Readable (s : State) (pas : List Word) : Prop :=
  ∀ pa ∈ pas, kindAt s.physMap pa ≠ none

/-- Every one of these physical addresses is RAM (R70). -/
def Writable (s : State) (pas : List Word) : Prop :=
  ∀ pa ∈ pas, kindAt s.physMap pa = some .ram

/-- The `n` bytes of memory from physical address `a` on. -/
def bytesAt (s : State) (a : Word) (n : Nat) : List Byte :=
  Memory.readBytes s.mem (addrs a n)

/-- No request is taken at this boundary (R241) and the CPU is not halted (R36): the next step fetches. -/
def WillFetch (s : State) : Prop :=
  (s.request = none ∨ s.flagI = false) ∧ s.halted = false

/-- What the operands of a two-operand instruction read as: the source `v`, then the target `t` (R119). -/
def ReadsAs (sz : Size) (src tgt : Operand) (s : State) (v t : BitVec sz.bits) : Prop :=
  ∃ s₁ s₂, readOperand sz src s = .ok v s₁ ∧ readOperand sz tgt s₁ = .ok t s₂

/-- The source reads as `v` and the target, which is not read, is written at `d` (R181). -/
def ReadsInto (sz : Size) (src tgt : Operand) (s : State) (v : BitVec sz.bits) (d : Dest) : Prop :=
  ∃ s₁ s₂, readOperand sz src s = .ok v s₁ ∧ operandDest sz tgt s₁ = .ok d s₂

/-- The source reads as `v`, then the target as `t`, and the target is written at `d` (R119, R140). -/
def UpdatesAt (sz : Size) (src tgt : Operand) (s : State) (v t : BitVec sz.bits) (d : Dest) : Prop :=
  ∃ s₁ s₂ s₃, readOperand sz src s = .ok v s₁ ∧ readOperand sz tgt s₁ = .ok t s₂ ∧ operandDest sz tgt s₂ = .ok d s₃

/-- The 32-bit little-endian value at a physical address (R61, R63). -/
def wordAt (s : State) (a : Word) : Word :=
  Memory.read s.mem (a + 3).toNat ++ Memory.read s.mem (a + 2).toNat ++ Memory.read s.mem (a + 1).toNat ++
    Memory.read s.mem a.toNat

/-- The operand an instruction writes (columns "src" and "tgt" of R120). -/
def writtenOperand (i : Instr) : Option Operand :=
  match i.form with
  | .zero _ _ _ => none
  | .one o _ _ _ src => if o.writesSrc then some src else none
  | .two o _ _ _ tgt => if o.writesTgt then some tgt else none

/-- The address just above the frame of a trap taken in `s` (R245, R248). -/
def trapTop (s : State) : Word :=
  if s.swapSp then s.reg resp else s.reg rsp

/-- The bytes of the frame of a trap taken in `s` (R245). -/
def trapSize (s : State) : Nat :=
  if s.swapSp then 13 else 9

/-- The lowest address of that frame (R248). -/
def trapBase (s : State) : Word :=
  trapTop s - BitVec.ofNat 32 (trapSize s)

/-- The frame of R248, in ascending address order. -/
def trapFrame (s : State) (saved w : Word) : List Byte :=
  leBytes 4 w.toNat ++ [flagsByte s] ++ leBytes 4 saved.toNat ++ if s.swapSp then leBytes 4 (s.reg rsp).toNat else []

/-- The physical addresses a push of one size in `s` stores to (R73), through the translation of its bytes; none where it does not
complete. -/
def pushPlace (sz : Size) (s : State) : List Word :=
  match memDest sz (s.reg rsp - BitVec.ofNat 32 sz.bytes) s with
  | .ok d _ => d.stored
  | _ => []

/-- The physical addresses that pushes one after another from `s` on store to, each in the state the one before it leaves. -/
def pushPlaces : List ((sz : Size) × BitVec sz.bits) → State → List Word
  | [], _ => []
  | ⟨sz, v⟩ :: vs, s =>
    pushPlace sz s ++
      match push sz v s with
      | .ok _ t => pushPlaces vs t
      | _ => []

/-- The physical addresses that the entry of a trap taken in `s` through `vector` stores to: those of the pushes of R245, after the
vector is read. -/
def trapPlaces (vector saved w : Word) (s : State) : List Word :=
  match memRead .word vector s with
  | .ok _ s₁ =>
    if s₁.swapSp then
      pushPlaces [⟨.word, s₁.reg rsp⟩, ⟨.word, saved⟩, ⟨.byte, flagsByte s₁⟩, ⟨.word, w⟩] (s₁.setReg rsp (s₁.reg resp))
    else pushPlaces [⟨.word, saved⟩, ⟨.byte, flagsByte s₁⟩, ⟨.word, w⟩] s₁
  | _ => []

/-- With the MMU disabled, a trap through `vector` can be taken: its handler is `h` and is installed (R250), and the stack is RAM
(R70). -/
structure TrapReady (s : State) (vector h : Word) : Prop where
  mmuOff : s.mmuEn = false
  readable : Readable s (addrs vector 4)
  handler : wordAt s vector = h
  installed : h ≠ 0
  stack : Writable s (addrs (trapBase s) (trapSize s))

/-- `t` is `s` after the entry of R245 into the handler `h`: the frame is pushed, `IF`, `SWAP` and `HALTED` are 0, and nothing else
is changed. -/
structure TrapEntered (s t : State) (h saved w : Word) : Prop where
  rip : t.rip = h
  rsp : t.reg rsp = trapBase s
  pushed : bytesAt t (trapBase s) (trapSize s) = trapFrame s saved w
  flagZ : t.flagZ = s.flagZ
  flagC : t.flagC = s.flagC
  rest : Frame (((s.setI false).setSwap false).setHalted false) t [Sys2Proof.rsp] (addrs (trapBase s) (trapSize s))

end Sys2Proof.Machine
end

