-- ==== Sys2Proof/Certificates/Slice0/Obligations.lean ====
section
/-! DEFINITION. The statements for the provers. Many rules of the spec are marked as its own decision ("decision: see
92_eei_decisions.md D<n>"); a statement that rests on one names it, and log 25 says that the model follows them. -/

open Sys2Proof Sys2Proof.Machine

/-! ## Encoding -/

/-- Decode and encode agree (R101 to R111): every well-formed instruction, whatever bytes follow it, decodes to itself and leaves
those bytes. Rests on the spec's decisions D17, D21 and D22 (log 25). -/
def Obligations.DecodeOfEncode : Prop :=
  ∀ (i : Instr) (rest : List Byte), i.wellFormed = true → decode (encode i ++ rest) = .ok (i, rest)

/-- What the decoder gives is well-formed, and its length (R111) is the number of bytes it took. That a written operand is no immediate
(R125) is the spec's decision D21, that one `off` bit serves both pointers (R107) its decision D17 (log 25). -/
def Obligations.DecodedIsWellFormed : Prop :=
  ∀ (bs rest : List Byte) (i : Instr), decode bs = .ok (i, rest) →
    i.wellFormed = true ∧ i.length ≤ bs.length ∧ rest = bs.drop i.length

/-- The fields that select nothing are ignored (R126, the spec's decision D22, log 23): two control words that agree in the other
fields decode alike. -/
def Obligations.IgnoredFields : Prop :=
  ∀ (a b : CtlWord) (op : Op) (bs : List Byte), Op.ofCode a.opcode = some op →
    b.opcode = a.opcode → b.size = a.size → b.cond = a.cond →
    (match op with
      | .zero _ => True
      | .one o => b.src = a.src ∧ (o = .inc ∨ o = .dec → b.tgt = a.tgt) ∧ (a.src = 1 → b.off = a.off)
      | .two _ => b.src = a.src ∧ b.tgt = a.tgt ∧ (a.src = 1 ∨ a.tgt = 1 → b.off = a.off)) →
    decode (b.toBits.extractLsb' 0 8 :: b.toBits.extractLsb' 8 8 :: bs) =
      decode (a.toBits.extractLsb' 0 8 :: a.toBits.extractLsb' 8 8 :: bs)

/-- The control words that are no instruction, from R121 to R125 with the opcode values written out: an undefined opcode, a size the
table does not list, condition code 7, or an immediate in a place the instruction writes. The spec's decisions D18, D19, D21
(log 25). -/
def Obligations.InvalidControlWords : Prop :=
  ∀ w : BitVec 16,
    (∃ e, decodeHead w = .error e) ↔
      w.extractLsb' 8 6 ∈ [0x0E#6, 0x0F, 0x12, 0x1E, 0x1F, 0x2B, 0x2E, 0x2F, 0x30, 0x36, 0x38, 0x3B, 0x3C, 0x3E, 0x3F] ∨
      w.extractLsb' 14 2 = 3#2 ∨
      (w.extractLsb' 14 2 ≠ 2#2 ∧
        w.extractLsb' 8 6 ∈ [0x08#6, 0x0B, 0x0C, 0x0D, 0x18, 0x1B, 0x1C, 0x1D, 0x28, 0x2A, 0x2C, 0x2D, 0x3A, 0x3D]) ∨
      w.extractLsb' 4 3 = 7#3 ∨
      (w.extractLsb' 2 2 = 2#2 ∧
        w.extractLsb' 8 6 ∈ [0x01#6, 0x02, 0x03, 0x04, 0x05, 0x06, 0x0B, 0x13, 0x14, 0x15, 0x16, 0x17, 0x21, 0x22, 0x23, 0x24,
          0x25, 0x27, 0x32, 0x34, 0x35, 0x39]) ∨
      (w.extractLsb' 0 2 = 2#2 ∧ w.extractLsb' 8 6 ∈ [0x11#6, 0x31, 0x33, 0x1A])

/-- A few instructions as the spec writes their bytes out: `cmp r1, r20` (R130), `inc r3, 4` (R143), `mov [r1+8], r2` (R181),
`bts.8 0x80, 7` (R172), `in r0, 0x80000000` (R203), `reti` (R217). -/
def Obligations.SpecWordsDecode : Prop :=
  decode [0x00, 0x87, 20, 1] = .ok (.cmp .word .always (.reg 20) (.reg 1), []) ∧
  decode [0x08, 0x91, 0x03] = .ok (.inc .word .always 2 (.reg 3), []) ∧
  decode [0x84, 0x97, 0x02, 0x01, 0x08] = .ok (.mov .word .always (.reg 2) (.ptr 1 (some 8)), []) ∧
  decode [0x0A, 0x26, 0x07, 0x80] = .ok (.bts .byte .always (.imm 7) (.imm 0x80), []) ∧
  decode [0x02, 0x8B, 0x00, 0x00, 0x00, 0x80, 0x00] = .ok (.ioIn .always (.imm 0x80000000) (.reg 0), []) ∧
  decode [0x00, 0xBA] = .ok (.reti .always, [])

/-- R109: INC and DEC reuse the `tgt` field as a shift count; the amount added or subtracted is 1, 2, 4 or 8; no target operand
bytes follow. That bits 31:W of a register operand are kept is R23, the spec's decision D2 (log 25). -/
def Obligations.AmountOfIncDec : Prop :=
  (∀ (w : BitVec 16) (h : Head), decodeHead w = .ok h → h.op = .one .inc ∨ h.op = .one .dec →
    ∀ (bs rest : List Byte) (i : Instr), decodeBody h bs = .ok (i, rest) →
      ∃ src, i.length = 2 + src.len h.size.bytes ∧
        i = if h.op = .one .inc then .inc h.size h.cond (w.extractLsb' 2 2) src else .dec h.size h.cond (w.extractLsb' 2 2) src) ∧
  ∀ (sz : Size) (c : Cond) (amt : BitVec 2) (src : Operand) (s s₁ s₂ : State) (v : BitVec sz.bits) (d : Dest) (k : Nat),
    Inv s → condHolds c s = true → readOperand sz src s = .ok v s₁ → operandDest sz src s₁ = .ok d s₂ →
    (amt, k) ∈ [(0#2, 1), (1#2, 2), (2#2, 4), (3#2, 8)] →
    (∃ t, exec (.inc sz c amt src) s = .next t ∧ Holds s t d sz (v + BitVec.ofNat sz.bits k)) ∧
    ∃ t, exec (.dec sz c amt src) s = .next t ∧ Holds s t d sz (v - BitVec.ofNat sz.bits k)

/-! ## The step -/

/-- A step runs the decoded instruction: with no request taken, the CPU not halted and the MMU disabled, if the bytes at `rip` are
readable and decode to `i`, the step is `exec i` on the state whose boundary is over (the request list moves on; `rip` is still
`i`'s own address, R116). -/
def Obligations.StepRunsDecoded : Prop :=
  ∀ (s : State) (i : Instr), WillFetch s → s.mmuEn = false → Readable s (addrs s.rip i.length) →
    decode (bytesAt s s.rip i.length) = .ok (i, []) → step s = exec i s.boundary

/-- The same with the MMU enabled or disabled, through the model's fetch: where the fetch gives an instruction, the step executes it
in the state the fetch leaves, which differs in cached translations only; where the fetch raises, the step takes the exception
with no other effect (R117, R249, the spec's decisions D23, D35). -/
def Obligations.StepRunsFetched : Prop :=
  ∀ s : State, WillFetch s →
    (∀ i t, fetch s.boundary = .ok (.run i) t → step s = exec i t ∧ SameButFills s.boundary t ∧ condHolds i.cond s = true) ∧
    ∀ e t, fetch s.boundary = .raised e t →
      step s = takeException e (s.boundary.keepFills t) ∧ SameButFills s.boundary t

/-- R106: the condition codes, and what each tests; a control word with condition code 7 raises `InvalidOpcode` (R124, the
spec's decision D19, log 25); every instruction whose condition does not hold is skipped (R118, the spec's decision D23, log 25). -/
def Obligations.ConditionCodes : Prop :=
  (∀ s : State,
    (∃ c, Cond.ofBits 0 = some c ∧ condHolds c s = true) ∧
    (∃ c, Cond.ofBits 1 = some c ∧ (condHolds c s = true ↔ s.flagZ = true)) ∧
    (∃ c, Cond.ofBits 2 = some c ∧ (condHolds c s = true ↔ s.flagZ = false)) ∧
    (∃ c, Cond.ofBits 3 = some c ∧ (condHolds c s = true ↔ s.flagC = true)) ∧
    (∃ c, Cond.ofBits 4 = some c ∧ (condHolds c s = true ↔ s.flagC = false)) ∧
    (∃ c, Cond.ofBits 5 = some c ∧ (condHolds c s = true ↔ s.flagZ = false ∧ s.flagC = false)) ∧
    ∃ c, Cond.ofBits 6 = some c ∧ (condHolds c s = true ↔ s.flagZ = true ∨ s.flagC = true)) ∧
  (∀ (s t : State) (w : BitVec 16), WillFetch s → memRead .half s.rip s.boundary = .ok w t → w.extractLsb' 4 3 = 7#3 →
    step s = takeException .invalidOpcode (s.boundary.keepFills t)) ∧
  ∀ (i : Instr) (s : State), condHolds i.cond s = false → exec i s = .next (s.setRip (s.next i.length))

/-- R118 (the spec's decision D23, log 25): a false condition skips the whole instruction. Only the control word is fetched, `rip`
advances by the length it gives, and nothing else changes but TLB fills, whatever the operand bytes are; with the MMU disabled and a control word in storage nothing
else at all. -/
def Obligations.FalseConditionSkips : Prop :=
  ∀ (s t : State) (w : BitVec 16) (h : Head), WillFetch s → memRead .half s.rip s.boundary = .ok w t → decodeHead w = .ok h →
    condHolds h.cond s = false →
    step s = .next (t.setRip (s.rip + BitVec.ofNat 32 h.length)) ∧ SameButFills s.boundary t ∧
      (s.mmuEn = false → Readable s (addrs s.rip 2) → t = s.boundary)

/-- Bytes that are no instruction raise `InvalidOpcode` (R108, R121 to R125; the spec's decisions D18 to D21, log 25): on the control
word alone whatever the condition; for a register number above 34 when the condition holds (here with the MMU disabled). The saved
`rip` is that of the instruction (R246, the spec's decision D32). -/
def Obligations.InvalidEncodingTraps : Prop :=
  (∀ (s t : State) (w : BitVec 16) (e : DecodeError), WillFetch s → memRead .half s.rip s.boundary = .ok w t →
    decodeHead w = .error e → step s = takeException .invalidOpcode (s.boundary.keepFills t)) ∧
  ∀ (s : State) (lo hi : Byte) (h : Head), WillFetch s → s.mmuEn = false → Readable s (addrs s.rip 2) →
    bytesAt s s.rip 2 = [lo, hi] → decodeHead (hi ++ lo) = .ok h → condHolds h.cond s = true →
    Readable s (addrs (s.rip + 2) h.bodyLen) → decodeBody h (bytesAt s (s.rip + 2) h.bodyLen) = .error .badRegister →
    step s = takeException .invalidOpcode s.boundary

/-- The boundary before an instruction (R36, R38, R241; the spec's decisions D39, D41, log 25): a request met with `IF` = 1 is taken, also
while halted; met with `IF` = 0 it has no effect on the CPU. Where no interrupt is taken a halted CPU executes nothing and stays
as it is but for the request that passed (U16; log 19: the model stays in its state). -/
def Obligations.BoundaryAndHalt : Prop :=
  (∀ (s : State) (v : Byte) (q : List (Option Byte)), s.irq = some v :: q →
    (s.flagI = true → step s = takeInterrupt v s.boundary) ∧ (s.flagI = false → step s = step (s.setIrq (none :: q)))) ∧
  ∀ s : State, s.halted = true → s.request = none ∨ s.flagI = false → step s = .next s.boundary

/-! ## Traps -/

/-- R32 (bits 7:4 by the spec's decision D6, log 25): the flags byte, and its restoring, which ignores bits 7:4. -/
def Obligations.FlagsByteFormat : Prop :=
  (∀ s : State, (flagsByte s).toNat = s.flagZ.toNat + 2 * s.flagC.toNat + 4 * s.flagI.toNat + 8 * s.swapSp.toNat) ∧
  ∀ (f : Byte) (s : State), flagsByte (restoreFlags f s) = f &&& 0x0F

/-- R244: the vector of interrupt `v` is at `4*v`, that of exception `e` at `0x400 + 4*e`, and a trap reads its handler there with
`MemRead` and goes to it. (That it is not 0 there is not R244's but the spec's decision D38: see `TrapEntryStops`.) -/
def Obligations.VectorAddresses : Prop :=
  (∀ v : Byte, (intVector v).toNat = 4 * v.toNat) ∧
  (∀ va : Word, [Exn.divideByZero, .invalidOpcode, .pageFaultRead va, .pageFaultWrite va, .breakpoint].map Exn.vector =
    [0x400, 0x404, 0x408, 0x40C, 0x410]) ∧
  (∀ (v : Byte) (s t : State), takeInterrupt v s = .next t →
    ∃ h s₁, memRead .word (intVector v) s = .ok h s₁ ∧ t.rip = h) ∧
  ∀ (e : Exn) (s t : State), takeException e s = .next t →
    ∃ h s₁ s₀, (s₀ = s ∨ s₀ = s.drawn) ∧ memRead .word e.vector s₀ = .ok h s₁ ∧ t.rip = h

/-- Taking a trap with the MMU disabled (R230, R241, R245 to R248; the spec's decisions D32 to D37, log 25): the frame, the handler, and
all that stays. For an interrupt the pushed word is the vector number, for a page fault the faulting address, for the other
exceptions some word (U7, log 15). -/
def Obligations.TrapEntryFrame : Prop :=
  (∀ (v : Byte) (s : State) (h : Word), Inv s → TrapReady s (BitVec.ofNat 32 (4 * v.toNat)) h →
    ∃ t, takeInterrupt v s = .next t ∧ TrapEntered s t h s.rip (BitVec.ofNat 32 v.toNat)) ∧
  ∀ (e : Exn) (s : State) (h : Word), Inv s →
    TrapReady s (match e with
      | .divideByZero => 0x400
      | .invalidOpcode => 0x404
      | .pageFaultRead _ => 0x408
      | .pageFaultWrite _ => 0x40C
      | .breakpoint => 0x410) h →
    ∃ t w, takeException e s = .next t ∧ TrapEntered s t h s.rip w ∧
      ∀ va, e = .pageFaultRead va ∨ e = .pageFaultWrite va → w = va

/-- What every trap entry does and leaves alone, with the MMU enabled or disabled (R245, the spec's decisions D36, D37, log 25): control
state, registers, and every byte of memory but those of RAM at the addresses of its pushes, whatever the pushed word `w` is. -/
def Obligations.TrapEntryKeeps : Prop :=
  ∀ (s t : State) (e : Exn) (v : Byte), takeException e s = .next t ∨ takeInterrupt v s = .next t →
    t.flagI = false ∧ t.swapSp = false ∧ t.halted = false ∧ t.flagZ = s.flagZ ∧ t.flagC = s.flagC ∧ t.mmuEn = s.mmuEn ∧
    t.pdp = s.pdp ∧ (∀ r, r ≠ rsp → t.reg r = s.reg r) ∧ t.physMap = s.physMap ∧ t.busError = s.busError ∧
    t.irq = s.irq ∧ t.ioLog = s.ioLog ∧ t.reg rsp = trapBase s ∧ (s.mmuEn = false → t.tlb = s.tlb) ∧
    (takeInterrupt v s = .next t → ∀ (w : Word) (a : Nat),
      (∀ pa ∈ trapPlaces (intVector v) s.rip w s, kindAt s.physMap pa = some .ram → pa.toNat ≠ a) →
      Memory.read t.mem a = Memory.read s.mem a) ∧
    (takeException e s = .next t → ∀ (w : Word) (a : Nat),
      (∀ pa ∈ trapPlaces e.vector s.rip w (if e.operand.isSome then s else s.drawn), kindAt s.physMap pa = some .ram →
        pa.toNat ≠ a) →
      Memory.read t.mem a = Memory.read s.mem a)

/-- Where a trap entry stops: a vector that holds 0 (R250, U4) and a page fault inside the entry (R251, U5); the spec's decision D38
gives these no step (log 17). So a trap that is taken has read a handler that is not 0. -/
def Obligations.TrapEntryStops : Prop :=
  (∀ (vector saved w : Word) (s : State),
    (∀ s₁, memRead .word vector s = .ok (0#32 : Word) s₁ → enter vector saved w s = .fault (.missingHandler vector)) ∧
    (∀ va s₁, memRead .word vector s = .raised (.pageFaultRead va) s₁ → enter vector saved w s = .fault (.pageFaultInEntry va)) ∧
    ∀ (h : Word) (va : Word) (s₁ s₂ : State), memRead .word vector s = .ok h s₁ → h ≠ 0#32 →
      pushFrame saved w s₁ = .raised (.pageFaultWrite va) s₂ → enter vector saved w s = .fault (.pageFaultInEntry va)) ∧
  (∀ (v : Byte) (s t : State), takeInterrupt v s = .next t →
    ∃ h s₁, memRead .word (intVector v) s = .ok h s₁ ∧ h ≠ 0#32 ∧ t.rip = h) ∧
  ∀ (e : Exn) (s t : State), takeException e s = .next t →
    ∃ h s₁ s₀, (s₀ = s ∨ s₀ = s.drawn) ∧ memRead .word e.vector s₀ = .ok h s₁ ∧ h ≠ 0#32 ∧ t.rip = h

/-- R147 to R150: a division by zero raises `DivideByZero` after both operands are read and before anything is written: the
exception is taken in the state before the instruction but for TLB fills (R249, the spec's decision D35, log 25). -/
def Obligations.DivisionByZeroTraps : Prop :=
  ∀ (sz : Size) (c : Cond) (src tgt : Operand) (s s₁ s₂ : State) (t : BitVec sz.bits), condHolds c s = true →
    readOperand sz src s = .ok 0 s₁ → readOperand sz tgt s₁ = .ok t s₂ →
    ∀ i ∈ [Instr.div sz c src tgt, .idiv sz c src tgt, .rem sz c src tgt, .irem sz c src tgt],
      exec i s = takeException .divideByZero (s.keepFills s₂)

/-- A fault on reading an operand is precise (R84, R249, the spec's decision D35, log 25), for every instruction that reads one: the
source first, then the target, the pops of POP and RET and each of the three of RETI (R217) too (the spec's decisions D7,
D46). The exception is taken in the state before the instruction but for TLB fills. -/
def Obligations.ReadFaultIsPrecise : Prop :=
  ∀ (sz : Size) (c : Cond) (amt : BitVec 2) (src tgt : Operand) (s s₁ s₂ u : State) (e : Exn), condHolds c s = true →
    (∀ o : TwoOp, readOperand (if (Op.two o).wordOnly then .word else sz) src s = .raised e u →
      exec (o.toInstr sz c src tgt) s = takeException e (s.keepFills u)) ∧
    (∀ o : OneOp, o ≠ .pop → readOperand (if (Op.one o).wordOnly then .word else sz) src s = .raised e u →
      exec (o.toInstr sz c amt src) s = takeException e (s.keepFills u)) ∧
    (∀ (o : TwoOp) (v : BitVec (if (Op.two o).wordOnly then Size.word else sz).bits), o ∉ [.mov, .movz, .rta, .ioIn] →
      readOperand (if (Op.two o).wordOnly then .word else sz) src s = .ok v s₁ →
      readOperand (if (Op.two o).wordOnly then .word else sz) tgt s₁ = .raised e u →
      exec (o.toInstr sz c src tgt) s = takeException e (s.keepFills u)) ∧
    (memRead sz (s.reg rsp) s = .raised e u → exec (.pop sz c src) s = takeException e (s.keepFills u)) ∧
    (memRead .word (s.reg rsp) s = .raised e u → exec (.ret c) s = takeException e (s.keepFills u)) ∧
    (memRead .byte (s.reg rsp) s = .raised e u → exec (.reti c) s = takeException e (s.keepFills u)) ∧
    ∀ f : Byte, memRead .byte (s.reg rsp) s = .ok f s₁ →
      (memRead .word (s.reg rsp + 1) s₁ = .raised e u → exec (.reti c) s = takeException e (s.keepFills u)) ∧
      ∀ r : Word, memRead .word (s.reg rsp + 1) s₁ = .ok r s₂ → f.getLsbD 3 = true →
        memRead .word (s.reg rsp + 5) s₂ = .raised e u → exec (.reti c) s = takeException e (s.keepFills u)

/-- A fault on the write is precise (R65, R84, R249, the spec's decisions D7, D9, D35, log 25), also where the value to write is open (logs 13
and 14): nothing is written, rsp does not move, the port of IN is not read, and the exception is taken in the state before the
instruction but for TLB fills. -/
def Obligations.WriteFaultIsPrecise : Prop :=
  ∀ (sz : Size) (c : Cond) (amt : BitVec 2) (src tgt : Operand) (s s₁ s₂ u : State) (e : Exn), condHolds c s = true →
    (∀ v t : BitVec sz.bits, readOperand sz src s = .ok v s₁ → readOperand sz tgt s₁ = .ok t s₂ →
      operandDest sz tgt s₂ = .raised e u →
      (∀ i ∈ [Instr.add sz c src tgt, .sub sz c src tgt, .mul sz c src tgt, .imul sz c src tgt, .and sz c src tgt,
        .or sz c src tgt, .xor sz c src tgt, .rol sz c src tgt, .ror sz c src tgt],
        exec i s = takeException e (s.keepFills u)) ∧
      (v.toNat < sz.bits → ∀ i ∈ [Instr.sla sz c src tgt, .sra sz c src tgt, .srl sz c src tgt, .bse sz c src tgt,
        .bcl sz c src tgt], exec i s = takeException e (s.keepFills u)) ∧
      (v ≠ 0 → ∀ i ∈ [Instr.div sz c src tgt, .rem sz c src tgt], exec i s = takeException e (s.keepFills u)) ∧
      (v ≠ 0 → ¬(t.toInt = -2 ^ (sz.bits - 1) ∧ v.toInt = -1) → ∀ i ∈ [Instr.idiv sz c src tgt, .irem sz c src tgt],
        exec i s = takeException e (s.keepFills u))) ∧
    (∀ v t : BitVec sz.bits, readOperand sz src s = .ok v s₁ → readOperand sz tgt s₁ = .ok t s₂ →
      operandDest sz tgt s₂.drawn = .raised e u →
      (sz.bits ≤ v.toNat → ∀ i ∈ [Instr.sla sz c src tgt, .sra sz c src tgt, .srl sz c src tgt, .bse sz c src tgt,
        .bcl sz c src tgt], exec i s = takeException e (s.keepFills u)) ∧
      (t.toInt = -2 ^ (sz.bits - 1) → v.toInt = -1 → ∀ i ∈ [Instr.idiv sz c src tgt, .irem sz c src tgt],
        exec i s = takeException e (s.keepFills u))) ∧
    (∀ v : BitVec sz.bits, readOperand sz src s = .ok v s₁ → operandDest sz tgt s₁ = .raised e u →
      ∀ i ∈ [Instr.mov sz c src tgt, .movz sz c src tgt, .rta sz c src tgt], exec i s = takeException e (s.keepFills u)) ∧
    (∀ v : BitVec sz.bits, readOperand sz src s = .ok v s₁ → operandDest sz src s₁ = .raised e u →
      ∀ i ∈ [Instr.inc sz c amt src, .dec sz c amt src, .not sz c src], exec i s = takeException e (s.keepFills u)) ∧
    (∀ v : BitVec sz.bits, memRead sz (s.reg rsp) s = .ok v s₁ → operandDest sz src s₁ = .raised e u →
      exec (.pop sz c src) s = takeException e (s.keepFills u)) ∧
    (∀ v : BitVec sz.bits, readOperand sz src s = .ok v s₁ →
      (memDest sz (s.reg rsp - BitVec.ofNat 32 sz.bytes) s₁ = .raised e u →
        exec (.push sz c src) s = takeException e (s.keepFills u)) ∧
      (memDest .word (s.reg rsp - 4) s₁ = .raised e u → exec (.rcall sz c src) s = takeException e (s.keepFills u))) ∧
    ∀ v : Word, readOperand .word src s = .ok v s₁ →
      (operandDest .word tgt s₁ = .raised e u → exec (.ioIn c src tgt) s = takeException e (s.keepFills u)) ∧
      (memDest .word (s.reg rsp - 4) s₁ = .raised e u → exec (.call c src) s = takeException e (s.keepFills u))

/-- R256: taking an interrupt, removing the pushed word with `rsp + 4`, and RETI brings back every register, every flag and `rip`,
with or without the switch of stacks, and memory outside the frame is as before. The spec's decisions D7, D36, D46 (log 25). -/
def Obligations.TrapRoundTrip : Prop :=
  ∀ (v : Byte) (s : State) (h : Word), Inv s → TrapReady s (BitVec.ofNat 32 (4 * v.toNat)) h →
    ∃ t u, takeInterrupt v s = .next t ∧ exec (.reti .always) (t.setReg rsp (t.reg rsp + 4)) = .next u ∧
      u.rip = s.rip ∧ u.flagZ = s.flagZ ∧ u.flagC = s.flagC ∧
      Frame (s.setHalted false) u [] (addrs (trapBase s) (trapSize s))

/-! ## Memory and translation -/

/-- What an operand reads as and where it is written, form by form, with the MMU disabled (R112 to R116; the spec's decisions D17, D21,
D24, D25, log 25): `N` little-endian bytes at the effective address for the two memory forms; an immediate cannot be written (R125,
log 21). -/
def Obligations.OperandForms : Prop :=
  ∀ (sz : Size) (s : State), s.mmuEn = false →
    (∀ r, readOperand sz (.reg r) s = .ok ((s.reg r).extractLsb' 0 sz.bits) s ∧ operandDest sz (.reg r) s = .ok (.reg r) s) ∧
    (∀ v : Word, readOperand sz (.imm v) s = .ok (v.extractLsb' 0 sz.bits) s ∧
      operandDest sz (.imm v) s = .raised .invalidOpcode s) ∧
    ∀ (o : Operand) (a : Word),
      (match o with
        | .ptr r none => a = s.reg r
        | .ptr r (some b) => a = s.reg r + BitVec.ofNat 32 b.toNat
        | .immPtr p => a = p
        | _ => False) →
      (Readable s (addrs a sz.bytes) → readOperand sz o s = .ok ((wordAt s a).extractLsb' 0 sz.bits) s) ∧
      (Writable s (addrs a sz.bytes) → operandDest sz o s = .ok (.mem (addrs a sz.bytes)) s)

/-- What an access outside the memory map does, with the MMU disabled (R71, U11, D10): the platform's `BusError` decides it. A read of
an address without memory, a write of one and a write of ROM each have no step where it says so. Otherwise the access completes:
a read gives memory's bytes where there is memory and bytes that are not fixed elsewhere, a write stores the bytes that are RAM and
changes nothing else (what happens where the access goes on is the model's choice, log 9). A page fault needs the MMU (R232). -/
def Obligations.AccessStops : Prop :=
  ∀ (sz : Size) (a : Word) (s : State),
    (s.mmuEn = false → s.busError.readNone = .noStep → ¬Readable s (addrs a sz.bytes) →
      ∃ pa ∈ addrs a sz.bytes, kindAt s.physMap pa = none ∧ memRead sz a s = .fault (.noMemory pa)) ∧
    (s.mmuEn = false → s.busError.readNone = .goesOn →
      ∃ (bs : List Byte) (t : State), memRead sz a s = .ok (BitVec.ofNat sz.bits (leNat bs)) t ∧ bs.length = sz.bytes ∧
        SameButFills s t ∧ t.tlb = s.tlb ∧
        ∀ p ∈ (addrs a sz.bytes).zip bs, kindAt s.physMap p.1 ≠ none → p.2 = Memory.read s.mem p.1.toNat) ∧
    (s.mmuEn = false →
      (∃ pa ∈ addrs a sz.bytes, (kindAt s.physMap pa = none ∧ s.busError.writeNone = .noStep) ∨
        (kindAt s.physMap pa = some .rom ∧ s.busError.writeRom = .noStep)) →
      ∃ pa ∈ addrs a sz.bytes, (kindAt s.physMap pa = none ∧ memDest sz a s = .fault (.noMemory pa)) ∨
        (kindAt s.physMap pa = some .rom ∧ memDest sz a s = .fault (.romWrite pa))) ∧
    (s.mmuEn = false → Inv s →
      (∀ pa ∈ addrs a sz.bytes, (kindAt s.physMap pa = none → s.busError.writeNone = .goesOn) ∧
        (kindAt s.physMap pa = some .rom → s.busError.writeRom = .goesOn)) →
      memDest sz a s = .ok (.mem (addrs a sz.bytes)) s ∧
      ∀ v : BitVec sz.bits, Holds s (s.store (.mem (addrs a sz.bytes)) sz v) (.mem (addrs a sz.bytes)) sz v ∧
        Frame s (s.store (.mem (addrs a sz.bytes)) sz v) [] (addrs a sz.bytes)) ∧
    (∀ e t, memRead sz a s = .raised e t → s.mmuEn = true ∧ ∃ va, e = .pageFaultRead va) ∧
    ∀ e t, memDest sz a s = .raised e t → s.mmuEn = true ∧ ∃ va, e = .pageFaultWrite va

/-- R61, R62: a value stored in RAM lies in memory low byte first, and a narrow read of it sees the bytes of R61. -/
def Obligations.LittleEndianStores : Prop :=
  ∀ (s : State) (a v : Word), Inv s → s.mmuEn = false → Writable s (addrs a 4) →
    (∀ n < 4, Memory.read (s.store (.mem (addrs a 4)) .word v).mem (a + BitVec.ofNat 32 n).toNat = v.extractLsb' (8 * n) 8) ∧
    memRead .word a (s.store (.mem (addrs a 4)) .word v) = .ok v (s.store (.mem (addrs a 4)) .word v) ∧
    memRead .half a (s.store (.mem (addrs a 4)) .word v) = .ok (v.extractLsb' 0 16) (s.store (.mem (addrs a 4)) .word v) ∧
    memRead .byte (a + 3) (s.store (.mem (addrs a 4)) .word v) = .ok (v.extractLsb' 24 8) (s.store (.mem (addrs a 4)) .word v)

/-- R80, R83 (the spec's decisions D12, D14, log 25): a translation that succeeds with the MMU enabled uses a TLB entry of the page or
the walk of the tables, keeps the low 12 bits, and for a write finds the page writable. It succeeds where the walk finds the page
and, for a write, neither the walk nor an entry held for the page says that it is not writable. Whether it succeeds or faults,
nothing changes but the TLB, which then holds only what it held and what the walk found: a walk that fails adds nothing. -/
def Obligations.TranslationFollowsTables : Prop :=
  ∀ (kind : AccessKind) (va : Word) (s : State), s.mmuEn = true →
    (∀ (pa : Word) (t : State), translate kind va s = .ok pa t →
      SameButFills s t ∧ (∀ e ∈ t.tlb, e ∈ s.tlb ∨ walk s va = .ok (some e)) ∧
      ∃ e : TlbEntry, (e ∈ s.tlb ∨ walk s va = .ok (some e)) ∧ e.vpn = va.extractLsb' 12 20 ∧
        (kind = .write → e.writable = true) ∧ pa = e.ppn ++ va.extractLsb' 0 12) ∧
    (∀ (ex : Exn) (t : State), translate kind va s = .raised ex t →
      SameButFills s t ∧ ∀ e ∈ t.tlb, e ∈ s.tlb ∨ walk s va = .ok (some e)) ∧
    ∀ e, walk s va = .ok (some e) →
      (kind = .write → e.writable = true ∧ ∀ e' ∈ s.tlb, e'.vpn = vpnOf va → e'.writable = true) →
      ∃ pa t, translate kind va s = .ok pa t

/-- R81, R82 (the spec's decision D15, log 25): the walk reads the directory entry and the table entry where the formula says, stops
at an entry that is not present, and takes page and writability from the table entry. -/
def Obligations.WalkReadsTables : Prop :=
  ∀ (s : State) (va pde pte : Word), Readable s (addrs (s.pdp + BitVec.ofNat 32 (4 * (va.toNat / 2 ^ 22))) 4) →
    pde = wordAt s (s.pdp + BitVec.ofNat 32 (4 * (va.toNat / 2 ^ 22))) →
    (pde.getLsbD 0 = false → walk s va = .ok none) ∧
    (pde.getLsbD 0 = true →
      Readable s (addrs (BitVec.ofNat 32 (pde.toNat / 4096 * 4096 + 4 * (va.toNat / 4096 % 1024))) 4) →
      pte = wordAt s (BitVec.ofNat 32 (pde.toNat / 4096 * 4096 + 4 * (va.toNat / 4096 % 1024))) →
      walk s va =
        if pte.getLsbD 0 then .ok (some ⟨va.extractLsb' 12 20, pte.extractLsb' 12 20, pte.getLsbD 1⟩) else .ok none)

/-- R80, R83, R85, R247 (the spec's decisions D9, D12, D14, D33, log 25): with no TLB entry for the page, a page that is not present faults,
a page that is not writable faults on a write, with the byte address as the operand. A write to a page with a TLB entry that is not
writable faults so too, unless that entry is lost and a walk finds the page writable (log 12), or the walk itself stops. An access
whose first page faults reports its address; a read or write whose second page faults reports the first byte of that page. -/
def Obligations.PageFaultAddress : Prop :=
  ∀ (s : State) (va : Word), s.mmuEn = true →
    (∀ kind, (∀ e ∈ s.tlb, e.vpn ≠ vpnOf va) → walk s va = .ok none → ∃ t, translate kind va s = .raised (pageFault kind va) t) ∧
    (∀ e, (∀ e' ∈ s.tlb, e'.vpn ≠ vpnOf va) → walk s va = .ok (some e) → e.writable = false →
      ∃ t, translate .write va s = .raised (.pageFaultWrite va) t) ∧
    (∀ e ∈ s.tlb, Inv s → e.vpn = vpnOf va → e.writable = false →
      (∃ t, translate .write va s = .raised (.pageFaultWrite va) t) ∨
      (∃ e' t, walk s va = .ok (some e') ∧ e'.writable = true ∧ translate .write va s = .ok (e'.ppn ++ va.extractLsb' 0 12) t) ∨
      ∃ f, walk s va = .error f ∧ translate .write va s = .fault f) ∧
    ∀ (sz : Size) (t u : State) (ex : Exn),
      (translate .read va s = .raised ex u → memRead sz va s = .raised (.pageFaultRead va) u) ∧
      (translate .write va s = .raised ex u → memDest sz va s = .raised (.pageFaultWrite va) u) ∧
      ∀ (pa : Word) (k : Nat), va.toNat % 4096 + k = 4096 → k < sz.bytes →
        (translate .read va s = .ok pa t → translate .read (va + BitVec.ofNat 32 k) t = .raised ex u →
          memRead sz va s = .raised (.pageFaultRead (va + BitVec.ofNat 32 k)) u) ∧
        (translate .write va s = .ok pa t → translate .write (va + BitVec.ofNat 32 k) t = .raised ex u →
          memDest sz va s = .raised (.pageFaultWrite (va + BitVec.ofNat 32 k)) u)

/-- R93: after TLB the TLB is empty and `PDP` is the source value; after FLP the TLB has no entry for the page of the source value;
no other instruction is for cache maintenance (with the MMU disabled, where no translation fills the TLB, no other instruction
changes it). That `Z` and `C` are unchanged is the spec's decision D4, and FLP's operand D44 (log 25); the
rest of what TLB and FLP do is R225 and R226. -/
def Obligations.TlbMaintenance : Prop :=
  (∀ (c : Cond) (src : Operand) (s s₁ : State) (v : Word), condHolds c s = true → readOperand .word src s = .ok v s₁ →
    (∃ t, exec (.tlb c src) s = .next t ∧ t.tlb = [] ∧ t.pdp = v ∧ Frame ((s.setTlb []).setPdp v) t [] [] ∧
      t.flagZ = s.flagZ ∧ t.flagC = s.flagC ∧ t.rip = s.next (Instr.tlb c src).length) ∧
    ∃ t, exec (.flp c src) s = .next t ∧ (∀ e ∈ t.tlb, e.vpn ≠ v.extractLsb' 12 20) ∧
      Frame (s.setTlb (s.tlb.filter fun e => e.vpn != v.extractLsb' 12 20)) t [] [] ∧ t.flagZ = s.flagZ ∧ t.flagC = s.flagC ∧
      t.rip = s.next (Instr.flp c src).length) ∧
  ∀ (i : Instr) (a b : State), i.op ≠ .one .tlb → i.op ≠ .one .flp → a.mmuEn = false → exec i a = .next b → b.tlb = a.tlb

/-! ## What every instruction keeps -/

/-- Every step keeps the invariant: memory in its canonical form (log 6), at most one TLB entry for each page (R37, R83, the spec's
decision D12). -/
def Obligations.StepKeepsInvariant : Prop :=
  ∀ s t : State, Inv s → step s = .next t → Inv t

/-- The state after reset has the invariant and the values R40 decides (`IF`, `SWAP`, `MMU_EN`, `HALTED` are 0, the spec's decision
D43). -/
def Obligations.ResetState : Prop :=
  Inv State.reset ∧ State.reset.flagI = false ∧ State.reset.swapSp = false ∧ State.reset.mmuEn = false ∧
    State.reset.halted = false

/-- No step changes a byte that is not RAM, nor the memory map, nor what an access outside it does (R65, R70, R71, the spec's
decision D10, log 25): there, a write has no step or is dropped (log 9). -/
def Obligations.OnlyRamChanges : Prop :=
  ∀ s t : State, step s = .next t →
    t.physMap = s.physMap ∧ t.busError = s.busError ∧
      ∀ pa : Word, kindAt s.physMap pa ≠ some .ram → Memory.read t.mem pa.toNat = Memory.read s.mem pa.toNat

/-- R24 and the columns "src" and "tgt" of R120 (the spec's reading, and its decisions D28, D37, log 25): an instruction changes a
register only as the operand it writes, as rsp, or as the counter of LOOP and RLOOP; rfp and resp are never changed
implicitly, not by a trap either. -/
def Obligations.RegistersWritten : Prop :=
  ∀ (i : Instr) (s t : State) (r : RegNo), exec i s = .next t → r ≠ rsp → writtenOperand i ≠ some (.reg r) →
    ¬(r = 31 ∧ (i.op = .one .loop ∨ i.op = .one .rloop)) → t.reg r = s.reg r

/-- The rows of R41 that say "unchanged" (the spec's decision D4, log 25), also where the instruction takes a trap: these instructions
leave `Z` and `C`, or `C` alone. -/
def Obligations.FlagsUnchanged : Prop :=
  ∀ (i : Instr) (s t : State), exec i s = .next t →
    (i.op ∈ [.two .bse, .two .bcl, .two .mov, .two .movz, .two .rta, .one .push, .one .pop, .two .ioIn, .two .ioOut, .one .jmp,
        .one .rjmp, .one .call, .one .rcall, .zero .ret, .one .loop, .one .rloop, .zero .nop, .zero .halt, .zero .brk, .zero .ise,
        .zero .icl, .zero .mse, .zero .mcl, .one .int, .one .tlb, .one .flp] → t.flagZ = s.flagZ ∧ t.flagC = s.flagC) ∧
    (i.op ∈ [.two .div, .two .rem, .two .idiv, .two .irem, .two .and, .two .or, .two .xor, .one .not, .two .sla, .two .sra, .two .srl,
        .two .rol, .two .ror, .two .bts] → t.flagC = s.flagC)

/-- The writers of the control state (R30, R31, R33, R34, R35, R36, R68; the spec's decisions D11, D31, D37, D41, log 25): only MSE
and MCL change `MMU_EN`, only TLB `PDP`; only ISE and RETI can set `IF`; only RETI can set `SWAP`; only HALT can set `HALTED`; only
IN and OUT reach the I/O bus, whose record is the model's (log 10). That no instruction changes the memory map (log 7), what an access
outside it does (log 9) or the request list (log 8) is the model's choice. -/
def Obligations.ControlStateWriters : Prop :=
  ∀ (i : Instr) (s t : State), exec i s = .next t →
    (i.op ≠ .zero .mse → i.op ≠ .zero .mcl → t.mmuEn = s.mmuEn) ∧
    (i.op ≠ .one .tlb → t.pdp = s.pdp) ∧
    (i.op ≠ .zero .ise → i.op ≠ .zero .reti → t.flagI = true → s.flagI = true) ∧
    (i.op ≠ .zero .reti → t.swapSp = true → s.swapSp = true) ∧
    (i.op ≠ .zero .halt → t.halted = true → s.halted = true) ∧
    (i.op ≠ .two .ioIn → i.op ≠ .two .ioOut → t.ioLog = s.ioLog) ∧
    t.physMap = s.physMap ∧ t.busError = s.busError ∧ t.irq = s.irq

/-! ## Arithmetic -/

/-- ADD and SUB (R141, R142; flags by the spec's decisions D4, D5, log 25). -/
def Obligations.AddSubResults : Prop :=
  ∀ (sz : Size) (c : Cond) (src tgt : Operand) (s : State) (v t : BitVec sz.bits) (d : Dest), Inv s → condHolds c s = true →
    UpdatesAt sz src tgt s v t d →
    Completes (.add sz c src tgt) s d sz (BitVec.ofNat sz.bits (t.toNat + v.toNat))
      (decide ((t.toNat + v.toNat) % 2 ^ sz.bits = 0)) (decide (2 ^ sz.bits ≤ t.toNat + v.toNat)) ∧
    Completes (.sub sz c src tgt) s d sz (BitVec.ofInt sz.bits (t.toNat - v.toNat)) (decide (t = v)) (decide (t.toNat < v.toNat))

/-- INC and DEC (R143, R144; flags by the spec's decision D4, log 25), by the amount 1, 2, 4 or 8 of R109. -/
def Obligations.IncDecResults : Prop :=
  ∀ (sz : Size) (c : Cond) (amt : BitVec 2) (src : Operand) (s s₁ s₂ : State) (v : BitVec sz.bits) (d : Dest), Inv s →
    condHolds c s = true → readOperand sz src s = .ok v s₁ → operandDest sz src s₁ = .ok d s₂ →
    Completes (.inc sz c amt src) s d sz (BitVec.ofNat sz.bits (v.toNat + 2 ^ amt.toNat))
      (decide ((v.toNat + 2 ^ amt.toNat) % 2 ^ sz.bits = 0)) (decide (2 ^ sz.bits ≤ v.toNat + 2 ^ amt.toNat)) ∧
    Completes (.dec sz c amt src) s d sz (BitVec.ofInt sz.bits (v.toNat - (2 ^ amt.toNat : Nat)))
      (decide (v.toNat = 2 ^ amt.toNat)) (decide (v.toNat < 2 ^ amt.toNat))

/-- MUL and IMUL (R145, R146; flags by the spec's decision D4, log 25): the low W bits of the exact product, and `C` when it does not
fit, unsigned or signed. -/
def Obligations.MultiplyResults : Prop :=
  ∀ (sz : Size) (c : Cond) (src tgt : Operand) (s : State) (v t : BitVec sz.bits) (d : Dest), Inv s → condHolds c s = true →
    UpdatesAt sz src tgt s v t d →
    Completes (.mul sz c src tgt) s d sz (BitVec.ofNat sz.bits (t.toNat * v.toNat))
      (decide (t.toNat * v.toNat % 2 ^ sz.bits = 0)) (decide (2 ^ sz.bits ≤ t.toNat * v.toNat)) ∧
    Completes (.imul sz c src tgt) s d sz (BitVec.ofNat sz.bits (t.toNat * v.toNat))
      (decide (t.toNat * v.toNat % 2 ^ sz.bits = 0))
      (decide (t.toInt * v.toInt < -2 ^ (sz.bits - 1) ∨ t.toInt * v.toInt > 2 ^ (sz.bits - 1) - 1))

/-- DIV and REM by a source that is not 0 (R147, R149; flags by the spec's decision D4, log 25). -/
def Obligations.UnsignedDivisionResults : Prop :=
  ∀ (sz : Size) (c : Cond) (src tgt : Operand) (s : State) (v t : BitVec sz.bits) (d : Dest), Inv s → condHolds c s = true →
    UpdatesAt sz src tgt s v t d → v ≠ 0 →
    ∃ q r : BitVec sz.bits, t.toNat = v.toNat * q.toNat + r.toNat ∧ r.toNat < v.toNat ∧
      Completes (.div sz c src tgt) s d sz q (decide (q = 0)) s.flagC ∧
      Completes (.rem sz c src tgt) s d sz r (decide (r = 0)) s.flagC

/-- IDIV and IREM by a source that is not 0 (R148, R150, the spec's decision D27; flags by its decision D4, log 25), but for the most
negative number by -1: the quotient rounds toward zero, the remainder has the sign of the dividend. -/
def Obligations.SignedDivisionResults : Prop :=
  ∀ (sz : Size) (c : Cond) (src tgt : Operand) (s : State) (v t : BitVec sz.bits) (d : Dest), Inv s → condHolds c s = true →
    UpdatesAt sz src tgt s v t d → v ≠ 0 → ¬(t.toInt = -2 ^ (sz.bits - 1) ∧ v.toInt = -1) →
    ∃ q r : BitVec sz.bits, t.toInt = v.toInt * q.toInt + r.toInt ∧ |r.toInt| < |v.toInt| ∧
      (r.toInt ≠ 0 → r.toInt.sign = t.toInt.sign) ∧
      Completes (.idiv sz c src tgt) s d sz q (decide (q = 0)) s.flagC ∧
      Completes (.irem sz c src tgt) s d sz r (decide (r = 0)) s.flagC

/-! ## Logic, shifts and bits -/

/-- AND, OR, XOR and NOT (R161 to R164; flags by the spec's decision D4, log 25), bit by bit. -/
def Obligations.LogicResults : Prop :=
  (∀ (sz : Size) (c : Cond) (src tgt : Operand) (s : State) (v t : BitVec sz.bits) (d : Dest), Inv s → condHolds c s = true →
    UpdatesAt sz src tgt s v t d →
    ∃ a o x : BitVec sz.bits,
      (∀ n < sz.bits, a.getLsbD n = (t.getLsbD n && v.getLsbD n) ∧ o.getLsbD n = (t.getLsbD n || v.getLsbD n) ∧
        x.getLsbD n = (t.getLsbD n != v.getLsbD n)) ∧
      Completes (.and sz c src tgt) s d sz a (decide (a = 0)) s.flagC ∧
      Completes (.or sz c src tgt) s d sz o (decide (o = 0)) s.flagC ∧
      Completes (.xor sz c src tgt) s d sz x (decide (x = 0)) s.flagC) ∧
  ∀ (sz : Size) (c : Cond) (src : Operand) (s s₁ s₂ : State) (v : BitVec sz.bits) (d : Dest), Inv s → condHolds c s = true →
    readOperand sz src s = .ok v s₁ → operandDest sz src s₁ = .ok d s₂ →
    ∃ n : BitVec sz.bits, (∀ k < sz.bits, n.getLsbD k = !v.getLsbD k) ∧
      Completes (.not sz c src) s d sz n (decide (n = 0)) s.flagC

/-- SLA, SRA and SRL by a count below W (R165, R166, R167; flags by the spec's decision D4, log 25). -/
def Obligations.ShiftResults : Prop :=
  ∀ (sz : Size) (c : Cond) (src tgt : Operand) (s : State) (v t : BitVec sz.bits) (d : Dest), Inv s → condHolds c s = true →
    UpdatesAt sz src tgt s v t d → v.toNat < sz.bits →
    Completes (.sla sz c src tgt) s d sz (BitVec.ofNat sz.bits (t.toNat * 2 ^ v.toNat))
      (decide (t.toNat * 2 ^ v.toNat % 2 ^ sz.bits = 0)) s.flagC ∧
    Completes (.srl sz c src tgt) s d sz (BitVec.ofNat sz.bits (t.toNat / 2 ^ v.toNat))
      (decide (t.toNat / 2 ^ v.toNat = 0)) s.flagC ∧
    Completes (.sra sz c src tgt) s d sz (BitVec.ofInt sz.bits (t.toInt / 2 ^ v.toNat))
      (decide (t.toInt / 2 ^ v.toNat = 0)) s.flagC

/-- ROL and ROR (R168, R169): every bit moves by the count modulo W, round the W-bit operand. That the count is taken modulo W is the
spec's decision D25 (R173), the flags are its decision D4 (log 25). -/
def Obligations.RotateResults : Prop :=
  ∀ (sz : Size) (c : Cond) (src tgt : Operand) (s : State) (v t : BitVec sz.bits) (d : Dest), Inv s → condHolds c s = true →
    UpdatesAt sz src tgt s v t d →
    ∃ l r : BitVec sz.bits,
      (∀ n < sz.bits, l.getLsbD ((n + v.toNat) % sz.bits) = t.getLsbD n ∧ r.getLsbD n = t.getLsbD ((n + v.toNat) % sz.bits)) ∧
      Completes (.rol sz c src tgt) s d sz l (decide (t = 0)) s.flagC ∧
      Completes (.ror sz c src tgt) s d sz r (decide (t = 0)) s.flagC

/-- BSE, BCL and BTS with a bit number below W (R170, R171, R172; what they do to the flags is the spec's decision D4, log 25): BSE and
BCL write the bit and no flag; BTS writes nothing but `Z`, which is 1 when the bit is 0. -/
def Obligations.BitResults : Prop :=
  ∀ (sz : Size) (c : Cond) (src tgt : Operand) (s : State) (v t : BitVec sz.bits), condHolds c s = true → v.toNat < sz.bits →
    (ReadsAs sz src tgt s v t → CompletesFlags (.bts sz c src tgt) s (!t.getLsbD v.toNat) s.flagC) ∧
    ∀ d, Inv s → UpdatesAt sz src tgt s v t d →
      ∃ one zero : BitVec sz.bits,
        (∀ n < sz.bits, one.getLsbD n = (t.getLsbD n || decide (n = v.toNat)) ∧
          zero.getLsbD n = (t.getLsbD n && decide (n ≠ v.toNat))) ∧
        Completes (.bse sz c src tgt) s d sz one s.flagZ s.flagC ∧
        Completes (.bcl sz c src tgt) s d sz zero s.flagZ s.flagC

/-- The instructions whose result the spec does not fix: the shifts and bit operations with a count or bit number of W or more (R173,
the spec's decision D25, U2, log 13), IDIV and IREM of the most negative number by -1 (R148, R150, U3, log 14). Each completes
with some result of its own (log 11); `Z` follows the result where the instruction writes `Z` (log 26; for BTS it is open), and
nothing else is open; which flags are written is the spec's decision D4 (log 25). -/
def Obligations.OpenResultsComplete : Prop :=
  ∀ (sz : Size) (c : Cond) (src tgt : Operand) (s s₁ s₂ s₃ : State) (v t : BitVec sz.bits) (d : Dest), Inv s →
    condHolds c s = true → readOperand sz src s = .ok v s₁ → readOperand sz tgt s₁ = .ok t s₂ →
    (sz.bits ≤ v.toNat → ∃ z, CompletesFlags (.bts sz c src tgt) s z s.flagC) ∧
    (sz.bits ≤ v.toNat → operandDest sz tgt s₂.drawn = .ok d s₃ →
      (∀ i ∈ [Instr.sla sz c src tgt, .sra sz c src tgt, .srl sz c src tgt],
        ∃ r : BitVec sz.bits, Completes i s d sz r (decide (r = 0)) s.flagC) ∧
      ∀ i ∈ [Instr.bse sz c src tgt, .bcl sz c src tgt], ∃ r : BitVec sz.bits, Completes i s d sz r s.flagZ s.flagC) ∧
    (t.toInt = -2 ^ (sz.bits - 1) → v.toInt = -1 → operandDest sz tgt s₂.drawn = .ok d s₃ →
      ∀ i ∈ [Instr.idiv sz c src tgt, .irem sz c src tgt],
        ∃ r : BitVec sz.bits, Completes i s d sz r (decide (r = 0)) s.flagC)

/-! ## Moves, compares, addresses -/

/-- MOV and MOVZ (R181, R182; no flag by the spec's decision D4, MOVZ to memory by D29, log 25): the source value is stored; MOVZ to a
register writes all 32 bits, and bits 31:W become 0. -/
def Obligations.MoveResults : Prop :=
  ∀ (sz : Size) (c : Cond) (src tgt : Operand) (s : State) (v : BitVec sz.bits) (d : Dest), Inv s → condHolds c s = true →
    ReadsInto sz src tgt s v d →
    Completes (.mov sz c src tgt) s d sz v s.flagZ s.flagC ∧
    (match tgt with
      | .reg r => ∃ t, exec (.movz sz c src tgt) s = .next t ∧ (t.reg r).toNat = v.toNat ∧ Frame s t [r] [] ∧
          t.flagZ = s.flagZ ∧ t.flagC = s.flagC ∧ t.rip = s.next (Instr.movz sz c src tgt).length
      | _ => Completes (.movz sz c src tgt) s d sz v s.flagZ s.flagC)

/-- CMP and ICMP (R183, R184; the orientation by the spec's decision D5, log 25): `Z` is equality, `C` is "target less than source",
unsigned or signed; nothing else is written. -/
def Obligations.CompareResults : Prop :=
  ∀ (sz : Size) (c : Cond) (src tgt : Operand) (s : State) (v t : BitVec sz.bits), condHolds c s = true →
    ReadsAs sz src tgt s v t →
    CompletesFlags (.cmp sz c src tgt) s (decide (t.toNat = v.toNat)) (decide (t.toNat < v.toNat)) ∧
    CompletesFlags (.icmp sz c src tgt) s (decide (t.toInt = v.toInt)) (decide (t.toInt < v.toInt))

/-! ## Control transfers -/

/-- JMP (R191): `rip` becomes the source value. -/
def Obligations.JumpGoesToSource : Prop :=
  ∀ (c : Cond) (src : Operand) (s s₁ : State) (v : Word), condHolds c s = true → readOperand .word src s = .ok v s₁ →
    ∃ t, exec (.jmp c src) s = .next t ∧ t.rip = v ∧ Frame s t [] [] ∧ t.flagZ = s.flagZ ∧ t.flagC = s.flagC

/-- RTA and RJMP (R185, R192; the spec's decisions D3, D4, D26, D47, log 25): the instruction's own address plus the signed source. RTA
writes its low W bits to the target, RJMP goes there. -/
def Obligations.RelativeAddresses : Prop :=
  ∀ (sz : Size) (c : Cond) (src tgt : Operand) (s : State) (v : BitVec sz.bits), condHolds c s = true →
    (∀ d, Inv s → ReadsInto sz src tgt s v d →
      Completes (.rta sz c src tgt) s d sz (BitVec.ofInt sz.bits (s.rip.toNat + v.toInt)) s.flagZ s.flagC) ∧
    ∀ s₁, readOperand sz src s = .ok v s₁ →
      ∃ t, exec (.rjmp sz c src) s = .next t ∧ t.rip = BitVec.ofInt 32 (s.rip.toNat + v.toInt) ∧ Frame s t [] [] ∧
        t.flagZ = s.flagZ ∧ t.flagC = s.flagC

/-- CALL and RCALL (R193, R194; the spec's decisions D3, D7, D26, log 25): four bytes of return address are pushed, whatever the size
of the displacement, and the target is read before. Pushed bytes that are not RAM are dropped where the push goes on (log 9). -/
def Obligations.CallResults : Prop :=
  ∀ (sz : Size) (c : Cond) (src : Operand) (s : State), Inv s → condHolds c s = true →
    (∀ (s₁ s₂ : State) (v : Word) (pas : List Word), readOperand .word src s = .ok v s₁ →
      memDest .word (s.reg rsp - 4) s₁ = .ok (.mem pas) s₂ →
      ∃ t, exec (.call c src) s = .next t ∧ t.rip = v ∧ t.reg rsp = s.reg rsp - 4 ∧
        Holds s t (.mem pas) .word (s.next (Instr.call c src).length) ∧ Frame s t [rsp] pas ∧
        t.flagZ = s.flagZ ∧ t.flagC = s.flagC) ∧
    ∀ (s₁ s₂ : State) (v : BitVec sz.bits) (pas : List Word), readOperand sz src s = .ok v s₁ →
      memDest .word (s.reg rsp - 4) s₁ = .ok (.mem pas) s₂ →
      ∃ t, exec (.rcall sz c src) s = .next t ∧ t.rip = BitVec.ofInt 32 (s.rip.toNat + v.toInt) ∧ t.reg rsp = s.reg rsp - 4 ∧
        Holds s t (.mem pas) .word (s.next (Instr.rcall sz c src).length) ∧ Frame s t [rsp] pas ∧
        t.flagZ = s.flagZ ∧ t.flagC = s.flagC

/-- RET (R195; the stack convention is the spec's decision D7, log 25): `rip` is the word at rsp, and rsp moves up by 4. -/
def Obligations.ReturnPops : Prop :=
  ∀ (c : Cond) (s s₁ : State) (v : Word), condHolds c s = true → memRead .word (s.reg rsp) s = .ok v s₁ →
    ∃ t, exec (.ret c) s = .next t ∧ t.rip = v ∧ t.reg rsp = s.reg rsp + 4 ∧ Frame s t [rsp] [] ∧ t.flagZ = s.flagZ ∧
      t.flagC = s.flagC

/-- LOOP and RLOOP (R196, R197; the semantics is the spec's decision D28, no flag by D4, and the counter r31 is taken from general knowledge, logs 16
and 25): all 32 bits of r31 are decremented, and the jump is taken while they are not 0. -/
def Obligations.LoopCountsDown : Prop :=
  ∀ (sz : Size) (c : Cond) (src : Operand) (s s₁ : State), condHolds c s = true →
    (∀ v : Word, readOperand .word src s = .ok v s₁ →
      ∃ t, exec (.loop c src) s = .next t ∧ t.reg 31 = s.reg 31 - 1 ∧
        t.rip = (if s.reg 31 = 1 then s.next (Instr.loop c src).length else v) ∧ Frame s t [31] [] ∧ t.flagZ = s.flagZ ∧
        t.flagC = s.flagC) ∧
    ∀ v : BitVec sz.bits, readOperand sz src s = .ok v s₁ →
      ∃ t, exec (.rloop sz c src) s = .next t ∧ t.reg 31 = s.reg 31 - 1 ∧
        t.rip = (if s.reg 31 = 1 then s.next (Instr.rloop sz c src).length else BitVec.ofInt 32 (s.rip.toNat + v.toInt)) ∧
        Frame s t [31] [] ∧ t.flagZ = s.flagZ ∧ t.flagC = s.flagC

/-! ## Stack and I/O -/

/-- PUSH and POP (R201, R202; the spec's decisions D7, D24, log 25). PUSH stores the source, read with the old rsp, in the N bytes below
rsp, and rsp moves down by N. POP writes the N bytes at rsp to its operand, whose address is that of the registers before the
instruction; the write comes after rsp moves up by N, so that `pop rsp` ends with the popped value. -/
def Obligations.PushPopResults : Prop :=
  ∀ (sz : Size) (c : Cond) (src : Operand) (s s₁ s₂ : State) (v : BitVec sz.bits), Inv s → condHolds c s = true →
    (∀ pas, readOperand sz src s = .ok v s₁ → memDest sz (s.reg rsp - BitVec.ofNat 32 sz.bytes) s₁ = .ok (.mem pas) s₂ →
      ∃ t, exec (.push sz c src) s = .next t ∧ Holds s t (.mem pas) sz v ∧
        t.reg rsp = s.reg rsp - BitVec.ofNat 32 sz.bytes ∧ Frame s t [rsp] pas ∧ t.flagZ = s.flagZ ∧ t.flagC = s.flagC ∧
        t.rip = s.next (Instr.push sz c src).length) ∧
    ∀ d, memRead sz (s.reg rsp) s = .ok v s₁ → operandDest sz src s₁ = .ok d s₂ →
      ∃ t, exec (.pop sz c src) s = .next t ∧
        Holds (s.setReg rsp (s.reg rsp + BitVec.ofNat 32 sz.bytes)) t d sz v ∧
        Frame (s.setReg rsp (s.reg rsp + BitVec.ofNat 32 sz.bytes)) t d.regs d.stored ∧ t.flagZ = s.flagZ ∧
        t.flagC = s.flagC ∧ t.rip = s.next (Instr.pop sz c src).length

/-- IN and OUT (R203, R204; the roles of the operands are the spec's decision D30, no flag by D4, log 25): IN writes some answer to the
port's read (R68, D11), which is on record (log 10); OUT hands port and datum to the environment and changes nothing else. -/
def Obligations.PortTransfers : Prop :=
  ∀ (c : Cond) (src tgt : Operand) (s : State), Inv s → condHolds c s = true →
    (∀ (p : Word) (d : Dest), ReadsInto .word src tgt s p d →
      ∃ t v, exec (.ioIn c src tgt) s = .next t ∧ Holds s t d .word v ∧ Frame (s.logIo (.read p v)) t d.regs d.stored ∧
        t.flagZ = s.flagZ ∧ t.flagC = s.flagC ∧ t.rip = s.next (Instr.ioIn c src tgt).length) ∧
    ∀ v p : Word, ReadsAs .word src tgt s v p →
      ∃ t, exec (.ioOut c src tgt) s = .next t ∧ Frame (s.logIo (.write p v)) t [] [] ∧
        t.flagZ = s.flagZ ∧ t.flagC = s.flagC ∧ t.rip = s.next (Instr.ioOut c src tgt).length

/-! ## System instructions -/

/-- NOP (R211): `rip` advances and nothing else, at every size; any control word with opcode 0 is a NOP, whatever its ignored bits (the
spec's decision D22, log 23), the all-zero one among them, and size 3 is not (D18, log 25). Under a false
condition it only advances `rip` too (D23, log 25). -/
def Obligations.NopOnlyAdvances : Prop :=
  (∀ (sz : Size) (c : Cond) (s : State), exec (.nop sz c) s = .next (s.setRip (s.rip + 2))) ∧
  (∀ (k : CtlWord) (sz : Size) (c : Cond) (bs : List Byte), k.opcode = 0x00 → Size.ofBits k.size = some sz →
    Cond.ofBits k.cond = some c →
    decode (k.toBits.extractLsb' 0 8 :: k.toBits.extractLsb' 8 8 :: bs) = .ok (.nop sz c, bs)) ∧
  decode [0x00, 0x80] = .ok (.nop .word .always, []) ∧ decode [0x00, 0x00] = .ok (.nop .byte .always, []) ∧
  decode [0x00, 0xC0] = .error .invalidSize

/-- ISE and ICL (R214, R215): they set and clear `IF` and advance `rip`, nothing else; the new value holds from the next boundary, where
a request is taken after ISE and not after ICL (a request met with `IF` = 0 is gone: R38, the spec's
decision D39, log 8). -/
def Obligations.InterruptFlagInstructions : Prop :=
  (∀ (c : Cond) (s : State), condHolds c s = true →
    exec (.ise c) s = .next ((s.setI true).setRip (s.rip + 2)) ∧
    exec (.icl c) s = .next ((s.setI false).setRip (s.rip + 2)) ∧
    ∀ (v : Byte) (q : List (Option Byte)), s.irq = some v :: q →
      step ((s.setI true).setRip (s.rip + 2)) = takeInterrupt v (((s.setI true).setRip (s.rip + 2)).setIrq q) ∧
      step ((s.setI false).setRip (s.rip + 2)) = step (((s.setI false).setRip (s.rip + 2)).setIrq (none :: q))) ∧
  decode [0x00, 0x8C] = .ok (.ise .always, []) ∧ decode [0x00, 0x9C] = .ok (.icl .always, [])

/-- HALT (R212, the spec's decision D41), MSE and MCL (R223, R224, the spec's decision D44, log 25): each writes its bit and advances
`rip`, nothing else; the TLB keeps its entries. -/
def Obligations.HaltAndMmuBits : Prop :=
  ∀ (sz : Size) (c : Cond) (s : State), condHolds c s = true →
    exec (.halt sz c) s = .next ((s.setHalted true).setRip (s.rip + 2)) ∧
    exec (.mse c) s = .next ((s.setMmu true).setRip (s.rip + 2)) ∧
    exec (.mcl c) s = .next ((s.setMmu false).setRip (s.rip + 2))

/-- INT (R216; that it obeys `IF`, is dropped when `IF` = 0 and saves `next` is the spec's decision D31, log 25): the source is the
vector number. With `IF` = 0 only `rip` advances; with `IF` = 1 the interrupt is taken with `next` as the saved `rip`, with the
MMU disabled and a handler as the frame of R248. Above 0xFF it is refused (U8, log 18). -/
def Obligations.SoftwareInterrupt : Prop :=
  ∀ (c : Cond) (src : Operand) (s s₁ : State) (v : Word), condHolds c s = true → readOperand .word src s = .ok v s₁ →
    (v.toNat ≤ 0xFF → s.flagI = false →
      ∃ t, exec (.int c src) s = .next t ∧ t.rip = s.next (Instr.int c src).length ∧ Frame s t [] [] ∧ t.flagZ = s.flagZ ∧
        t.flagC = s.flagC) ∧
    (v.toNat ≤ 0xFF → s.flagI = true →
      exec (.int c src) s = takeInterrupt (v.setWidth 8) (s₁.setRip (s.next (Instr.int c src).length)) ∧
      ∀ h, Inv s → TrapReady s (4 * v) h →
        ∃ t, exec (.int c src) s = .next t ∧ TrapEntered s t h (s.next (Instr.int c src).length) v) ∧
    (0xFF < v.toNat → exec (.int c src) s = .refused (.intVectorAbove0xFF v))

/-- BRK (R213; the saved `rip` is `next` by the spec's decision D32, log 25): the breakpoint exception is taken, whatever `IF` is, with
the MMU disabled and a handler at 0x410 as the frame of R248; the pushed operand is not fixed (U7, log 15). -/
def Obligations.BreakpointTraps : Prop :=
  ∀ (sz : Size) (c : Cond) (s : State), condHolds c s = true →
    exec (.brk sz c) s = takeException .breakpoint (s.setRip (s.rip + 2)) ∧
    ∀ h, Inv s → TrapReady s 0x410 h →
      ∃ t w, exec (.brk sz c) s = .next t ∧ TrapEntered s t h (s.rip + 2) w

/-- RETI (R217; the flag tested is the restored one by the spec's decision D46, bits 7:4 are ignored by D6, log 25): the flags byte at
rsp, the `rip` above it and, if bit 3 of the byte is 1, the stack pointer above that are restored; nothing else is changed, resp
included. -/
def Obligations.ReturnFromInterrupt : Prop :=
  ∀ (c : Cond) (s s₁ s₂ : State) (f : Byte) (r : Word), condHolds c s = true → memRead .byte (s.reg rsp) s = .ok f s₁ →
    memRead .word (s.reg rsp + 1) s₁ = .ok r s₂ →
    (f.getLsbD 3 = false →
      ∃ t, exec (.reti c) s = .next t ∧ t.flagZ = f.getLsbD 0 ∧ t.flagC = f.getLsbD 1 ∧ t.rip = r ∧ t.reg rsp = s.reg rsp + 5 ∧
        Frame ((s.setI (f.getLsbD 2)).setSwap false) t [rsp] []) ∧
    (f.getLsbD 3 = true → ∀ (s₃ : State) (sp : Word), memRead .word (s.reg rsp + 5) s₂ = .ok sp s₃ →
      ∃ t, exec (.reti c) s = .next t ∧ t.flagZ = f.getLsbD 0 ∧ t.flagC = f.getLsbD 1 ∧ t.rip = r ∧ t.reg rsp = sp ∧
        Frame ((s.setI (f.getLsbD 2)).setSwap true) t [rsp] [])

/-! ## The control word -/

/-- R101: where the six fields of a control word are, in its 16 bits and in its two bytes, for words that are put together and for
words that are decoded; an instruction that decodes has the operation code, size, condition and operand types of these fields. -/
def Obligations.ControlWordFields : Prop :=
  (∀ k : CtlWord,
    k.toBits = k.size.setWidth 16 <<< 14 ||| k.opcode.setWidth 16 <<< 8 ||| k.off.setWidth 16 <<< 7 ||| k.cond.setWidth 16 <<< 4 |||
      k.tgt.setWidth 16 <<< 2 ||| k.src.setWidth 16) ∧
  (∀ i : Instr, ∃ (k : CtlWord) (rest : List Byte),
    encode i = (k.off ++ k.cond ++ k.tgt ++ k.src) :: (k.size ++ k.opcode) :: rest ∧ k.opcode = i.op.code ∧ k.cond = i.cond.toBits ∧
    match i.form with
      | .zero _ sz _ => k.size = sz.toBits
      | .one _ sz _ _ src => k.size = sz.toBits ∧ k.src = src.ty.toBits
      | .two _ sz _ src tgt => k.size = sz.toBits ∧ k.src = src.ty.toBits ∧ k.tgt = tgt.ty.toBits) ∧
  (∀ (w : BitVec 16) (h : Head), decodeHead w = .ok h →
    h.src = w.extractLsb' 0 2 ∧ h.tgt = w.extractLsb' 2 2 ∧ Cond.ofBits (w.extractLsb' 4 3) = some h.cond ∧ h.off = w.getLsbD 7 ∧
    Op.ofCode (w.extractLsb' 8 6) = some h.op ∧ Size.ofBits (w.extractLsb' 14 2) = some h.size) ∧
  ∀ (lo hi : Byte) (bs rest : List Byte) (i : Instr), decode (lo :: hi :: bs) = .ok (i, rest) →
    i.op.code = hi.extractLsb' 0 6 ∧ Cond.ofBits (lo.extractLsb' 4 3) = some i.cond ∧
    match i.form with
      | .zero _ sz _ => Size.ofBits (hi.extractLsb' 6 2) = some sz
      | .one _ sz _ _ src => Size.ofBits (hi.extractLsb' 6 2) = some sz ∧ src.ty.toBits = lo.extractLsb' 0 2
      | .two _ sz _ src tgt =>
        Size.ofBits (hi.extractLsb' 6 2) = some sz ∧ src.ty.toBits = lo.extractLsb' 0 2 ∧ tgt.ty.toBits = lo.extractLsb' 2 2
end

