-- ==== Sys2Proof/Laws/State.lean ====
section
/-! SUPPORT. What each update of State does to each field; no later proof unfolds an update. -/

namespace Sys2Proof.Machine

theorem State.ext_fields {s t : State} (hreg : ∀ r, s.reg r = t.reg r) (h₁ : s.rip = t.rip) (h₂ : s.flagZ = t.flagZ)
    (h₃ : s.flagC = t.flagC) (h₄ : s.flagI = t.flagI) (h₅ : s.swapSp = t.swapSp) (h₆ : s.mmuEn = t.mmuEn) (h₇ : s.pdp = t.pdp)
    (h₈ : s.halted = t.halted) (h₉ : s.tlb = t.tlb) (h₁₀ : s.mem = t.mem) (h₁₁ : s.physMap = t.physMap) (h₁₂ : s.irq = t.irq)
    (h₁₃ : s.ioLog = t.ioLog) (h₁₄ : s.draws = t.draws) (h₁₅ : s.busError = t.busError) : s = t := by
  have hregs : s.regs = t.regs := by
    apply Vector.ext
    intro i hi
    exact hreg ⟨i, hi⟩
  cases s
  cases t
  simp_all

@[simp] theorem State.reg_setReg_same (s : State) (r : RegNo) (v : Word) : (s.setReg r v).reg r = v := by
  simp [State.reg, State.setReg]

theorem State.reg_setReg_other (s : State) {r q : RegNo} (v : Word) (h : q ≠ r) : (s.setReg r v).reg q = s.reg q := by
  have h' : r.val ≠ q.val := fun e => h (Fin.ext e.symm)
  simp [State.reg, State.setReg, h']

theorem State.reg_setReg (s : State) (r q : RegNo) (v : Word) : (s.setReg r v).reg q = if q = r then v else s.reg q := by
  split
  · next h => subst h; simp
  · next h => exact s.reg_setReg_other v h

@[simp] theorem State.rip_setReg (s : State) (r : RegNo) (v : Word) : (s.setReg r v).rip = s.rip := rfl
@[simp] theorem State.flagZ_setReg (s : State) (r : RegNo) (v : Word) : (s.setReg r v).flagZ = s.flagZ := rfl
@[simp] theorem State.flagC_setReg (s : State) (r : RegNo) (v : Word) : (s.setReg r v).flagC = s.flagC := rfl
@[simp] theorem State.flagI_setReg (s : State) (r : RegNo) (v : Word) : (s.setReg r v).flagI = s.flagI := rfl
@[simp] theorem State.swapSp_setReg (s : State) (r : RegNo) (v : Word) : (s.setReg r v).swapSp = s.swapSp := rfl
@[simp] theorem State.mmuEn_setReg (s : State) (r : RegNo) (v : Word) : (s.setReg r v).mmuEn = s.mmuEn := rfl
@[simp] theorem State.pdp_setReg (s : State) (r : RegNo) (v : Word) : (s.setReg r v).pdp = s.pdp := rfl
@[simp] theorem State.halted_setReg (s : State) (r : RegNo) (v : Word) : (s.setReg r v).halted = s.halted := rfl
@[simp] theorem State.tlb_setReg (s : State) (r : RegNo) (v : Word) : (s.setReg r v).tlb = s.tlb := rfl
@[simp] theorem State.mem_setReg (s : State) (r : RegNo) (v : Word) : (s.setReg r v).mem = s.mem := rfl
@[simp] theorem State.physMap_setReg (s : State) (r : RegNo) (v : Word) : (s.setReg r v).physMap = s.physMap := rfl
@[simp] theorem State.busError_setReg (s : State) (r : RegNo) (v : Word) : (s.setReg r v).busError = s.busError := rfl
@[simp] theorem State.irq_setReg (s : State) (r : RegNo) (v : Word) : (s.setReg r v).irq = s.irq := rfl
@[simp] theorem State.ioLog_setReg (s : State) (r : RegNo) (v : Word) : (s.setReg r v).ioLog = s.ioLog := rfl
@[simp] theorem State.draws_setReg (s : State) (r : RegNo) (v : Word) : (s.setReg r v).draws = s.draws := rfl

@[simp] theorem State.reg_setRip (s : State) (v : Word) (r : RegNo) : (s.setRip v).reg r = s.reg r := rfl
@[simp] theorem State.rip_setRip (s : State) (v : Word) : (s.setRip v).rip = v := rfl
@[simp] theorem State.flagZ_setRip (s : State) (v : Word) : (s.setRip v).flagZ = s.flagZ := rfl
@[simp] theorem State.flagC_setRip (s : State) (v : Word) : (s.setRip v).flagC = s.flagC := rfl
@[simp] theorem State.flagI_setRip (s : State) (v : Word) : (s.setRip v).flagI = s.flagI := rfl
@[simp] theorem State.swapSp_setRip (s : State) (v : Word) : (s.setRip v).swapSp = s.swapSp := rfl
@[simp] theorem State.mmuEn_setRip (s : State) (v : Word) : (s.setRip v).mmuEn = s.mmuEn := rfl
@[simp] theorem State.pdp_setRip (s : State) (v : Word) : (s.setRip v).pdp = s.pdp := rfl
@[simp] theorem State.halted_setRip (s : State) (v : Word) : (s.setRip v).halted = s.halted := rfl
@[simp] theorem State.tlb_setRip (s : State) (v : Word) : (s.setRip v).tlb = s.tlb := rfl
@[simp] theorem State.mem_setRip (s : State) (v : Word) : (s.setRip v).mem = s.mem := rfl
@[simp] theorem State.physMap_setRip (s : State) (v : Word) : (s.setRip v).physMap = s.physMap := rfl
@[simp] theorem State.busError_setRip (s : State) (v : Word) : (s.setRip v).busError = s.busError := rfl
@[simp] theorem State.irq_setRip (s : State) (v : Word) : (s.setRip v).irq = s.irq := rfl
@[simp] theorem State.ioLog_setRip (s : State) (v : Word) : (s.setRip v).ioLog = s.ioLog := rfl
@[simp] theorem State.draws_setRip (s : State) (v : Word) : (s.setRip v).draws = s.draws := rfl

@[simp] theorem State.reg_setZ (s : State) (b : Bool) (r : RegNo) : (s.setZ b).reg r = s.reg r := rfl
@[simp] theorem State.rip_setZ (s : State) (b : Bool) : (s.setZ b).rip = s.rip := rfl
@[simp] theorem State.flagZ_setZ (s : State) (b : Bool) : (s.setZ b).flagZ = b := rfl
@[simp] theorem State.flagC_setZ (s : State) (b : Bool) : (s.setZ b).flagC = s.flagC := rfl
@[simp] theorem State.flagI_setZ (s : State) (b : Bool) : (s.setZ b).flagI = s.flagI := rfl
@[simp] theorem State.swapSp_setZ (s : State) (b : Bool) : (s.setZ b).swapSp = s.swapSp := rfl
@[simp] theorem State.mmuEn_setZ (s : State) (b : Bool) : (s.setZ b).mmuEn = s.mmuEn := rfl
@[simp] theorem State.pdp_setZ (s : State) (b : Bool) : (s.setZ b).pdp = s.pdp := rfl
@[simp] theorem State.halted_setZ (s : State) (b : Bool) : (s.setZ b).halted = s.halted := rfl
@[simp] theorem State.tlb_setZ (s : State) (b : Bool) : (s.setZ b).tlb = s.tlb := rfl
@[simp] theorem State.mem_setZ (s : State) (b : Bool) : (s.setZ b).mem = s.mem := rfl
@[simp] theorem State.physMap_setZ (s : State) (b : Bool) : (s.setZ b).physMap = s.physMap := rfl
@[simp] theorem State.busError_setZ (s : State) (b : Bool) : (s.setZ b).busError = s.busError := rfl
@[simp] theorem State.irq_setZ (s : State) (b : Bool) : (s.setZ b).irq = s.irq := rfl
@[simp] theorem State.ioLog_setZ (s : State) (b : Bool) : (s.setZ b).ioLog = s.ioLog := rfl
@[simp] theorem State.draws_setZ (s : State) (b : Bool) : (s.setZ b).draws = s.draws := rfl

@[simp] theorem State.reg_setC (s : State) (b : Bool) (r : RegNo) : (s.setC b).reg r = s.reg r := rfl
@[simp] theorem State.rip_setC (s : State) (b : Bool) : (s.setC b).rip = s.rip := rfl
@[simp] theorem State.flagZ_setC (s : State) (b : Bool) : (s.setC b).flagZ = s.flagZ := rfl
@[simp] theorem State.flagC_setC (s : State) (b : Bool) : (s.setC b).flagC = b := rfl
@[simp] theorem State.flagI_setC (s : State) (b : Bool) : (s.setC b).flagI = s.flagI := rfl
@[simp] theorem State.swapSp_setC (s : State) (b : Bool) : (s.setC b).swapSp = s.swapSp := rfl
@[simp] theorem State.mmuEn_setC (s : State) (b : Bool) : (s.setC b).mmuEn = s.mmuEn := rfl
@[simp] theorem State.pdp_setC (s : State) (b : Bool) : (s.setC b).pdp = s.pdp := rfl
@[simp] theorem State.halted_setC (s : State) (b : Bool) : (s.setC b).halted = s.halted := rfl
@[simp] theorem State.tlb_setC (s : State) (b : Bool) : (s.setC b).tlb = s.tlb := rfl
@[simp] theorem State.mem_setC (s : State) (b : Bool) : (s.setC b).mem = s.mem := rfl
@[simp] theorem State.physMap_setC (s : State) (b : Bool) : (s.setC b).physMap = s.physMap := rfl
@[simp] theorem State.busError_setC (s : State) (b : Bool) : (s.setC b).busError = s.busError := rfl
@[simp] theorem State.irq_setC (s : State) (b : Bool) : (s.setC b).irq = s.irq := rfl
@[simp] theorem State.ioLog_setC (s : State) (b : Bool) : (s.setC b).ioLog = s.ioLog := rfl
@[simp] theorem State.draws_setC (s : State) (b : Bool) : (s.setC b).draws = s.draws := rfl

@[simp] theorem State.reg_setI (s : State) (b : Bool) (r : RegNo) : (s.setI b).reg r = s.reg r := rfl
@[simp] theorem State.rip_setI (s : State) (b : Bool) : (s.setI b).rip = s.rip := rfl
@[simp] theorem State.flagZ_setI (s : State) (b : Bool) : (s.setI b).flagZ = s.flagZ := rfl
@[simp] theorem State.flagC_setI (s : State) (b : Bool) : (s.setI b).flagC = s.flagC := rfl
@[simp] theorem State.flagI_setI (s : State) (b : Bool) : (s.setI b).flagI = b := rfl
@[simp] theorem State.swapSp_setI (s : State) (b : Bool) : (s.setI b).swapSp = s.swapSp := rfl
@[simp] theorem State.mmuEn_setI (s : State) (b : Bool) : (s.setI b).mmuEn = s.mmuEn := rfl
@[simp] theorem State.pdp_setI (s : State) (b : Bool) : (s.setI b).pdp = s.pdp := rfl
@[simp] theorem State.halted_setI (s : State) (b : Bool) : (s.setI b).halted = s.halted := rfl
@[simp] theorem State.tlb_setI (s : State) (b : Bool) : (s.setI b).tlb = s.tlb := rfl
@[simp] theorem State.mem_setI (s : State) (b : Bool) : (s.setI b).mem = s.mem := rfl
@[simp] theorem State.physMap_setI (s : State) (b : Bool) : (s.setI b).physMap = s.physMap := rfl
@[simp] theorem State.busError_setI (s : State) (b : Bool) : (s.setI b).busError = s.busError := rfl
@[simp] theorem State.irq_setI (s : State) (b : Bool) : (s.setI b).irq = s.irq := rfl
@[simp] theorem State.ioLog_setI (s : State) (b : Bool) : (s.setI b).ioLog = s.ioLog := rfl
@[simp] theorem State.draws_setI (s : State) (b : Bool) : (s.setI b).draws = s.draws := rfl

@[simp] theorem State.reg_setSwap (s : State) (b : Bool) (r : RegNo) : (s.setSwap b).reg r = s.reg r := rfl
@[simp] theorem State.rip_setSwap (s : State) (b : Bool) : (s.setSwap b).rip = s.rip := rfl
@[simp] theorem State.flagZ_setSwap (s : State) (b : Bool) : (s.setSwap b).flagZ = s.flagZ := rfl
@[simp] theorem State.flagC_setSwap (s : State) (b : Bool) : (s.setSwap b).flagC = s.flagC := rfl
@[simp] theorem State.flagI_setSwap (s : State) (b : Bool) : (s.setSwap b).flagI = s.flagI := rfl
@[simp] theorem State.swapSp_setSwap (s : State) (b : Bool) : (s.setSwap b).swapSp = b := rfl
@[simp] theorem State.mmuEn_setSwap (s : State) (b : Bool) : (s.setSwap b).mmuEn = s.mmuEn := rfl
@[simp] theorem State.pdp_setSwap (s : State) (b : Bool) : (s.setSwap b).pdp = s.pdp := rfl
@[simp] theorem State.halted_setSwap (s : State) (b : Bool) : (s.setSwap b).halted = s.halted := rfl
@[simp] theorem State.tlb_setSwap (s : State) (b : Bool) : (s.setSwap b).tlb = s.tlb := rfl
@[simp] theorem State.mem_setSwap (s : State) (b : Bool) : (s.setSwap b).mem = s.mem := rfl
@[simp] theorem State.physMap_setSwap (s : State) (b : Bool) : (s.setSwap b).physMap = s.physMap := rfl
@[simp] theorem State.busError_setSwap (s : State) (b : Bool) : (s.setSwap b).busError = s.busError := rfl
@[simp] theorem State.irq_setSwap (s : State) (b : Bool) : (s.setSwap b).irq = s.irq := rfl
@[simp] theorem State.ioLog_setSwap (s : State) (b : Bool) : (s.setSwap b).ioLog = s.ioLog := rfl
@[simp] theorem State.draws_setSwap (s : State) (b : Bool) : (s.setSwap b).draws = s.draws := rfl

@[simp] theorem State.reg_setMmu (s : State) (b : Bool) (r : RegNo) : (s.setMmu b).reg r = s.reg r := rfl
@[simp] theorem State.rip_setMmu (s : State) (b : Bool) : (s.setMmu b).rip = s.rip := rfl
@[simp] theorem State.flagZ_setMmu (s : State) (b : Bool) : (s.setMmu b).flagZ = s.flagZ := rfl
@[simp] theorem State.flagC_setMmu (s : State) (b : Bool) : (s.setMmu b).flagC = s.flagC := rfl
@[simp] theorem State.flagI_setMmu (s : State) (b : Bool) : (s.setMmu b).flagI = s.flagI := rfl
@[simp] theorem State.swapSp_setMmu (s : State) (b : Bool) : (s.setMmu b).swapSp = s.swapSp := rfl
@[simp] theorem State.mmuEn_setMmu (s : State) (b : Bool) : (s.setMmu b).mmuEn = b := rfl
@[simp] theorem State.pdp_setMmu (s : State) (b : Bool) : (s.setMmu b).pdp = s.pdp := rfl
@[simp] theorem State.halted_setMmu (s : State) (b : Bool) : (s.setMmu b).halted = s.halted := rfl
@[simp] theorem State.tlb_setMmu (s : State) (b : Bool) : (s.setMmu b).tlb = s.tlb := rfl
@[simp] theorem State.mem_setMmu (s : State) (b : Bool) : (s.setMmu b).mem = s.mem := rfl
@[simp] theorem State.physMap_setMmu (s : State) (b : Bool) : (s.setMmu b).physMap = s.physMap := rfl
@[simp] theorem State.busError_setMmu (s : State) (b : Bool) : (s.setMmu b).busError = s.busError := rfl
@[simp] theorem State.irq_setMmu (s : State) (b : Bool) : (s.setMmu b).irq = s.irq := rfl
@[simp] theorem State.ioLog_setMmu (s : State) (b : Bool) : (s.setMmu b).ioLog = s.ioLog := rfl
@[simp] theorem State.draws_setMmu (s : State) (b : Bool) : (s.setMmu b).draws = s.draws := rfl

@[simp] theorem State.reg_setPdp (s : State) (v : Word) (r : RegNo) : (s.setPdp v).reg r = s.reg r := rfl
@[simp] theorem State.rip_setPdp (s : State) (v : Word) : (s.setPdp v).rip = s.rip := rfl
@[simp] theorem State.flagZ_setPdp (s : State) (v : Word) : (s.setPdp v).flagZ = s.flagZ := rfl
@[simp] theorem State.flagC_setPdp (s : State) (v : Word) : (s.setPdp v).flagC = s.flagC := rfl
@[simp] theorem State.flagI_setPdp (s : State) (v : Word) : (s.setPdp v).flagI = s.flagI := rfl
@[simp] theorem State.swapSp_setPdp (s : State) (v : Word) : (s.setPdp v).swapSp = s.swapSp := rfl
@[simp] theorem State.mmuEn_setPdp (s : State) (v : Word) : (s.setPdp v).mmuEn = s.mmuEn := rfl
@[simp] theorem State.pdp_setPdp (s : State) (v : Word) : (s.setPdp v).pdp = v := rfl
@[simp] theorem State.halted_setPdp (s : State) (v : Word) : (s.setPdp v).halted = s.halted := rfl
@[simp] theorem State.tlb_setPdp (s : State) (v : Word) : (s.setPdp v).tlb = s.tlb := rfl
@[simp] theorem State.mem_setPdp (s : State) (v : Word) : (s.setPdp v).mem = s.mem := rfl
@[simp] theorem State.physMap_setPdp (s : State) (v : Word) : (s.setPdp v).physMap = s.physMap := rfl
@[simp] theorem State.busError_setPdp (s : State) (v : Word) : (s.setPdp v).busError = s.busError := rfl
@[simp] theorem State.irq_setPdp (s : State) (v : Word) : (s.setPdp v).irq = s.irq := rfl
@[simp] theorem State.ioLog_setPdp (s : State) (v : Word) : (s.setPdp v).ioLog = s.ioLog := rfl
@[simp] theorem State.draws_setPdp (s : State) (v : Word) : (s.setPdp v).draws = s.draws := rfl

@[simp] theorem State.reg_setHalted (s : State) (b : Bool) (r : RegNo) : (s.setHalted b).reg r = s.reg r := rfl
@[simp] theorem State.rip_setHalted (s : State) (b : Bool) : (s.setHalted b).rip = s.rip := rfl
@[simp] theorem State.flagZ_setHalted (s : State) (b : Bool) : (s.setHalted b).flagZ = s.flagZ := rfl
@[simp] theorem State.flagC_setHalted (s : State) (b : Bool) : (s.setHalted b).flagC = s.flagC := rfl
@[simp] theorem State.flagI_setHalted (s : State) (b : Bool) : (s.setHalted b).flagI = s.flagI := rfl
@[simp] theorem State.swapSp_setHalted (s : State) (b : Bool) : (s.setHalted b).swapSp = s.swapSp := rfl
@[simp] theorem State.mmuEn_setHalted (s : State) (b : Bool) : (s.setHalted b).mmuEn = s.mmuEn := rfl
@[simp] theorem State.pdp_setHalted (s : State) (b : Bool) : (s.setHalted b).pdp = s.pdp := rfl
@[simp] theorem State.halted_setHalted (s : State) (b : Bool) : (s.setHalted b).halted = b := rfl
@[simp] theorem State.tlb_setHalted (s : State) (b : Bool) : (s.setHalted b).tlb = s.tlb := rfl
@[simp] theorem State.mem_setHalted (s : State) (b : Bool) : (s.setHalted b).mem = s.mem := rfl
@[simp] theorem State.physMap_setHalted (s : State) (b : Bool) : (s.setHalted b).physMap = s.physMap := rfl
@[simp] theorem State.busError_setHalted (s : State) (b : Bool) : (s.setHalted b).busError = s.busError := rfl
@[simp] theorem State.irq_setHalted (s : State) (b : Bool) : (s.setHalted b).irq = s.irq := rfl
@[simp] theorem State.ioLog_setHalted (s : State) (b : Bool) : (s.setHalted b).ioLog = s.ioLog := rfl
@[simp] theorem State.draws_setHalted (s : State) (b : Bool) : (s.setHalted b).draws = s.draws := rfl

@[simp] theorem State.reg_setTlb (s : State) (l : List TlbEntry) (r : RegNo) : (s.setTlb l).reg r = s.reg r := rfl
@[simp] theorem State.rip_setTlb (s : State) (l : List TlbEntry) : (s.setTlb l).rip = s.rip := rfl
@[simp] theorem State.flagZ_setTlb (s : State) (l : List TlbEntry) : (s.setTlb l).flagZ = s.flagZ := rfl
@[simp] theorem State.flagC_setTlb (s : State) (l : List TlbEntry) : (s.setTlb l).flagC = s.flagC := rfl
@[simp] theorem State.flagI_setTlb (s : State) (l : List TlbEntry) : (s.setTlb l).flagI = s.flagI := rfl
@[simp] theorem State.swapSp_setTlb (s : State) (l : List TlbEntry) : (s.setTlb l).swapSp = s.swapSp := rfl
@[simp] theorem State.mmuEn_setTlb (s : State) (l : List TlbEntry) : (s.setTlb l).mmuEn = s.mmuEn := rfl
@[simp] theorem State.pdp_setTlb (s : State) (l : List TlbEntry) : (s.setTlb l).pdp = s.pdp := rfl
@[simp] theorem State.halted_setTlb (s : State) (l : List TlbEntry) : (s.setTlb l).halted = s.halted := rfl
@[simp] theorem State.tlb_setTlb (s : State) (l : List TlbEntry) : (s.setTlb l).tlb = l := rfl
@[simp] theorem State.mem_setTlb (s : State) (l : List TlbEntry) : (s.setTlb l).mem = s.mem := rfl
@[simp] theorem State.physMap_setTlb (s : State) (l : List TlbEntry) : (s.setTlb l).physMap = s.physMap := rfl
@[simp] theorem State.busError_setTlb (s : State) (l : List TlbEntry) : (s.setTlb l).busError = s.busError := rfl
@[simp] theorem State.irq_setTlb (s : State) (l : List TlbEntry) : (s.setTlb l).irq = s.irq := rfl
@[simp] theorem State.ioLog_setTlb (s : State) (l : List TlbEntry) : (s.setTlb l).ioLog = s.ioLog := rfl
@[simp] theorem State.draws_setTlb (s : State) (l : List TlbEntry) : (s.setTlb l).draws = s.draws := rfl

@[simp] theorem State.reg_setMem (s : State) (m : Memory) (r : RegNo) : (s.setMem m).reg r = s.reg r := rfl
@[simp] theorem State.rip_setMem (s : State) (m : Memory) : (s.setMem m).rip = s.rip := rfl
@[simp] theorem State.flagZ_setMem (s : State) (m : Memory) : (s.setMem m).flagZ = s.flagZ := rfl
@[simp] theorem State.flagC_setMem (s : State) (m : Memory) : (s.setMem m).flagC = s.flagC := rfl
@[simp] theorem State.flagI_setMem (s : State) (m : Memory) : (s.setMem m).flagI = s.flagI := rfl
@[simp] theorem State.swapSp_setMem (s : State) (m : Memory) : (s.setMem m).swapSp = s.swapSp := rfl
@[simp] theorem State.mmuEn_setMem (s : State) (m : Memory) : (s.setMem m).mmuEn = s.mmuEn := rfl
@[simp] theorem State.pdp_setMem (s : State) (m : Memory) : (s.setMem m).pdp = s.pdp := rfl
@[simp] theorem State.halted_setMem (s : State) (m : Memory) : (s.setMem m).halted = s.halted := rfl
@[simp] theorem State.tlb_setMem (s : State) (m : Memory) : (s.setMem m).tlb = s.tlb := rfl
@[simp] theorem State.mem_setMem (s : State) (m : Memory) : (s.setMem m).mem = m := rfl
@[simp] theorem State.physMap_setMem (s : State) (m : Memory) : (s.setMem m).physMap = s.physMap := rfl
@[simp] theorem State.busError_setMem (s : State) (m : Memory) : (s.setMem m).busError = s.busError := rfl
@[simp] theorem State.irq_setMem (s : State) (m : Memory) : (s.setMem m).irq = s.irq := rfl
@[simp] theorem State.ioLog_setMem (s : State) (m : Memory) : (s.setMem m).ioLog = s.ioLog := rfl
@[simp] theorem State.draws_setMem (s : State) (m : Memory) : (s.setMem m).draws = s.draws := rfl

@[simp] theorem State.reg_setIrq (s : State) (q : List (Option Byte)) (r : RegNo) : (s.setIrq q).reg r = s.reg r := rfl
@[simp] theorem State.rip_setIrq (s : State) (q : List (Option Byte)) : (s.setIrq q).rip = s.rip := rfl
@[simp] theorem State.flagZ_setIrq (s : State) (q : List (Option Byte)) : (s.setIrq q).flagZ = s.flagZ := rfl
@[simp] theorem State.flagC_setIrq (s : State) (q : List (Option Byte)) : (s.setIrq q).flagC = s.flagC := rfl
@[simp] theorem State.flagI_setIrq (s : State) (q : List (Option Byte)) : (s.setIrq q).flagI = s.flagI := rfl
@[simp] theorem State.swapSp_setIrq (s : State) (q : List (Option Byte)) : (s.setIrq q).swapSp = s.swapSp := rfl
@[simp] theorem State.mmuEn_setIrq (s : State) (q : List (Option Byte)) : (s.setIrq q).mmuEn = s.mmuEn := rfl
@[simp] theorem State.pdp_setIrq (s : State) (q : List (Option Byte)) : (s.setIrq q).pdp = s.pdp := rfl
@[simp] theorem State.halted_setIrq (s : State) (q : List (Option Byte)) : (s.setIrq q).halted = s.halted := rfl
@[simp] theorem State.tlb_setIrq (s : State) (q : List (Option Byte)) : (s.setIrq q).tlb = s.tlb := rfl
@[simp] theorem State.mem_setIrq (s : State) (q : List (Option Byte)) : (s.setIrq q).mem = s.mem := rfl
@[simp] theorem State.physMap_setIrq (s : State) (q : List (Option Byte)) : (s.setIrq q).physMap = s.physMap := rfl
@[simp] theorem State.busError_setIrq (s : State) (q : List (Option Byte)) : (s.setIrq q).busError = s.busError := rfl
@[simp] theorem State.irq_setIrq (s : State) (q : List (Option Byte)) : (s.setIrq q).irq = q := rfl
@[simp] theorem State.ioLog_setIrq (s : State) (q : List (Option Byte)) : (s.setIrq q).ioLog = s.ioLog := rfl
@[simp] theorem State.draws_setIrq (s : State) (q : List (Option Byte)) : (s.setIrq q).draws = s.draws := rfl

@[simp] theorem State.reg_logIo (s : State) (e : IoEvent) (r : RegNo) : (s.logIo e).reg r = s.reg r := rfl
@[simp] theorem State.rip_logIo (s : State) (e : IoEvent) : (s.logIo e).rip = s.rip := rfl
@[simp] theorem State.flagZ_logIo (s : State) (e : IoEvent) : (s.logIo e).flagZ = s.flagZ := rfl
@[simp] theorem State.flagC_logIo (s : State) (e : IoEvent) : (s.logIo e).flagC = s.flagC := rfl
@[simp] theorem State.flagI_logIo (s : State) (e : IoEvent) : (s.logIo e).flagI = s.flagI := rfl
@[simp] theorem State.swapSp_logIo (s : State) (e : IoEvent) : (s.logIo e).swapSp = s.swapSp := rfl
@[simp] theorem State.mmuEn_logIo (s : State) (e : IoEvent) : (s.logIo e).mmuEn = s.mmuEn := rfl
@[simp] theorem State.pdp_logIo (s : State) (e : IoEvent) : (s.logIo e).pdp = s.pdp := rfl
@[simp] theorem State.halted_logIo (s : State) (e : IoEvent) : (s.logIo e).halted = s.halted := rfl
@[simp] theorem State.tlb_logIo (s : State) (e : IoEvent) : (s.logIo e).tlb = s.tlb := rfl
@[simp] theorem State.mem_logIo (s : State) (e : IoEvent) : (s.logIo e).mem = s.mem := rfl
@[simp] theorem State.physMap_logIo (s : State) (e : IoEvent) : (s.logIo e).physMap = s.physMap := rfl
@[simp] theorem State.busError_logIo (s : State) (e : IoEvent) : (s.logIo e).busError = s.busError := rfl
@[simp] theorem State.irq_logIo (s : State) (e : IoEvent) : (s.logIo e).irq = s.irq := rfl
@[simp] theorem State.ioLog_logIo (s : State) (e : IoEvent) : (s.logIo e).ioLog = e :: s.ioLog := rfl
@[simp] theorem State.draws_logIo (s : State) (e : IoEvent) : (s.logIo e).draws = s.draws := rfl

@[simp] theorem State.reg_drawn (s : State) (r : RegNo) : (s.drawn).reg r = s.reg r := rfl
@[simp] theorem State.rip_drawn (s : State) : (s.drawn).rip = s.rip := rfl
@[simp] theorem State.flagZ_drawn (s : State) : (s.drawn).flagZ = s.flagZ := rfl
@[simp] theorem State.flagC_drawn (s : State) : (s.drawn).flagC = s.flagC := rfl
@[simp] theorem State.flagI_drawn (s : State) : (s.drawn).flagI = s.flagI := rfl
@[simp] theorem State.swapSp_drawn (s : State) : (s.drawn).swapSp = s.swapSp := rfl
@[simp] theorem State.mmuEn_drawn (s : State) : (s.drawn).mmuEn = s.mmuEn := rfl
@[simp] theorem State.pdp_drawn (s : State) : (s.drawn).pdp = s.pdp := rfl
@[simp] theorem State.halted_drawn (s : State) : (s.drawn).halted = s.halted := rfl
@[simp] theorem State.tlb_drawn (s : State) : (s.drawn).tlb = s.tlb := rfl
@[simp] theorem State.mem_drawn (s : State) : (s.drawn).mem = s.mem := rfl
@[simp] theorem State.physMap_drawn (s : State) : (s.drawn).physMap = s.physMap := rfl
@[simp] theorem State.busError_drawn (s : State) : (s.drawn).busError = s.busError := rfl
@[simp] theorem State.irq_drawn (s : State) : (s.drawn).irq = s.irq := rfl
@[simp] theorem State.ioLog_drawn (s : State) : (s.drawn).ioLog = s.ioLog := rfl
@[simp] theorem State.draws_drawn (s : State) : (s.drawn).draws = s.draws + 1 := rfl

@[simp] theorem State.reg_keepFills (s t : State) (r : RegNo) : (s.keepFills t).reg r = s.reg r := rfl
@[simp] theorem State.rip_keepFills (s t : State) : (s.keepFills t).rip = s.rip := rfl
@[simp] theorem State.flagZ_keepFills (s t : State) : (s.keepFills t).flagZ = s.flagZ := rfl
@[simp] theorem State.flagC_keepFills (s t : State) : (s.keepFills t).flagC = s.flagC := rfl
@[simp] theorem State.flagI_keepFills (s t : State) : (s.keepFills t).flagI = s.flagI := rfl
@[simp] theorem State.swapSp_keepFills (s t : State) : (s.keepFills t).swapSp = s.swapSp := rfl
@[simp] theorem State.mmuEn_keepFills (s t : State) : (s.keepFills t).mmuEn = s.mmuEn := rfl
@[simp] theorem State.pdp_keepFills (s t : State) : (s.keepFills t).pdp = s.pdp := rfl
@[simp] theorem State.halted_keepFills (s t : State) : (s.keepFills t).halted = s.halted := rfl
@[simp] theorem State.tlb_keepFills (s t : State) : (s.keepFills t).tlb = t.tlb := rfl
@[simp] theorem State.mem_keepFills (s t : State) : (s.keepFills t).mem = s.mem := rfl
@[simp] theorem State.physMap_keepFills (s t : State) : (s.keepFills t).physMap = s.physMap := rfl
@[simp] theorem State.busError_keepFills (s t : State) : (s.keepFills t).busError = s.busError := rfl
@[simp] theorem State.irq_keepFills (s t : State) : (s.keepFills t).irq = s.irq := rfl
@[simp] theorem State.ioLog_keepFills (s t : State) : (s.keepFills t).ioLog = s.ioLog := rfl
@[simp] theorem State.draws_keepFills (s t : State) : (s.keepFills t).draws = t.draws := rfl

@[simp] theorem State.rip_regWrite (s : State) (r : RegNo) (sz : Size) (v : BitVec sz.bits) : (s.regWrite r sz v).rip = s.rip := rfl
@[simp] theorem State.flagZ_regWrite (s : State) (r : RegNo) (sz : Size) (v : BitVec sz.bits) : (s.regWrite r sz v).flagZ = s.flagZ := rfl
@[simp] theorem State.flagC_regWrite (s : State) (r : RegNo) (sz : Size) (v : BitVec sz.bits) : (s.regWrite r sz v).flagC = s.flagC := rfl
@[simp] theorem State.flagI_regWrite (s : State) (r : RegNo) (sz : Size) (v : BitVec sz.bits) : (s.regWrite r sz v).flagI = s.flagI := rfl
@[simp] theorem State.swapSp_regWrite (s : State) (r : RegNo) (sz : Size) (v : BitVec sz.bits) : (s.regWrite r sz v).swapSp = s.swapSp := rfl
@[simp] theorem State.mmuEn_regWrite (s : State) (r : RegNo) (sz : Size) (v : BitVec sz.bits) : (s.regWrite r sz v).mmuEn = s.mmuEn := rfl
@[simp] theorem State.pdp_regWrite (s : State) (r : RegNo) (sz : Size) (v : BitVec sz.bits) : (s.regWrite r sz v).pdp = s.pdp := rfl
@[simp] theorem State.halted_regWrite (s : State) (r : RegNo) (sz : Size) (v : BitVec sz.bits) : (s.regWrite r sz v).halted = s.halted := rfl
@[simp] theorem State.tlb_regWrite (s : State) (r : RegNo) (sz : Size) (v : BitVec sz.bits) : (s.regWrite r sz v).tlb = s.tlb := rfl
@[simp] theorem State.mem_regWrite (s : State) (r : RegNo) (sz : Size) (v : BitVec sz.bits) : (s.regWrite r sz v).mem = s.mem := rfl
@[simp] theorem State.physMap_regWrite (s : State) (r : RegNo) (sz : Size) (v : BitVec sz.bits) : (s.regWrite r sz v).physMap = s.physMap := rfl
@[simp] theorem State.busError_regWrite (s : State) (r : RegNo) (sz : Size) (v : BitVec sz.bits) : (s.regWrite r sz v).busError = s.busError := rfl
@[simp] theorem State.irq_regWrite (s : State) (r : RegNo) (sz : Size) (v : BitVec sz.bits) : (s.regWrite r sz v).irq = s.irq := rfl
@[simp] theorem State.ioLog_regWrite (s : State) (r : RegNo) (sz : Size) (v : BitVec sz.bits) : (s.regWrite r sz v).ioLog = s.ioLog := rfl
@[simp] theorem State.draws_regWrite (s : State) (r : RegNo) (sz : Size) (v : BitVec sz.bits) : (s.regWrite r sz v).draws = s.draws := rfl

@[simp] theorem State.rip_store (s : State) (d : Dest) (sz : Size) (v : BitVec sz.bits) : (s.store d sz v).rip = s.rip := by cases d <;> rfl
@[simp] theorem State.flagZ_store (s : State) (d : Dest) (sz : Size) (v : BitVec sz.bits) : (s.store d sz v).flagZ = s.flagZ := by cases d <;> rfl
@[simp] theorem State.flagC_store (s : State) (d : Dest) (sz : Size) (v : BitVec sz.bits) : (s.store d sz v).flagC = s.flagC := by cases d <;> rfl
@[simp] theorem State.flagI_store (s : State) (d : Dest) (sz : Size) (v : BitVec sz.bits) : (s.store d sz v).flagI = s.flagI := by cases d <;> rfl
@[simp] theorem State.swapSp_store (s : State) (d : Dest) (sz : Size) (v : BitVec sz.bits) : (s.store d sz v).swapSp = s.swapSp := by cases d <;> rfl
@[simp] theorem State.mmuEn_store (s : State) (d : Dest) (sz : Size) (v : BitVec sz.bits) : (s.store d sz v).mmuEn = s.mmuEn := by cases d <;> rfl
@[simp] theorem State.pdp_store (s : State) (d : Dest) (sz : Size) (v : BitVec sz.bits) : (s.store d sz v).pdp = s.pdp := by cases d <;> rfl
@[simp] theorem State.halted_store (s : State) (d : Dest) (sz : Size) (v : BitVec sz.bits) : (s.store d sz v).halted = s.halted := by cases d <;> rfl
@[simp] theorem State.tlb_store (s : State) (d : Dest) (sz : Size) (v : BitVec sz.bits) : (s.store d sz v).tlb = s.tlb := by cases d <;> rfl
@[simp] theorem State.physMap_store (s : State) (d : Dest) (sz : Size) (v : BitVec sz.bits) : (s.store d sz v).physMap = s.physMap := by cases d <;> rfl
@[simp] theorem State.busError_store (s : State) (d : Dest) (sz : Size) (v : BitVec sz.bits) : (s.store d sz v).busError = s.busError := by cases d <;> rfl
@[simp] theorem State.irq_store (s : State) (d : Dest) (sz : Size) (v : BitVec sz.bits) : (s.store d sz v).irq = s.irq := by cases d <;> rfl
@[simp] theorem State.ioLog_store (s : State) (d : Dest) (sz : Size) (v : BitVec sz.bits) : (s.store d sz v).ioLog = s.ioLog := by cases d <;> rfl
@[simp] theorem State.draws_store (s : State) (d : Dest) (sz : Size) (v : BitVec sz.bits) : (s.store d sz v).draws = s.draws := by cases d <;> rfl

@[simp] theorem State.reg_setFlags {w : Nat} (row : FlagRow) (t v r : BitVec w) (s : State) (q : RegNo) : (setFlags row t v r s).reg q = s.reg q := rfl
@[simp] theorem State.rip_setFlags {w : Nat} (row : FlagRow) (t v r : BitVec w) (s : State) : (setFlags row t v r s).rip = s.rip := rfl
@[simp] theorem State.flagZ_setFlags {w : Nat} (row : FlagRow) (t v r : BitVec w) (s : State) : (setFlags row t v r s).flagZ = zAfter (flagPolicy row).z t v r s.flagZ := rfl
@[simp] theorem State.flagC_setFlags {w : Nat} (row : FlagRow) (t v r : BitVec w) (s : State) : (setFlags row t v r s).flagC = cAfter (flagPolicy row).c t v s.flagC := rfl
@[simp] theorem State.flagI_setFlags {w : Nat} (row : FlagRow) (t v r : BitVec w) (s : State) : (setFlags row t v r s).flagI = s.flagI := rfl
@[simp] theorem State.swapSp_setFlags {w : Nat} (row : FlagRow) (t v r : BitVec w) (s : State) : (setFlags row t v r s).swapSp = s.swapSp := rfl
@[simp] theorem State.mmuEn_setFlags {w : Nat} (row : FlagRow) (t v r : BitVec w) (s : State) : (setFlags row t v r s).mmuEn = s.mmuEn := rfl
@[simp] theorem State.pdp_setFlags {w : Nat} (row : FlagRow) (t v r : BitVec w) (s : State) : (setFlags row t v r s).pdp = s.pdp := rfl
@[simp] theorem State.halted_setFlags {w : Nat} (row : FlagRow) (t v r : BitVec w) (s : State) : (setFlags row t v r s).halted = s.halted := rfl
@[simp] theorem State.tlb_setFlags {w : Nat} (row : FlagRow) (t v r : BitVec w) (s : State) : (setFlags row t v r s).tlb = s.tlb := rfl
@[simp] theorem State.mem_setFlags {w : Nat} (row : FlagRow) (t v r : BitVec w) (s : State) : (setFlags row t v r s).mem = s.mem := rfl
@[simp] theorem State.physMap_setFlags {w : Nat} (row : FlagRow) (t v r : BitVec w) (s : State) : (setFlags row t v r s).physMap = s.physMap := rfl
@[simp] theorem State.busError_setFlags {w : Nat} (row : FlagRow) (t v r : BitVec w) (s : State) : (setFlags row t v r s).busError = s.busError := rfl
@[simp] theorem State.irq_setFlags {w : Nat} (row : FlagRow) (t v r : BitVec w) (s : State) : (setFlags row t v r s).irq = s.irq := rfl
@[simp] theorem State.ioLog_setFlags {w : Nat} (row : FlagRow) (t v r : BitVec w) (s : State) : (setFlags row t v r s).ioLog = s.ioLog := rfl
@[simp] theorem State.draws_setFlags {w : Nat} (row : FlagRow) (t v r : BitVec w) (s : State) : (setFlags row t v r s).draws = s.draws := rfl

@[simp] theorem State.reg_restoreFlags (f : Byte) (s : State) (q : RegNo) : (restoreFlags f s).reg q = s.reg q := rfl
@[simp] theorem State.rip_restoreFlags (f : Byte) (s : State) : (restoreFlags f s).rip = s.rip := rfl
@[simp] theorem State.flagZ_restoreFlags (f : Byte) (s : State) : (restoreFlags f s).flagZ = f.getLsbD 0 := rfl
@[simp] theorem State.flagC_restoreFlags (f : Byte) (s : State) : (restoreFlags f s).flagC = f.getLsbD 1 := rfl
@[simp] theorem State.flagI_restoreFlags (f : Byte) (s : State) : (restoreFlags f s).flagI = f.getLsbD 2 := rfl
@[simp] theorem State.swapSp_restoreFlags (f : Byte) (s : State) : (restoreFlags f s).swapSp = f.getLsbD 3 := rfl
@[simp] theorem State.mmuEn_restoreFlags (f : Byte) (s : State) : (restoreFlags f s).mmuEn = s.mmuEn := rfl
@[simp] theorem State.pdp_restoreFlags (f : Byte) (s : State) : (restoreFlags f s).pdp = s.pdp := rfl
@[simp] theorem State.halted_restoreFlags (f : Byte) (s : State) : (restoreFlags f s).halted = s.halted := rfl
@[simp] theorem State.tlb_restoreFlags (f : Byte) (s : State) : (restoreFlags f s).tlb = s.tlb := rfl
@[simp] theorem State.mem_restoreFlags (f : Byte) (s : State) : (restoreFlags f s).mem = s.mem := rfl
@[simp] theorem State.physMap_restoreFlags (f : Byte) (s : State) : (restoreFlags f s).physMap = s.physMap := rfl
@[simp] theorem State.busError_restoreFlags (f : Byte) (s : State) : (restoreFlags f s).busError = s.busError := rfl
@[simp] theorem State.irq_restoreFlags (f : Byte) (s : State) : (restoreFlags f s).irq = s.irq := rfl
@[simp] theorem State.ioLog_restoreFlags (f : Byte) (s : State) : (restoreFlags f s).ioLog = s.ioLog := rfl
@[simp] theorem State.draws_restoreFlags (f : Byte) (s : State) : (restoreFlags f s).draws = s.draws := rfl

@[simp] theorem State.reg_enterHandler (s : State) (h : Word) (q : RegNo) : (s.enterHandler h).reg q = s.reg q := rfl
@[simp] theorem State.rip_enterHandler (s : State) (h : Word) : (s.enterHandler h).rip = h := rfl
@[simp] theorem State.flagZ_enterHandler (s : State) (h : Word) : (s.enterHandler h).flagZ = s.flagZ := rfl
@[simp] theorem State.flagC_enterHandler (s : State) (h : Word) : (s.enterHandler h).flagC = s.flagC := rfl
@[simp] theorem State.flagI_enterHandler (s : State) (h : Word) : (s.enterHandler h).flagI = false := rfl
@[simp] theorem State.swapSp_enterHandler (s : State) (h : Word) : (s.enterHandler h).swapSp = false := rfl
@[simp] theorem State.mmuEn_enterHandler (s : State) (h : Word) : (s.enterHandler h).mmuEn = s.mmuEn := rfl
@[simp] theorem State.pdp_enterHandler (s : State) (h : Word) : (s.enterHandler h).pdp = s.pdp := rfl
@[simp] theorem State.halted_enterHandler (s : State) (h : Word) : (s.enterHandler h).halted = false := rfl
@[simp] theorem State.tlb_enterHandler (s : State) (h : Word) : (s.enterHandler h).tlb = s.tlb := rfl
@[simp] theorem State.mem_enterHandler (s : State) (h : Word) : (s.enterHandler h).mem = s.mem := rfl
@[simp] theorem State.physMap_enterHandler (s : State) (h : Word) : (s.enterHandler h).physMap = s.physMap := rfl
@[simp] theorem State.busError_enterHandler (s : State) (h : Word) : (s.enterHandler h).busError = s.busError := rfl
@[simp] theorem State.irq_enterHandler (s : State) (h : Word) : (s.enterHandler h).irq = s.irq := rfl
@[simp] theorem State.ioLog_enterHandler (s : State) (h : Word) : (s.enterHandler h).ioLog = s.ioLog := rfl
@[simp] theorem State.draws_enterHandler (s : State) (h : Word) : (s.enterHandler h).draws = s.draws := rfl

end Sys2Proof.Machine
end

