-- ==== Sys2Proof/Laws/Memory.lean ====
section
/-! SUPPORT. What reading and writing memory do to each other, that writing keeps the canonical form, and little-endian bytes. -/

namespace Sys2Proof

/-! ## Little-endian bytes -/

@[simp] theorem length_leBytes (n v : Nat) : (leBytes n v).length = n := by
  induction n generalizing v with
  | zero => rfl
  | succ n ih => simp [leBytes, ih]

theorem leNat_leBytes (n v : Nat) : leNat (leBytes n v) = v % 256 ^ n := by
  induction n generalizing v with
  | zero => simp [leBytes, leNat, Nat.mod_one]
  | succ n ih =>
    simp only [leBytes, leNat, ih, BitVec.toNat_ofNat]
    rw [pow_succ' 256 n, Nat.mod_mul]

theorem leNat_lt (bs : List Byte) : leNat bs < 256 ^ bs.length := by
  induction bs with
  | nil => simp [leNat]
  | cons b bs ih =>
    simp only [leNat, List.length_cons, pow_succ]
    have := b.isLt
    omega

theorem leBytes_leNat (bs : List Byte) : leBytes bs.length (leNat bs) = bs := by
  induction bs with
  | nil => rfl
  | cons b bs ih =>
    have hb := b.isLt
    simp only [List.length_cons, leBytes, leNat]
    have h₁ : (b.toNat + 256 * leNat bs) / 256 = leNat bs := by omega
    rw [h₁, ih]
    congr 1
    apply BitVec.eq_of_toNat_eq
    simp only [BitVec.toNat_ofNat]
    omega

theorem takeLe_leBytes (n v : Nat) (rest : List Byte) : takeLe n (leBytes n v ++ rest) = some (v % 256 ^ n, rest) := by
  induction n generalizing v with
  | zero => simp [leBytes, takeLe, Nat.mod_one]
  | succ n ih =>
    simp only [leBytes, List.cons_append, takeLe, ih, BitVec.toNat_ofNat]
    rw [pow_succ' 256 n, Nat.mod_mul]

namespace Machine

/-! ## Memory -/

theorem Memory.wfFrom_cons {lo a : Nat} {b : Byte} {m : Memory} :
    Memory.wfFrom lo ((a, b) :: m) = true ↔
      lo ≤ a ∧ a < 2 ^ 32 ∧ b ≠ Config.unwritten ∧ Memory.wfFrom (a + 1) m = true := by
  simp only [Memory.wfFrom, Bool.and_eq_true, decide_eq_true_eq, bne_iff_ne]
  tauto

theorem Memory.wfFrom_mono {lo lo' : Nat} {m : Memory} (h : Memory.wfFrom lo m = true) (hl : lo' ≤ lo) :
    Memory.wfFrom lo' m = true := by
  cases m with
  | nil => rfl
  | cons c m =>
    obtain ⟨h₁, h₂⟩ := Memory.wfFrom_cons.1 h
    exact Memory.wfFrom_cons.2 ⟨by omega, h₂⟩

theorem Memory.read_below {lo x : Nat} {m : Memory} (h : Memory.wfFrom lo m = true) (hx : x < lo) :
    Memory.read m x = Config.unwritten := by
  induction m generalizing lo with
  | nil => rfl
  | cons c m ih =>
    obtain ⟨h₁, -, -, h₂⟩ := Memory.wfFrom_cons.1 h
    simp only [Memory.read, if_neg (show ¬c.1 = x by omega)]
    exact ih h₂ (by omega)

/-- A write leaves every other address alone. -/
theorem Memory.read_write_other (m : Memory) {x a : Nat} (v : Byte) (h : a ≠ x) :
    Memory.read (Memory.write m x v) a = Memory.read m a := by
  have h' : x ≠ a := Ne.symm h
  induction m with
  | nil => simp only [Memory.write]; split <;> simp [Memory.read, h']
  | cons c m ih =>
    simp only [Memory.write]
    split
    · split <;> simp [Memory.read, h']
    · split
      · next hx => subst hx; split <;> simp [Memory.read, h']
      · simp only [Memory.read, ih]

/-- A read after a write to the same address gives the value written. -/
theorem Memory.read_write_same {m : Memory} (h : Memory.wf m = true) (x : Nat) (v : Byte) :
    Memory.read (Memory.write m x v) x = v := by
  have key : ∀ (lo : Nat) (m : Memory), Memory.wfFrom lo m = true → Memory.read (Memory.write m x v) x = v := by
    intro lo m
    induction m generalizing lo with
    | nil => intro; simp only [Memory.write]; split <;> simp_all [Memory.read]
    | cons c m ih =>
      intro h
      obtain ⟨h₁, -, -, h₂⟩ := Memory.wfFrom_cons.1 h
      simp only [Memory.write]
      split
      · next hlt =>
        split
        · next hv => rw [hv]; exact Memory.read_below (lo := c.1) (Memory.wfFrom_cons.2 ⟨le_refl _, (Memory.wfFrom_cons.1 h).2⟩) hlt
        · simp [Memory.read]
      · split
        · next hx =>
          split
          · next hv => rw [hv]; exact Memory.read_below h₂ (by omega)
          · simp [Memory.read]
        · next hx => simp only [Memory.read, if_neg (Ne.symm hx)]; exact ih _ h₂
  exact key 0 m h

theorem Memory.read_write {m : Memory} (h : Memory.wf m = true) (x a : Nat) (v : Byte) :
    Memory.read (Memory.write m x v) a = if a = x then v else Memory.read m a := by
  split
  · next e => subst e; exact Memory.read_write_same h a v
  · next e => exact Memory.read_write_other m v e

theorem Memory.write_wfFrom {lo x : Nat} {m : Memory} (v : Byte) (h : Memory.wfFrom lo m = true) (hlo : lo ≤ x)
    (hx : x < 2 ^ 32) : Memory.wfFrom lo (Memory.write m x v) = true := by
  induction m generalizing lo with
  | nil =>
    simp only [Memory.write]
    split
    · rfl
    · next hv => exact Memory.wfFrom_cons.2 ⟨hlo, hx, hv, rfl⟩
  | cons c m ih =>
    obtain ⟨h₁, h₂, h₃, h₄⟩ := Memory.wfFrom_cons.1 h
    simp only [Memory.write]
    split
    · next hlt =>
      split
      · exact h
      · next hv => exact Memory.wfFrom_cons.2 ⟨hlo, hx, hv, Memory.wfFrom_cons.2 ⟨by omega, h₂, h₃, h₄⟩⟩
    · split
      · next hxa =>
        split
        · exact Memory.wfFrom_mono h₄ (by omega)
        · next hv => exact Memory.wfFrom_cons.2 ⟨hlo, hx, hv, by rw [hxa]; exact h₄⟩
      · next hne => exact Memory.wfFrom_cons.2 ⟨h₁, h₂, h₃, ih h₄ (by omega)⟩

/-- A write of a byte of the address space keeps the canonical form. -/
theorem Memory.write_wf {m : Memory} (h : Memory.wf m = true) {x : Nat} (hx : x < 2 ^ 32) (v : Byte) :
    Memory.wf (Memory.write m x v) = true :=
  Memory.write_wfFrom v h (Nat.zero_le _) hx

/-- Two memories in canonical form that read alike are the same data. -/
theorem Memory.eq_of_read {m m' : Memory} (h : Memory.wf m = true) (h' : Memory.wf m' = true)
    (hr : ∀ a, Memory.read m a = Memory.read m' a) : m = m' := by
  have key : ∀ (m m' : Memory) (lo : Nat), Memory.wfFrom lo m = true → Memory.wfFrom lo m' = true →
      (∀ a, Memory.read m a = Memory.read m' a) → m = m' := by
    intro m
    induction m with
    | nil =>
      intro m' lo _ h' hr
      cases m' with
      | nil => rfl
      | cons c m' =>
        obtain ⟨-, -, h₃, -⟩ := Memory.wfFrom_cons.1 h'
        exact absurd (by simpa [Memory.read] using (hr c.1).symm) h₃
    | cons c m ih =>
      intro m' lo h h' hr
      obtain ⟨h₁, -, h₃, h₄⟩ := Memory.wfFrom_cons.1 h
      cases m' with
      | nil => exact absurd (by simpa [Memory.read] using hr c.1) h₃
      | cons c' m' =>
        obtain ⟨h₁', -, h₃', h₄'⟩ := Memory.wfFrom_cons.1 h'
        rcases Nat.lt_trichotomy c.1 c'.1 with hlt | heq | hgt
        · have := hr c.1
          rw [Memory.read_below (lo := c'.1) (Memory.wfFrom_cons.2 ⟨le_refl _, (Memory.wfFrom_cons.1 h').2⟩) hlt] at this
          exact absurd (by simpa [Memory.read] using this) h₃
        · have hb : c.2 = c'.2 := by simpa [Memory.read, heq] using hr c.1
          have hc : c = c' := Prod.ext heq hb
          subst hc
          have : m = m' := by
            apply ih m' (c.1 + 1) h₄ h₄'
            intro a
            by_cases ha : c.1 = a
            · subst ha
              rw [Memory.read_below h₄ (by omega), Memory.read_below h₄' (by omega)]
            · simpa [Memory.read, ha] using hr a
          rw [this]
        · have := hr c'.1
          rw [Memory.read_below (lo := c.1) (Memory.wfFrom_cons.2 ⟨le_refl _, (Memory.wfFrom_cons.1 h).2⟩) hgt] at this
          exact absurd (by simpa [Memory.read] using this.symm) h₃'
  exact key m m' 0 h h' hr

theorem Memory.writeByte_ram {map : List Region} {pa : Word} (h : kindAt map pa = some .ram) (m : Memory) (b : Byte) :
    Memory.writeByte map m pa b = Memory.write m pa.toNat b := by
  simp [Memory.writeByte, h]

/-- A byte that is not for RAM changes nothing (R71). -/
theorem Memory.writeByte_other {map : List Region} {pa : Word} (h : kindAt map pa ≠ some .ram) (m : Memory) (b : Byte) :
    Memory.writeByte map m pa b = m := by
  unfold Memory.writeByte
  split
  · next hk => exact absurd hk h
  · rfl

theorem Memory.writeByte_wf {map : List Region} {m : Memory} (h : Memory.wf m = true) (pa : Word) (b : Byte) :
    Memory.wf (Memory.writeByte map m pa b) = true := by
  unfold Memory.writeByte
  split
  · exact Memory.write_wf h pa.isLt b
  · exact h

theorem Memory.writeRam_wf {map : List Region} {m : Memory} (h : Memory.wf m = true) (pas : List Word) (bs : List Byte) :
    Memory.wf (Memory.writeRam map m pas bs) = true := by
  induction pas generalizing m bs with
  | nil => exact h
  | cons pa pas ih =>
    cases bs with
    | nil => exact h
    | cons b bs => exact ih (Memory.writeByte_wf h pa b) bs

/-- Storing bytes leaves every other address alone, and every address that is not RAM (R71). -/
theorem Memory.read_writeRam_other (map : List Region) (m : Memory) (pas : List Word) (bs : List Byte) {a : Nat}
    (h : ∀ pa ∈ pas, kindAt map pa = some .ram → pa.toNat ≠ a) :
    Memory.read (Memory.writeRam map m pas bs) a = Memory.read m a := by
  induction pas generalizing m bs with
  | nil => rfl
  | cons pa pas ih =>
    cases bs with
    | nil => rfl
    | cons b bs =>
      simp only [Memory.writeRam]
      rw [ih _ bs fun q hq => h q (List.mem_cons_of_mem _ hq)]
      by_cases hk : kindAt map pa = some .ram
      · rw [Memory.writeByte_ram hk]
        exact Memory.read_write_other m b (Ne.symm (h pa List.mem_cons_self hk))
      · rw [Memory.writeByte_other hk]

/-- A byte stored in RAM reads back, where the addresses are distinct. -/
theorem Memory.read_writeRam {map : List Region} {m : Memory} (h : Memory.wf m = true) {pas : List Word} {bs : List Byte}
    (hd : pas.Nodup) :
    ∀ p ∈ pas.zip bs, kindAt map p.1 = some .ram → Memory.read (Memory.writeRam map m pas bs) p.1.toNat = p.2 := by
  induction pas generalizing m bs with
  | nil => simp
  | cons pa pas ih =>
    cases bs with
    | nil => simp
    | cons b bs =>
      obtain ⟨hpa, hd'⟩ := List.nodup_cons.1 hd
      simp only [List.zip_cons_cons, List.forall_mem_cons, Memory.writeRam]
      constructor
      · intro hk
        rw [Memory.read_writeRam_other, Memory.writeByte_ram hk, Memory.read_write_same h]
        exact fun q hq _ e => hpa (BitVec.eq_of_toNat_eq e ▸ hq)
      · exact ih (Memory.writeByte_wf h pa b) hd'

theorem Memory.readBytes_congr {m m' : Memory} {pas : List Word}
    (h : ∀ pa ∈ pas, Memory.read m pa.toNat = Memory.read m' pa.toNat) :
    Memory.readBytes m pas = Memory.readBytes m' pas :=
  List.map_congr_left h

@[simp] theorem Memory.length_readBytes (m : Memory) (pas : List Word) : (Memory.readBytes m pas).length = pas.length := by
  simp [Memory.readBytes]

/-- Bytes that are each read where they were to be are read together. -/
theorem Memory.readBytes_of_zip {m : Memory} {pas : List Word} {bs : List Byte} (hl : bs.length = pas.length)
    (h : ∀ p ∈ pas.zip bs, Memory.read m p.1.toNat = p.2) : Memory.readBytes m pas = bs := by
  induction pas generalizing bs with
  | nil => exact (List.length_eq_zero_iff.1 hl).symm
  | cons pa pas ih =>
    cases bs with
    | nil => simp at hl
    | cons b bs =>
      simp only [List.zip_cons_cons, List.forall_mem_cons] at h
      exact congrArg₂ List.cons h.1 (ih (by simpa using hl) h.2)

/-- Bytes stored in RAM at distinct addresses read back. -/
theorem Memory.readBytes_writeRam {map : List Region} {m : Memory} (h : Memory.wf m = true) {pas : List Word} {bs : List Byte}
    (hd : pas.Nodup) (hl : bs.length = pas.length) (hr : ∀ pa ∈ pas, kindAt map pa = some .ram) :
    Memory.readBytes (Memory.writeRam map m pas bs) pas = bs :=
  Memory.readBytes_of_zip hl fun p hp => Memory.read_writeRam h hd p hp (hr _ (List.of_mem_zip (a := p.1) (b := p.2) hp).1)

/-! ## Addresses -/

@[simp] theorem length_addrs (a : Word) (n : Nat) : (addrs a n).length = n := by
  simp [addrs]

theorem mem_addrs {a pa : Word} {n : Nat} : pa ∈ addrs a n ↔ ∃ i < n, pa = a + BitVec.ofNat 32 i := by
  simp [addrs, eq_comm]

theorem addrs_nodup (a : Word) {n : Nat} (h : n ≤ 2 ^ 32) : (addrs a n).Nodup := by
  apply List.Nodup.map_on _ List.nodup_range
  intro i hi j hj e
  have hi' := List.mem_range.1 hi
  have hj' := List.mem_range.1 hj
  have := congrArg BitVec.toNat (BitVec.add_right_inj a |>.1 e)
  simp only [BitVec.toNat_ofNat] at this
  omega

theorem addrs_append (a : Word) (m n : Nat) : addrs a m ++ addrs (a + BitVec.ofNat 32 m) n = addrs a (m + n) := by
  simp only [addrs, List.range_add, List.map_append, List.map_map]
  congr 1
  apply List.map_congr_left
  intro i _
  simp [BitVec.add_assoc, BitVec.ofNat_add]

/-! ## The memory map -/

@[simp] theorem BusAction.stop_eq_none {a : BusAction} {f : Fault} : a.stop f = none ↔ a = .goesOn := by
  cases a <;> simp [BusAction.stop]

theorem BusAction.stop_eq_some {a : BusAction} {f g : Fault} : a.stop f = some g ↔ a = .noStep ∧ g = f := by
  cases a <;> simp [BusAction.stop, eq_comm]

/-- When a read of one address does not stop (R71). -/
theorem readStop_eq_none {map : List Region} {be : BusError} {pa : Word} :
    readStop map be pa = none ↔ (kindAt map pa = none → be.readNone = .goesOn) := by
  unfold readStop
  split <;> simp_all

/-- When a write to one address does not stop (R71). -/
theorem writeStop_eq_none {map : List Region} {be : BusError} {pa : Word} :
    writeStop map be pa = none ↔
      (kindAt map pa = none → be.writeNone = .goesOn) ∧ (kindAt map pa = some .rom → be.writeRom = .goesOn) := by
  unfold writeStop
  split <;> simp_all

/-- Where and how a read of one address stops (R71). -/
theorem readStop_eq_some {map : List Region} {be : BusError} {pa : Word} {f : Fault} :
    readStop map be pa = some f ↔ kindAt map pa = none ∧ be.readNone = .noStep ∧ f = .noMemory pa := by
  unfold readStop
  split <;> simp_all [BusAction.stop_eq_some]

/-- Where and how a write to one address stops (R71). -/
theorem writeStop_eq_some {map : List Region} {be : BusError} {pa : Word} {f : Fault} :
    writeStop map be pa = some f ↔
      (kindAt map pa = none ∧ be.writeNone = .noStep ∧ f = .noMemory pa) ∨
        (kindAt map pa = some .rom ∧ be.writeRom = .noStep ∧ f = .romWrite pa) := by
  unfold writeStop
  split <;> simp_all [BusAction.stop_eq_some]

theorem readFault_eq_none {map : List Region} {be : BusError} {pas : List Word} :
    readFault map be pas = none ↔ ∀ pa ∈ pas, readStop map be pa = none := by
  simp [readFault]

theorem writeFault_eq_none {map : List Region} {be : BusError} {pas : List Word} :
    writeFault map be pas = none ↔ ∀ pa ∈ pas, writeStop map be pa = none := by
  simp [writeFault]

/-- A read of storage does not stop, on any platform. -/
theorem readFault_readable {map : List Region} (be : BusError) {pas : List Word} (h : ∀ pa ∈ pas, kindAt map pa ≠ none) :
    readFault map be pas = none :=
  readFault_eq_none.2 fun pa hp => readStop_eq_none.2 fun hk => absurd hk (h pa hp)

/-- A write to RAM does not stop, on any platform. -/
theorem writeFault_writable {map : List Region} (be : BusError) {pas : List Word} (h : ∀ pa ∈ pas, kindAt map pa = some .ram) :
    writeFault map be pas = none :=
  writeFault_eq_none.2 fun pa hp => writeStop_eq_none.2 (by simp [h pa hp])

end Machine

end Sys2Proof
end

