-- ==== Sys2Proof/Laws/Ops.lean ====
section
/-! SUPPORT. What each shared operation can do: translation, memory access, operands, the stack, trap entry, and the shapes an
instruction is completed with. The provers cite these instead of unfolding the operations. -/

namespace Sys2Proof.Machine

/-! ## Results -/

/-- `P` holds of the state a result was reached or abandoned in. -/
def Res.All {α : Type} (P : State → Prop) : Res α → Prop
  | .ok _ t => P t
  | .raised _ t => P t
  | .fault _ => True
  | .refused _ => True

theorem Res.All.mono {α : Type} {P Q : State → Prop} {x : Res α} (h : x.All P) (hpq : ∀ t, P t → Q t) : x.All Q := by
  cases x <;> first | exact hpq _ h | trivial

theorem Res.All.bind {α β : Type} {P : State → Prop} {x : Res α} {k : α → State → Res β} (h : x.All P)
    (hk : ∀ a t, x = .ok a t → P t → (k a t).All P) : (x.bind k).All P := by
  cases x with
  | ok a t => exact hk a t rfl h
  | raised e t => exact h
  | fault f => trivial
  | refused r => trivial

theorem Res.bind_eq_ok {α β : Type} {x : Res α} {k : α → State → Res β} {b : β} {u : State} :
    x.bind k = .ok b u ↔ ∃ a t, x = .ok a t ∧ k a t = .ok b u := by
  cases x <;> simp [Res.bind]

theorem Res.bind_eq_raised {α β : Type} {x : Res α} {k : α → State → Res β} {e : Exn} {u : State} :
    x.bind k = .raised e u ↔ x = .raised e u ∨ ∃ a t, x = .ok a t ∧ k a t = .raised e u := by
  cases x <;> simp [Res.bind]

@[simp] theorem Res.bind_ok {α β : Type} (a : α) (t : State) (k : α → State → Res β) : (Res.ok a t).bind k = k a t := rfl

@[simp] theorem Res.bind_raised {α β : Type} (e : Exn) (t : State) (k : α → State → Res β) :
    (Res.raised e t : Res α).bind k = .raised e t := rfl

/-! ## States that differ in cached translations and draws only -/

theorem SameButFills.refl (s : State) : SameButFills s s := rfl

theorem SameButFills.trans {s t u : State} (h : SameButFills s t) (h' : SameButFills t u) : SameButFills s u := by
  unfold SameButFills at *
  rw [h', h]
  rfl

theorem SameButFills.reg {s t : State} (h : SameButFills s t) (r : RegNo) : t.reg r = s.reg r := by rw [h]; rfl
theorem SameButFills.rip {s t : State} (h : SameButFills s t) : t.rip = s.rip := by rw [h]; rfl
theorem SameButFills.flagZ {s t : State} (h : SameButFills s t) : t.flagZ = s.flagZ := by rw [h]; rfl
theorem SameButFills.flagC {s t : State} (h : SameButFills s t) : t.flagC = s.flagC := by rw [h]; rfl
theorem SameButFills.flagI {s t : State} (h : SameButFills s t) : t.flagI = s.flagI := by rw [h]; rfl
theorem SameButFills.swapSp {s t : State} (h : SameButFills s t) : t.swapSp = s.swapSp := by rw [h]; rfl
theorem SameButFills.mmuEn {s t : State} (h : SameButFills s t) : t.mmuEn = s.mmuEn := by rw [h]; rfl
theorem SameButFills.pdp {s t : State} (h : SameButFills s t) : t.pdp = s.pdp := by rw [h]; rfl
theorem SameButFills.halted {s t : State} (h : SameButFills s t) : t.halted = s.halted := by rw [h]; rfl
theorem SameButFills.mem {s t : State} (h : SameButFills s t) : t.mem = s.mem := by rw [h]; rfl
theorem SameButFills.physMap {s t : State} (h : SameButFills s t) : t.physMap = s.physMap := by rw [h]; rfl
theorem SameButFills.busError {s t : State} (h : SameButFills s t) : t.busError = s.busError := by rw [h]; rfl
theorem SameButFills.irq {s t : State} (h : SameButFills s t) : t.irq = s.irq := by rw [h]; rfl
theorem SameButFills.ioLog {s t : State} (h : SameButFills s t) : t.ioLog = s.ioLog := by rw [h]; rfl

theorem SameButFills.condHolds {s t : State} (h : SameButFills s t) (c : Cond) : condHolds c t = condHolds c s := by
  cases c <;> simp [Machine.condHolds, h.flagZ, h.flagC]

theorem sameButFills_setTlb (s : State) (l : List TlbEntry) : SameButFills s (s.setTlb l) := rfl

theorem sameButFills_drawn (s : State) : SameButFills s s.drawn := rfl

theorem sameButFills_keepFills (s t : State) : SameButFills s (s.keepFills t) := rfl

theorem sameButFills_forgetSome (s : State) : SameButFills s s.forgetSome := rfl

theorem sameButFills_mayFill (s : State) (n : Nat) (e : TlbEntry) : SameButFills s (s.mayFill n e) := by
  unfold State.mayFill
  split <;> rfl

theorem SameButFills.eq_of_off {s t : State} (h : SameButFills s t) (hl : t.tlb = s.tlb) (hd : t.draws = s.draws) : t = s := by
  rw [h]
  cases s
  simp_all [State.keepFills]

/-! ## Translation -/

@[simp] theorem translate_off {s : State} (h : s.mmuEn = false) (kind : AccessKind) (va : Word) :
    translate kind va s = .ok va s := by
  simp [translate, h]

theorem applyEntry_all {P : State → Prop} (kind : AccessKind) (va : Word) (e : TlbEntry) {s : State} (h : P s) :
    (applyEntry kind va e s).All P := by
  unfold applyEntry
  split <;> exact h

theorem translate_fills (kind : AccessKind) (va : Word) (s : State) : (translate kind va s).All (SameButFills s) := by
  unfold translate
  split
  · have hf := sameButFills_forgetSome s
    dsimp only
    split
    · exact applyEntry_all _ _ _ hf
    · split
      · trivial
      · exact hf
      · exact applyEntry_all _ _ _ (hf.trans (sameButFills_mayFill _ _ _))
  · exact .refl s

/-- A translation that is refused is a page fault of its kind at its address, and the MMU is enabled (R80, R232). -/
theorem translate_raised {kind : AccessKind} {va : Word} {s t : State} {e : Exn} (h : translate kind va s = .raised e t) :
    s.mmuEn = true ∧ e = pageFault kind va := by
  unfold translate at h
  split at h
  · next hm =>
    refine ⟨hm, ?_⟩
    dsimp only at h
    have key : ∀ en u, applyEntry kind va en u = .raised e t → e = pageFault kind va := by
      intro en u h
      unfold applyEntry at h
      split at h <;> simp_all
    split at h
    · exact key _ _ h
    · split at h
      · cases h
      · simpa using (Res.raised.inj h).1.symm
      · exact key _ _ h
  · cases h

theorem toNat_joinPage_mod (ppn : BitVec 20) (va : Word) : (joinPage ppn va).toNat % 4096 = va.toNat % 4096 := by
  have h : (joinPage ppn va).setWidth 12 = va.setWidth 12 := by
    apply BitVec.eq_of_getLsbD_eq
    intro i hi
    exact (BitVec.getLsbD_setWidth ..).trans ((congrArg _ (BitVec.getLsbD_append (x := ppn))).trans (by simp [hi]))
  simpa using congrArg BitVec.toNat h

/-- A translation keeps the byte's place in its page (R80). -/
theorem translate_offset {kind : AccessKind} {va pa : Word} {s t : State} (h : translate kind va s = .ok pa t) :
    pa.toNat % 4096 = va.toNat % 4096 := by
  have key : ∀ en u, applyEntry kind va en u = .ok pa t → pa.toNat % 4096 = va.toNat % 4096 := by
    intro en u h
    unfold applyEntry at h
    split at h
    · cases h
    · rw [← (Res.ok.inj h).1]; exact toNat_joinPage_mod _ _
  unfold translate at h
  split at h
  · dsimp only at h
    split at h
    · exact key _ _ h
    · split at h
      · cases h
      · cases h
      · exact key _ _ h
  · rw [(Res.ok.inj h).1]

theorem translate_tlbUnique (kind : AccessKind) (va : Word) {s : State} (h : TlbUnique s.tlb) :
    (translate kind va s).All fun t => TlbUnique t.tlb := by
  have hf : TlbUnique s.forgetSome.tlb := h.filter _
  unfold translate
  split
  · dsimp only
    split
    · exact applyEntry_all (P := fun t => TlbUnique t.tlb) _ _ _ hf
    · next hnone =>
      split
      · trivial
      · exact hf
      · next e hw =>
        apply applyEntry_all (P := fun t => TlbUnique t.tlb)
        unfold State.mayFill
        split
        · refine List.Pairwise.cons ?_ hf
          intro e' he'
          have hv : e.vpn = vpnOf va := by
            unfold walk at hw
            repeat' split at hw
            all_goals first | cases hw; done | (injection hw with hw; injection hw with hw; rw [← hw])
          have hne := List.find?_eq_none.1 hnone e' he'
          rw [hv]
          exact fun h => hne (beq_iff_eq.2 h.symm)
        · exact hf
  · exact h

/-! ## Ranges of bytes -/

theorem bytesInPage_le (va : Word) (n : Nat) : bytesInPage va n ≤ n := Nat.min_le_left _ _

theorem translateRange_off {s : State} (h : s.mmuEn = false) (kind : AccessKind) (va : Word) (n : Nat) :
    translateRange kind va n s = .ok (addrs va n) s := by
  have hk := bytesInPage_le va n
  simp only [translateRange, translate_off h, Res.bind_ok]
  split
  · rfl
  · rw [addrs_append, Nat.add_sub_cancel' hk]

theorem translateRange_all {P : State → Prop} {kind : AccessKind} {va : Word} {n : Nat} {s : State} (h : P s)
    (ht : ∀ va t, P t → (translate kind va t).All P) : (translateRange kind va n s).All P := by
  unfold translateRange
  refine (ht va s h).bind fun pa t _ hp => ?_
  split
  · exact hp
  · exact (ht _ _ hp).bind fun _ _ _ hp' => hp'

theorem translateRange_fills (kind : AccessKind) (va : Word) (n : Nat) (s : State) :
    (translateRange kind va n s).All (SameButFills s) :=
  translateRange_all (.refl s) fun va t h => (translate_fills kind va t).mono fun _ => h.trans

theorem translateRange_raised {kind : AccessKind} {va : Word} {n : Nat} {s t : State} {e : Exn}
    (h : translateRange kind va n s = .raised e t) : s.mmuEn = true ∧ ∃ fa, e = pageFault kind fa := by
  unfold translateRange at h
  rcases Res.bind_eq_raised.1 h with h | ⟨pa, u, hu, h⟩
  · exact ⟨(translate_raised h).1, va, (translate_raised h).2⟩
  · have hs : SameButFills s u := by have := translate_fills kind va s; rw [hu] at this; exact this
    split at h
    · cases h
    · rcases Res.bind_eq_raised.1 h with h | ⟨pa₂, u₂, -, h⟩
      · exact ⟨hs.mmuEn ▸ (translate_raised h).1, _, (translate_raised h).2⟩
      · cases h

theorem addrs_offsets {pa va : Word} (h : pa.toNat % 4096 = va.toNat % 4096) (n : Nat) :
    (addrs pa n).map (fun a => a.toNat % 4096) = (List.range n).map fun i => (va.toNat + i) % 4096 := by
  simp only [addrs, List.map_map]
  apply List.map_congr_left
  intro i _
  simp only [Function.comp, BitVec.toNat_add, BitVec.toNat_ofNat]
  omega

/-- The places in their pages of the bytes of an access. -/
theorem translateRange_offsets {kind : AccessKind} {va : Word} {n : Nat} {s t : State} {pas : List Word}
    (h : translateRange kind va n s = .ok pas t) :
    pas.map (fun a => a.toNat % 4096) = (List.range n).map fun i => (va.toNat + i) % 4096 := by
  unfold translateRange at h
  obtain ⟨pa, u, hu, h⟩ := Res.bind_eq_ok.1 h
  have hk := bytesInPage_le va n
  split at h
  · rw [← (Res.ok.inj h).1]; exact addrs_offsets (translate_offset hu) n
  · obtain ⟨pa₂, u₂, hu₂, h⟩ := Res.bind_eq_ok.1 h
    rw [← (Res.ok.inj h).1, List.map_append, addrs_offsets (translate_offset hu), addrs_offsets (translate_offset hu₂)]
    conv_rhs => rw [← Nat.add_sub_cancel' hk, List.range_add, List.map_append, List.map_map]
    congr 1
    apply List.map_congr_left
    intro i _
    simp only [Function.comp, BitVec.toNat_add, BitVec.toNat_ofNat]
    omega

theorem translateRange_length {kind : AccessKind} {va : Word} {n : Nat} {s t : State} {pas : List Word}
    (h : translateRange kind va n s = .ok pas t) : pas.length = n := by
  simpa using congrArg List.length (translateRange_offsets h)

/-- The bytes of an access lie at distinct physical addresses. -/
theorem translateRange_nodup {kind : AccessKind} {va : Word} {n : Nat} {s t : State} {pas : List Word}
    (h : translateRange kind va n s = .ok pas t) (hn : n ≤ 4096) : pas.Nodup := by
  apply List.Nodup.of_map (fun a : Word => a.toNat % 4096)
  rw [translateRange_offsets h]
  apply List.Nodup.map_on _ List.nodup_range
  intro i hi j hj e
  have := List.mem_range.1 hi
  have := List.mem_range.1 hj
  omega

/-! ## Memory access -/

/-- The state after a read is the state before it, or that with one draw. -/
theorem State.afterRead_cases (s : State) (pas : List Word) : s.afterRead pas = s ∨ s.afterRead pas = s.drawn := by
  unfold State.afterRead
  split
  · exact .inr rfl
  · exact .inl rfl

theorem sameButFills_afterRead (s : State) (pas : List Word) : SameButFills s (s.afterRead pas) := by
  rcases s.afterRead_cases pas with h | h <;> rw [h]
  exacts [.refl s, sameButFills_drawn s]

/-- A read of storage draws no value. -/
theorem State.afterRead_readable {s : State} {pas : List Word} (h : Readable s pas) : s.afterRead pas = s := by
  refine if_neg fun hn => ?_
  obtain ⟨pa, hp, hk⟩ := List.any_eq_true.1 hn
  exact h pa hp (Option.isNone_iff_eq_none.1 hk)

@[simp] theorem State.length_busBytes (s : State) (use : BusUse) (pas : List Word) : (s.busBytes use pas).length = pas.length := by
  simp [State.busBytes]

/-- Storage answers a read with its byte. -/
theorem State.busByte_readable {s : State} {pa : Word} (h : kindAt s.physMap pa ≠ none) (use : BusUse) :
    s.busByte use pa = Memory.read s.mem pa.toNat := by
  unfold State.busByte
  split
  · next hk => exact absurd hk h
  · rfl

theorem State.busBytes_readable {s : State} {pas : List Word} (h : Readable s pas) (use : BusUse) :
    s.busBytes use pas = Memory.readBytes s.mem pas :=
  List.map_congr_left fun pa hp => State.busByte_readable (h pa hp) use

/-- What a read that answers has done (R64, R71). -/
theorem memRead_eq_ok {sz : Size} {va : Word} {s t : State} {v : BitVec sz.bits} :
    memRead sz va s = .ok v t ↔ ∃ pas u, translateRange .read va sz.bytes s = .ok pas u ∧
      readFault u.physMap u.busError pas = none ∧ v = BitVec.ofNat sz.bits (leNat (u.busBytes .data pas)) ∧ t = u.afterRead pas := by
  unfold memRead
  rw [Res.bind_eq_ok]
  refine exists₂_congr fun pas u => and_congr_right fun _ => ?_
  split
  · next f hf => simp [hf]
  · next hf => simp [hf, eq_comm]

theorem memRead_all {P : State → Prop} {sz : Size} {va : Word} {s : State} (h : P s)
    (ht : ∀ va t, P t → (translate .read va t).All P) (hd : ∀ t, P t → P t.drawn) : (memRead sz va s).All P := by
  unfold memRead
  refine (translateRange_all h ht).bind fun pas t _ hp => ?_
  split
  · trivial
  · rcases t.afterRead_cases pas with e | e <;> rw [e]
    exacts [hp, hd t hp]

theorem memRead_fills (sz : Size) (va : Word) (s : State) : (memRead sz va s).All (SameButFills s) :=
  memRead_all (.refl s) (fun va t h => (translate_fills .read va t).mono fun _ => h.trans) fun t h =>
    h.trans (sameButFills_drawn t)

/-- A read with the MMU disabled of addresses that do not stop it. -/
theorem memRead_goesOn {s : State} (h : s.mmuEn = false) {sz : Size} {va : Word}
    (hr : readFault s.physMap s.busError (addrs va sz.bytes) = none) :
    memRead sz va s = .ok (BitVec.ofNat sz.bits (leNat (s.busBytes .data (addrs va sz.bytes)))) (s.afterRead (addrs va sz.bytes)) := by
  simp only [memRead, translateRange_off h, Res.bind_ok, hr]

theorem memRead_off {s : State} (h : s.mmuEn = false) {sz : Size} {va : Word} (hr : Readable s (addrs va sz.bytes)) :
    memRead sz va s = .ok (BitVec.ofNat sz.bits (leNat (bytesAt s va sz.bytes))) s := by
  rw [memRead_goesOn h (readFault_readable _ hr), State.afterRead_readable hr, State.busBytes_readable hr, bytesAt]

theorem memRead_raised {sz : Size} {va : Word} {s t : State} {e : Exn} (h : memRead sz va s = .raised e t) :
    s.mmuEn = true ∧ ∃ fa, e = .pageFaultRead fa := by
  unfold memRead at h
  rcases Res.bind_eq_raised.1 h with h | ⟨pas, u, -, h⟩
  · exact translateRange_raised h
  · split at h <;> cases h

theorem memDest_all {P : State → Prop} {sz : Size} {va : Word} {s : State} (h : P s)
    (ht : ∀ va t, P t → (translate .write va t).All P) : (memDest sz va s).All P := by
  unfold memDest
  refine (translateRange_all h ht).bind fun pas t _ hp => ?_
  split
  · trivial
  · exact hp

theorem memDest_fills (sz : Size) (va : Word) (s : State) : (memDest sz va s).All (SameButFills s) :=
  memDest_all (.refl s) fun va t h => (translate_fills .write va t).mono fun _ => h.trans

/-- A destination with the MMU disabled at addresses that do not stop the write. -/
theorem memDest_goesOn {s : State} (h : s.mmuEn = false) {sz : Size} {va : Word}
    (hr : writeFault s.physMap s.busError (addrs va sz.bytes) = none) : memDest sz va s = .ok (.mem (addrs va sz.bytes)) s := by
  simp only [memDest, translateRange_off h, Res.bind_ok, hr]

theorem memDest_off {s : State} (h : s.mmuEn = false) {sz : Size} {va : Word} (hr : Writable s (addrs va sz.bytes)) :
    memDest sz va s = .ok (.mem (addrs va sz.bytes)) s :=
  memDest_goesOn h (writeFault_writable _ hr)

theorem memDest_raised {sz : Size} {va : Word} {s t : State} {e : Exn} (h : memDest sz va s = .raised e t) :
    s.mmuEn = true ∧ ∃ fa, e = .pageFaultWrite fa := by
  unfold memDest at h
  rcases Res.bind_eq_raised.1 h with h | ⟨pas, u, -, h⟩
  · exact translateRange_raised h
  · split at h <;> cases h

theorem size_bytes_le (sz : Size) : sz.bytes ≤ 4096 := by cases sz <;> decide

theorem size_bits_eq (sz : Size) : sz.bits = 8 * sz.bytes := by cases sz <;> rfl

theorem size_two_pow_bits (sz : Size) : 2 ^ sz.bits = 256 ^ sz.bytes := by cases sz <;> rfl

/-- What a destination is: a register, or distinct bytes, as many as the size has, none of which stops a write (R71). -/
def Dest.Valid (s : State) (sz : Size) : Dest → Prop
  | .reg _ => True
  | .mem pas => pas.Nodup ∧ pas.length = sz.bytes ∧ writeFault s.physMap s.busError pas = none

theorem memDest_ok {sz : Size} {va : Word} {s t : State} {d : Dest} (h : memDest sz va s = .ok d t) :
    SameButFills s t ∧ d.Valid t sz ∧ ∃ pas, d = .mem pas := by
  have hs := memDest_fills sz va s
  rw [h] at hs
  unfold memDest at h
  obtain ⟨pas, u, hu, h⟩ := Res.bind_eq_ok.1 h
  split at h
  · cases h
  · next hf =>
    obtain ⟨rfl, rfl⟩ := Res.ok.inj h
    exact ⟨hs, ⟨translateRange_nodup hu (size_bytes_le sz), translateRange_length hu, hf⟩, pas, rfl⟩

/-! ## Storing -/

theorem store_reg (s : State) (r : RegNo) (sz : Size) (v : BitVec sz.bits) :
    s.store (.reg r) sz v = s.setReg r (mergeLow sz (s.reg r) v) := rfl

theorem mergeLow_low (sz : Size) (old : Word) (v : BitVec sz.bits) : (mergeLow sz old v).setWidth sz.bits = v := by
  apply BitVec.eq_of_getLsbD_eq
  intro i hi
  have h32 : i < 32 := by cases sz <;> simp [Size.bits] at hi <;> omega
  simp [mergeLow, hi, h32]

theorem mergeLow_high (sz : Size) (old : Word) (v : BitVec sz.bits) :
    mergeLow sz old v >>> sz.bits = old >>> sz.bits := by
  apply BitVec.eq_of_getLsbD_eq
  intro i hi
  by_cases h : sz.bits + i < 32
  · simp [mergeLow, h]
  · simp [BitVec.getLsbD_of_ge _ _ (Nat.le_of_not_lt h)]

/-- A stored value is there (R23, R61). -/
theorem store_holds {s : State} {d : Dest} {sz : Size} (hm : Memory.wf s.mem = true) (hd : d.Valid s sz) (v : BitVec sz.bits) :
    Holds s (s.store d sz v) d sz v := by
  cases d with
  | reg r => exact ⟨by simp [store_reg, mergeLow_low], by simp [store_reg, mergeLow_high]⟩
  | mem pas => exact Memory.read_writeRam hm hd.1

/-- Storing changes the destination only. -/
theorem store_frame (s : State) (d : Dest) (sz : Size) (v : BitVec sz.bits) :
    Frame s (s.store d sz v) d.regs d.stored where
  regs r hr := by
    cases d with
    | reg q => exact s.reg_setReg_other _ (by simpa [Dest.regs] using hr)
    | mem pas => rfl
  mem a ha := by
    cases d with
    | reg q => rfl
    | mem pas => exact Memory.read_writeRam_other _ _ _ _ ha
  flagI := by simp
  swapSp := by simp
  mmuEn := by simp
  pdp := by simp
  halted := by simp
  tlb := by simp
  physMap := by simp
  busError := by simp
  irq := by simp
  ioLog := by simp

theorem Frame.refl (s : State) (rs : List RegNo) (st : List Word) : Frame s s rs st where
  regs _ _ := rfl
  mem _ _ := rfl
  flagI := rfl
  swapSp := rfl
  mmuEn := rfl
  pdp := rfl
  halted := rfl
  tlb _ := rfl
  physMap := rfl
  busError := rfl
  irq := rfl
  ioLog := rfl

theorem Frame.trans {s t u : State} {rs : List RegNo} {st : List Word} (h : Frame s t rs st) (h' : Frame t u rs st) :
    Frame s u rs st where
  regs r hr := (h'.regs r hr).trans (h.regs r hr)
  mem a ha := (h'.mem a (by rw [h.physMap]; exact ha)).trans (h.mem a ha)
  flagI := h'.flagI.trans h.flagI
  swapSp := h'.swapSp.trans h.swapSp
  mmuEn := h'.mmuEn.trans h.mmuEn
  pdp := h'.pdp.trans h.pdp
  halted := h'.halted.trans h.halted
  tlb hm := (h'.tlb (h.mmuEn.trans hm)).trans (h.tlb hm)
  physMap := h'.physMap.trans h.physMap
  busError := h'.busError.trans h.busError
  irq := h'.irq.trans h.irq
  ioLog := h'.ioLog.trans h.ioLog

theorem SameButFills.frame {s t : State} (h : SameButFills s t) (ht : s.mmuEn = false → t.tlb = s.tlb) (rs : List RegNo)
    (st : List Word) : Frame s t rs st where
  regs r _ := h.reg r
  mem _ _ := by rw [h.mem]
  flagI := h.flagI
  swapSp := h.swapSp
  mmuEn := h.mmuEn
  pdp := h.pdp
  halted := h.halted
  tlb := ht
  physMap := h.physMap
  busError := h.busError
  irq := h.irq
  ioLog := h.ioLog

/-! ## Operands -/

theorem readOperand_all {P : State → Prop} {sz : Size} {o : Operand} {s : State} (h : P s)
    (ht : ∀ va t, P t → (translate .read va t).All P) (hd : ∀ t, P t → P t.drawn) : (readOperand sz o s).All P := by
  cases o with
  | reg r => exact h
  | ptr r off => exact memRead_all h ht hd
  | imm v => exact h
  | immPtr a => exact memRead_all h ht hd

theorem readOperand_fills (sz : Size) (o : Operand) (s : State) : (readOperand sz o s).All (SameButFills s) :=
  readOperand_all (.refl s) (fun va t h => (translate_fills .read va t).mono fun _ => h.trans) fun t h =>
    h.trans (sameButFills_drawn t)

theorem operandDest_all {P : State → Prop} {sz : Size} {o : Operand} {s : State} (h : P s)
    (ht : ∀ va t, P t → (translate .write va t).All P) : (operandDest sz o s).All P := by
  cases o with
  | reg r => exact h
  | ptr r off => exact memDest_all h ht
  | imm v => exact h
  | immPtr a => exact memDest_all h ht

theorem operandDest_fills (sz : Size) (o : Operand) (s : State) : (operandDest sz o s).All (SameButFills s) :=
  operandDest_all (.refl s) fun va t h => (translate_fills .write va t).mono fun _ => h.trans

/-- Without the MMU no translation changes anything, nor has a destination been written. -/
theorem eq_of_off (s : State) (h : s.mmuEn = false) :
    (∀ kind va, (translate kind va s).All (· = s)) ∧ ∀ sz o, (operandDest sz o s).All (· = s) := by
  have ht : ∀ kind va t, t = s → (translate kind va t).All (· = s) := by
    rintro kind va t rfl
    rw [translate_off h]
    rfl
  exact ⟨fun kind va => ht kind va s rfl, fun sz o => operandDest_all rfl (ht .write)⟩

theorem memRead_okOff {sz : Size} {va : Word} {s t : State} {v : BitVec sz.bits} (h : memRead sz va s = .ok v t)
    (hm : s.mmuEn = false) : t = s ∨ t = s.drawn := by
  obtain ⟨pas, u, hu, -, -, rfl⟩ := memRead_eq_ok.1 h
  rw [translateRange_off hm] at hu
  obtain ⟨-, rfl⟩ := Res.ok.inj hu
  exact s.afterRead_cases pas

/-- An operand that is read: only cached translations and draws differ, with the MMU disabled only the draws. -/
theorem readOperand_ok {sz : Size} {o : Operand} {s t : State} {v : BitVec sz.bits} (h : readOperand sz o s = .ok v t) :
    SameButFills s t ∧ (s.mmuEn = false → t = s ∨ t = s.drawn) := by
  constructor
  · have := readOperand_fills sz o s
    rw [h] at this
    exact this
  · intro hm
    cases o with
    | reg r => exact .inl (Res.ok.inj h).2.symm
    | ptr r off => exact memRead_okOff h hm
    | imm v => exact .inl (Res.ok.inj h).2.symm
    | immPtr a => exact memRead_okOff h hm

theorem operandDest_ok {sz : Size} {o : Operand} {s t : State} {d : Dest} (h : operandDest sz o s = .ok d t) :
    SameButFills s t ∧ (s.mmuEn = false → t = s) ∧ d.Valid t sz := by
  refine ⟨?_, ?_, ?_⟩
  · have := operandDest_fills sz o s
    rw [h] at this
    exact this
  · intro hm
    have := (eq_of_off s hm).2 sz o
    rw [h] at this
    exact this
  · cases o with
    | reg r => rw [← (Res.ok.inj h).1]; trivial
    | ptr r off => exact (memDest_ok h).2.1
    | imm v => cases h
    | immPtr a => exact (memDest_ok h).2.1

/-! ## Completing an instruction -/

theorem whenHolds_true {c : Cond} {len : Nat} {s : State} (h : condHolds c s = true) (x : Outcome) : whenHolds c len s x = x := by
  simp [whenHolds, h]

theorem whenHolds_false {c : Cond} {len : Nat} {s : State} (h : condHolds c s = false) (x : Outcome) :
    whenHolds c len s x = .next (s.setRip (s.next len)) := by
  simp [whenHolds, h]

theorem advancing_ok {c : Cond} {len : Nat} {s t : State} {x : Res Unit} (h : condHolds c s = true) (hx : x = .ok () t) :
    advancing c len s x = .next (t.setRip (s.next len)) := by
  simp [advancing, whenHolds_true h, hx, conclude]

theorem transferring_ok {c : Cond} {len : Nat} {s t : State} {x : Res Word} {target : Word} (h : condHolds c s = true)
    (hx : x = .ok target t) : transferring c len s x = .next (t.setRip target) := by
  simp [transferring, whenHolds_true h, hx, conclude]

theorem advancing_raised {c : Cond} {len : Nat} {s t : State} {x : Res Unit} {e : Exn} (h : condHolds c s = true)
    (hx : x = .raised e t) : advancing c len s x = takeException e (s.keepFills t) := by
  simp [advancing, whenHolds_true h, hx, conclude]

theorem readBoth_ok {sz : Size} {src tgt : Operand} {s s₁ s₂ : State} {v t : BitVec sz.bits}
    (hv : readOperand sz src s = .ok v s₁) (ht : readOperand sz tgt s₁ = .ok t s₂) : readBoth sz src tgt s = .ok (v, t) s₂ := by
  simp [readBoth, hv, ht]

theorem writeOperand_ok {sz : Size} {o : Operand} {s t : State} {d : Dest} (h : operandDest sz o s = .ok d t)
    (v : BitVec sz.bits) : writeOperand sz o v s = .ok () (t.store d sz v) := by
  simp [writeOperand, h]

theorem combine_ok {row : FlagRow} {sz : Size} {src tgt : Operand}
    {f : BitVec sz.bits → BitVec sz.bits → State → Res (BitVec sz.bits)} {s s₁ s₂ s₃ s₄ : State} {v t r : BitVec sz.bits} {d : Dest}
    (hv : readOperand sz src s = .ok v s₁) (ht : readOperand sz tgt s₁ = .ok t s₂) (hf : f t v s₂ = .ok r s₃)
    (hd : operandDest sz tgt s₃ = .ok d s₄) : combine row sz src tgt f s = .ok () (setFlags row t v r (s₄.store d sz r)) := by
  simp [combine, readBoth_ok hv ht, hf, writeOperand_ok hd]

theorem combineNoFlags_ok {sz : Size} {src tgt : Operand}
    {f : BitVec sz.bits → BitVec sz.bits → State → Res (BitVec sz.bits)} {s s₁ s₂ s₃ s₄ : State} {v t r : BitVec sz.bits} {d : Dest}
    (hv : readOperand sz src s = .ok v s₁) (ht : readOperand sz tgt s₁ = .ok t s₂) (hf : f t v s₂ = .ok r s₃)
    (hd : operandDest sz tgt s₃ = .ok d s₄) : combineNoFlags sz src tgt f s = .ok () (s₄.store d sz r) := by
  simp [combineNoFlags, readBoth_ok hv ht, hf, writeOperand_ok hd]

theorem modify_ok {row : FlagRow} {sz : Size} {o : Operand} {k v : BitVec sz.bits} {f : BitVec sz.bits → BitVec sz.bits}
    {s s₁ s₂ : State} {d : Dest} (hv : readOperand sz o s = .ok v s₁) (hd : operandDest sz o s₁ = .ok d s₂) :
    modify row sz o k f s = .ok () (setFlags row v k (f v) (s₂.store d sz (f v))) := by
  simp [modify, hv, writeOperand_ok hd]

/-! ## The stack and trap entry -/

theorem push_ok {sz : Size} {v : BitVec sz.bits} {s t : State} (h : push sz v s = .ok () t) :
    ∃ d u, memDest sz (s.reg rsp - BitVec.ofNat 32 sz.bytes) s = .ok d u ∧
      t = (u.store d sz v).setReg rsp (s.reg rsp - BitVec.ofNat 32 sz.bytes) := by
  unfold push at h
  obtain ⟨d, u, hd, h⟩ := Res.bind_eq_ok.1 h
  exact ⟨d, u, hd, (Res.ok.inj h).2.symm⟩

theorem push_off {s : State} (h : s.mmuEn = false) {sz : Size} (v : BitVec sz.bits)
    (hw : Writable s (addrs (s.reg rsp - BitVec.ofNat 32 sz.bytes) sz.bytes)) :
    push sz v s = .ok () ((s.store (.mem (addrs (s.reg rsp - BitVec.ofNat 32 sz.bytes) sz.bytes)) sz v).setReg rsp
      (s.reg rsp - BitVec.ofNat 32 sz.bytes)) := by
  simp [push, memDest_off h hw]

theorem pop_ok {sz : Size} {v : BitVec sz.bits} {s t : State} (h : pop sz s = .ok v t) :
    ∃ u, memRead sz (s.reg rsp) s = .ok v u ∧ t = u.setReg rsp (u.reg rsp + BitVec.ofNat 32 sz.bytes) := by
  unfold pop at h
  obtain ⟨w, u, hu, h⟩ := Res.bind_eq_ok.1 h
  obtain ⟨rfl, rfl⟩ := Res.ok.inj h
  exact ⟨u, hu, rfl⟩

/-- Trap entry answers a next state exactly when the vector is read, holds a handler, and the frame is pushed (R245). -/
theorem enter_next {vector saved w : Word} {s u : State} :
    enter vector saved w s = .next u ↔
      ∃ h s₁ s₂, memRead .word vector s = .ok h s₁ ∧ h ≠ 0#32 ∧ pushFrame saved w s₁ = .ok () s₂ ∧ u = s₂.enterHandler h := by
  unfold enter
  cases hr : memRead .word vector s with
  | ok h s₁ =>
    by_cases h0 : h = (0#32 : Word)
    · simp only [Res.bind_ok, if_pos h0]
      constructor
      · intro h; cases h
      · rintro ⟨h', s₁', s₂, e, hne, -⟩
        obtain ⟨rfl, rfl⟩ := Res.ok.inj e
        exact absurd h0 hne
    · simp only [Res.bind_ok, if_neg h0]
      cases hp : pushFrame saved w s₁ with
      | ok a s₂ =>
        simp only [Res.bind_ok]
        constructor
        · intro e
          exact ⟨h, s₁, s₂, rfl, h0, hp, (Host.Outcome.next.inj e).symm⟩
        · rintro ⟨h', s₁', s₂', e, -, e', rfl⟩
          obtain ⟨rfl, rfl⟩ := Res.ok.inj e
          rw [hp] at e'
          obtain ⟨-, rfl⟩ := Res.ok.inj e'
          rfl
      | raised e t =>
        simp only [Res.bind_raised]
        constructor
        · intro e; cases e
        · rintro ⟨h', s₁', s₂', e, -, e', -⟩
          obtain ⟨rfl, rfl⟩ := Res.ok.inj e
          rw [hp] at e'
          cases e'
      | fault f =>
        simp only [Res.bind]
        constructor
        · intro e; cases e
        · rintro ⟨h', s₁', s₂', e, -, e', -⟩
          obtain ⟨rfl, rfl⟩ := Res.ok.inj e
          rw [hp] at e'
          cases e'
      | refused r =>
        simp only [Res.bind]
        constructor
        · intro e; cases e
        · rintro ⟨h', s₁', s₂', e, -, e', -⟩
          obtain ⟨rfl, rfl⟩ := Res.ok.inj e
          rw [hp] at e'
          cases e'
  | raised e t => simp [Res.bind]
  | fault f => simp [Res.bind]
  | refused r => simp [Res.bind]

end Sys2Proof.Machine
end

