-- ==== Sys2Proof/Laws/Frames.lean ====
section
/-! SUPPORT. Frames compose; what reads and translations change; what the instruction shapes complete with. -/

namespace Sys2Proof.Machine

/-! ## Frames -/

theorem Frame.setRip {s t : State} {rs st} (h : Frame s t rs st) (v : Word) : Frame s (t.setRip v) rs st :=
  ⟨h.regs, h.mem, h.flagI, h.swapSp, h.mmuEn, h.pdp, h.halted, h.tlb, h.physMap, h.busError, h.irq, h.ioLog⟩

theorem Frame.setFlags {s t : State} {rs st} (h : Frame s t rs st) {w} (row : FlagRow) (a b c : BitVec w) :
    Frame s (setFlags row a b c t) rs st :=
  ⟨h.regs, h.mem, h.flagI, h.swapSp, h.mmuEn, h.pdp, h.halted, h.tlb, h.physMap, h.busError, h.irq, h.ioLog⟩

/-- A frame may always be read as a larger one. -/
theorem Frame.weaken {s t : State} {rs st rs' st'} (h : Frame s t rs st) (hr : ∀ r ∈ rs, r ∈ rs') (hs : ∀ p ∈ st, p ∈ st') :
    Frame s t rs' st' :=
  ⟨fun r hn => h.regs r fun hm => hn (hr r hm), fun a hn => h.mem a fun p hp => hn p (hs p hp),
   h.flagI, h.swapSp, h.mmuEn, h.pdp, h.halted, h.tlb, h.physMap, h.busError, h.irq, h.ioLog⟩

theorem frame_setReg (s : State) (r : RegNo) (v : Word) : Frame s (s.setReg r v) [r] [] :=
  ⟨fun q hq => s.reg_setReg_other _ (by simpa using hq), fun _ _ => rfl, rfl, rfl, rfl, rfl, rfl, fun _ => rfl, rfl, rfl, rfl, rfl⟩

/-! ## What reads and translations change -/

/-- `t` is `s` after reads, translations and draws: only cached translations may differ, still one for each page,
and with the MMU disabled not even they. -/
structure Fills (s t : State) : Prop where
  same : SameButFills s t
  off : s.mmuEn = false → t.tlb = s.tlb
  uniq : TlbUnique s.tlb → TlbUnique t.tlb

theorem Fills.refl (s : State) : Fills s s := ⟨.refl s, fun _ => rfl, id⟩

theorem Fills.trans {s t u : State} (h : Fills s t) (h' : Fills t u) : Fills s u :=
  ⟨h.same.trans h'.same, fun hm => (h'.off (h.same.mmuEn.trans hm)).trans (h.off hm), fun hu => h'.uniq (h.uniq hu)⟩

theorem Fills.drawn (s : State) : Fills s s.drawn := ⟨rfl, fun _ => rfl, id⟩

theorem Fills.keepFills {s t : State} (h : Fills s t) : Fills s (s.keepFills t) := ⟨rfl, h.off, h.uniq⟩

theorem Fills.frame {s t : State} (h : Fills s t) (rs : List RegNo) (st : List Word) : Frame s t rs st :=
  h.same.frame h.off rs st

theorem Fills.holds {s s' t : State} (h : Fills s s') {d : Dest} {sz : Size} {v : BitVec sz.bits} (hh : Holds s' t d sz v) :
    Holds s t d sz v := by
  cases d with
  | reg r => exact ⟨hh.1, hh.2.trans (by rw [h.same.reg])⟩
  | mem pas => exact fun p hp hk => hh p hp (by rw [h.same.physMap]; exact hk)

theorem translate_allFills (kind : AccessKind) (va : Word) (s : State) : (translate kind va s).All (Fills s) := by
  have h1 := translate_fills kind va s
  have h2 : TlbUnique s.tlb → _ := translate_tlbUnique kind va (s := s)
  have h3 : s.mmuEn = false → (translate kind va s).All (· = s) := fun h => (eq_of_off s h).1 kind va
  cases e : translate kind va s with
  | ok a t => rw [e] at h1 h2 h3; exact ⟨h1, fun h => by rw [show t = s from h3 h], h2⟩
  | raised x t => rw [e] at h1 h2 h3; exact ⟨h1, fun h => by rw [show t = s from h3 h], h2⟩
  | fault => trivial
  | refused => trivial

theorem memRead_allFills (sz : Size) (va : Word) (s : State) : (memRead sz va s).All (Fills s) :=
  memRead_all (.refl s) (fun va t h => (translate_allFills .read va t).mono fun _ => h.trans) fun t h => h.trans (.drawn t)

theorem memDest_allFills (sz : Size) (va : Word) (s : State) : (memDest sz va s).All (Fills s) :=
  memDest_all (.refl s) fun va t h => (translate_allFills .write va t).mono fun _ => h.trans

theorem readOperand_allFills (sz : Size) (o : Operand) (s : State) : (readOperand sz o s).All (Fills s) :=
  readOperand_all (.refl s) (fun va t h => (translate_allFills .read va t).mono fun _ => h.trans) fun t h => h.trans (.drawn t)

theorem operandDest_allFills (sz : Size) (o : Operand) (s : State) : (operandDest sz o s).All (Fills s) :=
  operandDest_all (.refl s) fun va t h => (translate_allFills .write va t).mono fun _ => h.trans

theorem readBoth_allFills (sz : Size) (src tgt : Operand) (s : State) : (readBoth sz src tgt s).All (Fills s) :=
  (readOperand_allFills sz src s).bind fun _ t _ h =>
    ((readOperand_allFills sz tgt t).mono fun _ => h.trans).bind fun _ _ _ h' => h'

theorem memRead_ok {sz : Size} {va : Word} {s t : State} {v : BitVec sz.bits} (h : memRead sz va s = .ok v t) : Fills s t := by
  have := memRead_allFills sz va s
  rw [h] at this
  exact this

theorem readOperand_okFills {sz : Size} {o : Operand} {s t : State} {v : BitVec sz.bits} (h : readOperand sz o s = .ok v t) :
    Fills s t := by
  have := readOperand_allFills sz o s
  rw [h] at this
  exact this

theorem operandDest_okFills {sz : Size} {o : Operand} {s t : State} {d : Dest}
    (h : operandDest sz o s = .ok d t) : Fills s t := by
  have := operandDest_allFills sz o s
  rw [h] at this
  exact this

/-- A destination that is a register is the operand's register. -/
theorem operandDest_regs {sz : Size} {o : Operand} {s t : State} {d : Dest} (h : operandDest sz o s = .ok d t) : ∀ r ∈ d.regs,
    o = .reg r := by
  cases o with
  | reg q => cases h; simp [Dest.regs]
  | imm v => cases h
  | ptr q b => obtain ⟨_, _, pas, rfl⟩ := memDest_ok h; simp [Dest.regs]
  | immPtr a => obtain ⟨_, _, pas, rfl⟩ := memDest_ok h; simp [Dest.regs]

/-! ## Pushes -/

/-- A push changes rsp and the bytes of RAM it stores to (R73). -/
theorem push_frame {sz : Size} {v : BitVec sz.bits} {s t : State} (h : push sz v s = .ok () t) : Frame s t [rsp] (pushPlace sz s) := by
  obtain ⟨d, u, hd, rfl⟩ := push_ok h
  have hf : Fills s u := by
    have := memDest_allFills sz (s.reg rsp - BitVec.ofNat 32 sz.bytes) s
    rw [hd] at this
    exact this
  obtain ⟨-, -, pas, rfl⟩ := memDest_ok hd
  have hp : pushPlace sz s = pas := by simp [pushPlace, hd, Dest.stored]
  rw [hp]
  exact ((hf.frame _ _).trans ((store_frame u (.mem pas) sz v).weaken (by simp [Dest.regs]) (by simp [Dest.stored]))).trans
    ((frame_setReg _ _ _).weaken (by simp) (by simp))

theorem pushPlaces_cons {sz : Size} {v : BitVec sz.bits} {vs : List ((sz : Size) × BitVec sz.bits)} {s t : State}
    (h : push sz v s = .ok () t) : pushPlaces (⟨sz, v⟩ :: vs) s = pushPlace sz s ++ pushPlaces vs t := by
  simp [pushPlaces, h]

/-! ## Completing -/

/-- An instruction that stores its result and ends in a state that differs from the stored one in flags alone. -/
theorem completes_of {i : Instr} {s u : State} {sz : Size} {d : Dest} {r : BitVec sz.bits} {z c : Bool}
    (hi : Inv s) (hn : Fills s u) (hd : d.Valid u sz)
    (t : State) (he : exec i s = .next (t.setRip (s.next i.length)))
    (ht : t.regs = (u.store d sz r).regs ∧ t.mem = (u.store d sz r).mem ∧ Frame (u.store d sz r) t [] [])
    (hz : t.flagZ = z) (hc : t.flagC = c) : Completes i s d sz r z c := by
  refine ⟨_, he, ?_, ?_, hz, hc, rfl⟩
  · have hm : Memory.wf u.mem = true := by rw [hn.1.mem]; exact hi.1
    have hh := store_holds hm hd r
    apply hn.holds
    cases d with
    | reg q =>
      have : (t.setRip (s.next i.length)).reg q = (u.store (.reg q) sz r).reg q := ht.2.2.regs q (by simp)
      exact ⟨by rw [this]; exact hh.1, by rw [this]; exact hh.2⟩
    | mem pas =>
      intro p hp hk
      show Memory.read t.mem _ = _
      rw [ht.2.1]; exact hh p hp hk
  · exact (((hn.frame d.regs d.stored).trans (store_frame u d sz r)).trans (ht.2.2.weaken (by simp) (by simp))).setRip _

/-- What an instruction of the shape `combine` completes with. -/
theorem completes_combine {i : Instr} {row : FlagRow} {sz : Size} {c : Cond} {src tgt : Operand}
    {f : BitVec sz.bits → BitVec sz.bits → State → Res (BitVec sz.bits)} {s s₁ s₂ s₃ s₄ : State} {v t r : BitVec sz.bits}
    {d : Dest} {z cc : Bool} (he : exec i s = advancing c i.length s (combine row sz src tgt f s))
    (hi : Inv s) (hc : condHolds c s = true)
    (hv : readOperand sz src s = .ok v s₁) (ht : readOperand sz tgt s₁ = .ok t s₂) (hf : f t v s₂ = .ok r s₃) (hn : Fills s₂ s₃)
    (hd : operandDest sz tgt s₃ = .ok d s₄)
    (hz : zAfter (flagPolicy row).z t v r s.flagZ = z) (hcc : cAfter (flagPolicy row).c t v s.flagC = cc) :
    Completes i s d sz r z cc := by
  have hN : Fills s s₄ := (((readOperand_okFills hv).trans (readOperand_okFills ht)).trans hn).trans (operandDest_okFills hd)
  apply completes_of hi hN (operandDest_ok hd).2.2 (setFlags row t v r (s₄.store d sz r))
  · rw [he, advancing_ok hc (combine_ok hv ht hf hd)]
  · exact ⟨rfl, rfl, (Frame.refl _ _ _).setFlags _ _ _ _⟩
  · rw [← hz, ← hN.1.flagZ]; cases d <;> rfl
  · rw [← hcc, ← hN.1.flagC]; cases d <;> rfl

/-- What an instruction of the shape `combineNoFlags` completes with. -/
theorem completes_combineNoFlags {i : Instr} {sz : Size} {c : Cond} {src tgt : Operand}
    {f : BitVec sz.bits → BitVec sz.bits → State → Res (BitVec sz.bits)} {s s₁ s₂ s₃ s₄ : State} {v t r : BitVec sz.bits}
    {d : Dest} (he : exec i s = advancing c i.length s (combineNoFlags sz src tgt f s))
    (hi : Inv s) (hc : condHolds c s = true)
    (hv : readOperand sz src s = .ok v s₁) (ht : readOperand sz tgt s₁ = .ok t s₂) (hf : f t v s₂ = .ok r s₃) (hn : Fills s₂ s₃)
    (hd : operandDest sz tgt s₃ = .ok d s₄) :
    Completes i s d sz r s.flagZ s.flagC := by
  have hN : Fills s s₄ := (((readOperand_okFills hv).trans (readOperand_okFills ht)).trans hn).trans (operandDest_okFills hd)
  apply completes_of hi hN (operandDest_ok hd).2.2 (s₄.store d sz r)
  · rw [he, advancing_ok hc (combineNoFlags_ok hv ht hf hd)]
  · exact ⟨rfl, rfl, Frame.refl _ _ _⟩
  · rw [← hN.1.flagZ]; cases d <;> rfl
  · rw [← hN.1.flagC]; cases d <;> rfl

/-- What an instruction of the shape `modify` completes with. -/
theorem completes_modify {i : Instr} {row : FlagRow} {sz : Size} {c : Cond} {o : Operand} {k : BitVec sz.bits}
    {f : BitVec sz.bits → BitVec sz.bits} {s s₁ s₂ : State} {v : BitVec sz.bits}
    {d : Dest} {z cc : Bool} (he : exec i s = advancing c i.length s (modify row sz o k f s))
    (hi : Inv s) (hc : condHolds c s = true)
    (hv : readOperand sz o s = .ok v s₁) (hd : operandDest sz o s₁ = .ok d s₂)
    (hz : zAfter (flagPolicy row).z v k (f v) s.flagZ = z) (hcc : cAfter (flagPolicy row).c v k s.flagC = cc) :
    Completes i s d sz (f v) z cc := by
  have hN : Fills s s₂ := (readOperand_okFills hv).trans (operandDest_okFills hd)
  apply completes_of hi hN (operandDest_ok hd).2.2 (setFlags row v k (f v) (s₂.store d sz (f v)))
  · rw [he, advancing_ok hc (modify_ok hv hd)]
  · exact ⟨rfl, rfl, (Frame.refl _ _ _).setFlags _ _ _ _⟩
  · rw [← hz, ← hN.1.flagZ]; cases d <;> rfl
  · rw [← hcc, ← hN.1.flagC]; cases d <;> rfl

end Sys2Proof.Machine
end

