-- ==== Sys2Proof/Laws/Access.lean ====
section
/-! SUPPORT. What memory accesses read and where they stop, in the terms of the statements; everything a translation can be; that
reads do not look at the registers. -/

namespace Sys2Proof.Machine

theorem addrs4 (a : Word) : addrs a 4 = [a, a + 1, a + 2, a + 3] := by
  simp [addrs, List.range_succ]

/-- The word at an address is the value of its four bytes. -/
theorem wordAt_le (s : State) (a : Word) : BitVec.ofNat 32 (leNat (bytesAt s a 4)) = wordAt s a := by
  simp only [bytesAt, addrs4, Memory.readBytes, List.map, leNat, wordAt]
  apply BitVec.eq_of_toNat_eq
  simp only [BitVec.toNat_append, BitVec.toNat_ofNat]
  have h0 := (Memory.read s.mem a.toNat).isLt
  have h1 := (Memory.read s.mem (a+1).toNat).isLt
  have h2 := (Memory.read s.mem (a+2).toNat).isLt
  have h3 := (Memory.read s.mem (a+3).toNat).isLt
  generalize (Memory.read s.mem a.toNat).toNat = x0 at *
  generalize (Memory.read s.mem (a+1).toNat).toNat = x1 at *
  generalize (Memory.read s.mem (a+2).toNat).toNat = x2 at *
  generalize (Memory.read s.mem (a+3).toNat).toNat = x3 at *
  rw [← Nat.shiftLeft_add_eq_or_of_lt h2, ← Nat.shiftLeft_add_eq_or_of_lt h1, ← Nat.shiftLeft_add_eq_or_of_lt h0]
  simp only [Nat.shiftLeft_eq]
  omega

/-- A narrow read at an address is the low bits of the word there. -/
theorem leNat_take (s : State) (a : Word) (sz : Size) :
    BitVec.ofNat sz.bits (leNat (bytesAt s a sz.bytes)) = (wordAt s a).extractLsb' 0 sz.bits := by
  have key : ∀ (m : Memory) (a : Word) (n k : Nat), leNat (Memory.readBytes m (addrs a n)) = leNat (Memory.readBytes m
      (addrs a (n + k))) % 256 ^ n := by
    intro m a n k
    rw [← addrs_append]
    simp only [Memory.readBytes, List.map_append]
    have : ∀ (xs ys : List Byte), leNat (xs ++ ys) % 256 ^ xs.length = leNat xs := by
      intro xs ys
      induction xs with
      | nil => simp [leNat, Nat.mod_one]
      | cons x xs ih =>
        simp only [List.cons_append, leNat, List.length_cons]
        rw [pow_succ' 256, Nat.mod_mul]
        have hx := x.isLt
        rw [show (x.toNat + 256 * leNat (xs ++ ys)) % 256 = x.toNat by omega,
          show (x.toNat + 256 * leNat (xs ++ ys)) / 256 = leNat (xs ++ ys) by omega, ih]
    have h := this ((addrs a n).map fun pa => Memory.read m pa.toNat) ((addrs
        (a + BitVec.ofNat 32 n) k).map fun pa => Memory.read m pa.toNat)
    rw [List.length_map, length_addrs] at h
    exact h.symm
  rw [← wordAt_le]
  apply BitVec.eq_of_toNat_eq
  rw [bytesAt, key s.mem a sz.bytes (4 - sz.bytes)]
  have h4 : sz.bytes + (4 - sz.bytes) = 4 := by cases sz <;> rfl
  rw [h4]
  simp only [BitVec.extractLsb'_toNat, BitVec.toNat_ofNat, Nat.shiftRight_zero, bytesAt]
  rw [size_two_pow_bits]
  rw [Nat.mod_mod, Nat.mod_mod_of_dvd]
  cases sz <;> norm_num

/-- A read with the MMU disabled. -/
theorem memRead_off_wordAt {s : State} (h : s.mmuEn = false) {sz : Size} {va : Word} (hr : Readable s (addrs va sz.bytes)) :
    memRead sz va s = .ok ((wordAt s va).extractLsb' 0 sz.bits) s := by
  rw [memRead_off h hr, leNat_take]

/-- Where a read stops (R71): it meets an address without memory, and the platform has no step for that. -/
theorem readFault_some {map : List Region} {be : BusError} {pas : List Word} (h : ¬ ∀ pa ∈ pas, kindAt map pa ≠ none)
    (hb : be.readNone = .noStep) : ∃ pa ∈ pas, kindAt map pa = none ∧ readFault map be pas = some (.noMemory pa) := by
  cases hf : readFault map be pas with
  | none =>
    refine absurd (fun pa hp hk => ?_) h
    have := readStop_eq_none.1 (readFault_eq_none.1 hf pa hp) hk
    rw [hb] at this
    cases this
  | some f =>
    obtain ⟨pa, hp, hs⟩ := List.exists_of_findSome?_eq_some hf
    obtain ⟨hk, -, rfl⟩ := readStop_eq_some.1 hs
    exact ⟨pa, hp, hk, rfl⟩

/-- Where a write stops (R71). -/
theorem writeFault_some {map : List Region} {be : BusError} {pas : List Word}
    (h : ∃ pa ∈ pas, (kindAt map pa = none ∧ be.writeNone = .noStep) ∨ (kindAt map pa = some .rom ∧ be.writeRom = .noStep)) :
    ∃ pa ∈ pas, (kindAt map pa = none ∧ writeFault map be pas = some (.noMemory pa)) ∨
        (kindAt map pa = some .rom ∧ writeFault map be pas = some (.romWrite pa)) := by
  cases hf : writeFault map be pas with
  | none =>
    obtain ⟨pa, hp, hk⟩ := h
    have := writeStop_eq_none.1 (writeFault_eq_none.1 hf pa hp)
    rcases hk with ⟨hk, hb⟩ | ⟨hk, hb⟩ <;> simp [hk, hb] at this
  | some f =>
    obtain ⟨pa, hp, hs⟩ := List.exists_of_findSome?_eq_some hf
    rcases writeStop_eq_some.1 hs with ⟨hk, -, rfl⟩ | ⟨hk, -, rfl⟩
    · exact ⟨pa, hp, .inl ⟨hk, rfl⟩⟩
    · exact ⟨pa, hp, .inr ⟨hk, rfl⟩⟩

theorem bytesAt_store {s : State} (hi : Inv s) {a : Word} (hw : Writable s (addrs a 4)) (v : Word) :
    bytesAt (s.store (.mem (addrs a 4)) .word v) a 4 = leBytes 4 v.toNat :=
  Memory.readBytes_writeRam hi.1 (addrs_nodup a (by norm_num)) (by simp) hw

/-- A stored word is read back. -/
theorem wordAt_store {s : State} (hi : Inv s) {a : Word} (hw : Writable s (addrs a 4)) (v : Word) :
    wordAt (s.store (.mem (addrs a 4)) .word v) a = v := by
  rw [← wordAt_le, bytesAt_store hi hw, leNat_leBytes]
  apply BitVec.eq_of_toNat_eq
  have := v.isLt
  simp; omega

theorem physRead_eq {s : State} {a : Word} (h : Readable s (addrs a 4)) (use : BusUse) :
    physRead32 use s a = .ok (wordAt s a) := by
  unfold physRead32
  rw [readFault_readable _ h, State.busBytes_readable h, ← wordAt_le]; rfl

theorem mem_addrs_mono {a : Word} {m n : Nat} (h : m ≤ n) : ∀ p ∈ addrs a m, p ∈ addrs a n := by
  intro p hp
  rw [← Nat.add_sub_cancel' h, ← addrs_append]
  exact List.mem_append_left _ hp

/-! ## Translation, by cases -/

/-- Everything a translation can be with the MMU enabled (R80, R83): the use of an entry held for the page, or a walk. -/
theorem translate_cases {kind : AccessKind} {va : Word} {s : State} (hm : s.mmuEn = true) :
    (∃ e ∈ s.tlb, e.vpn = vpnOf va ∧ translate kind va s = applyEntry kind va e s.forgetSome) ∨
    translate kind va s = match walk s va with
      | .error f => .fault f
      | .ok none => .raised (pageFault kind va) s.forgetSome
      | .ok (some e) => applyEntry kind va e (s.forgetSome.mayFill s.draws e) := by
  unfold translate
  rw [if_pos hm]
  dsimp only
  cases h : s.forgetSome.tlb.find? fun e => e.vpn == vpnOf va with
  | none => exact .inr rfl
  | some e =>
    exact .inl ⟨e, (List.mem_filter.1 (List.mem_of_find?_eq_some h)).1, by simpa using List.find?_some h, rfl⟩

theorem applyEntry_readOnly {va : Word} {e : TlbEntry} (h : e.writable = false) (s : State) :
    applyEntry .write va e s = .raised (.pageFaultWrite va) s := by
  simp [applyEntry, h, pageFault]

theorem applyEntry_allows {kind : AccessKind} {va : Word} {e : TlbEntry} (h : kind = .write → e.writable = true) (s : State) :
    applyEntry kind va e s = .ok (joinPage e.ppn va) s := by
  unfold applyEntry
  rw [if_neg]
  rintro ⟨hk, hw⟩
  rw [h hk] at hw
  cases hw

/-- A page that is in no entry and not in the tables faults (R80). -/
theorem translate_absent {kind : AccessKind} {va : Word} {s : State} (hm : s.mmuEn = true) (ht : ∀ e ∈ s.tlb, e.vpn ≠ vpnOf va)
    (hw : walk s va = .ok none) : translate kind va s = .raised (pageFault kind va) s.forgetSome := by
  rcases translate_cases (kind := kind) (va := va) hm with ⟨e, he, hv, -⟩ | h
  · exact absurd hv (ht e he)
  · rw [h, hw]

/-- A write to a page that the tables and every entry held for it say is not writable faults (R80, R83). -/
theorem translate_readOnly {va : Word} {s : State} {e : TlbEntry} (hm : s.mmuEn = true)
    (ht : ∀ e' ∈ s.tlb, e'.vpn = vpnOf va → e'.writable = false) (hw : walk s va = .ok (some e)) (he : e.writable = false) :
    ∃ t, translate .write va s = .raised (.pageFaultWrite va) t := by
  rcases translate_cases (kind := .write) (va := va) hm with ⟨e', he', hv, h⟩ | h
  · exact ⟨_, h.trans (applyEntry_readOnly (ht e' he' hv) _)⟩
  · rw [h, hw]
    exact ⟨_, applyEntry_readOnly he _⟩

/-- A page that the tables map, where no other entry is held for it, is translated; what is then held was held before or is that
page's entry (R80, R83). -/
theorem translate_present {kind : AccessKind} {va : Word} {s : State} {e : TlbEntry} (hm : s.mmuEn = true)
    (ht : ∀ e' ∈ s.tlb, e'.vpn = vpnOf va → e' = e) (hw : walk s va = .ok (some e)) (he : kind = .write → e.writable = true) :
    ∃ t, translate kind va s = .ok (joinPage e.ppn va) t ∧ ∀ e' ∈ t.tlb, e' ∈ s.tlb ∨ e' = e := by
  have hf : ∀ e' ∈ s.forgetSome.tlb, e' ∈ s.tlb := fun e' h => (List.mem_filter.1 h).1
  rcases translate_cases (kind := kind) (va := va) hm with ⟨e', he', hv, h⟩ | h
  · obtain rfl := ht e' he' hv
    exact ⟨_, h.trans (applyEntry_allows he _), fun e'' h'' => .inl (hf e'' h'')⟩
  · rw [h, hw]
    refine ⟨_, applyEntry_allows he _, fun e'' h'' => ?_⟩
    unfold State.mayFill at h''
    split at h''
    · rcases List.mem_cons.1 h'' with h'' | h''
      · exact .inr h''
      · exact .inl (hf e'' h'')
    · exact .inl (hf e'' h'')

/-- An access whose first page faults faults so (R64, R85). -/
theorem memRead_of_raised {sz : Size} {s t : State} {va : Word} {e : Exn} (h : translate .read va s = .raised e t) :
    memRead sz va s = .raised e t := by
  simp [memRead, translateRange, h]

theorem memDest_of_raised {sz : Size} {s t : State} {va : Word} {e : Exn} (h : translate .write va s = .raised e t) :
    memDest sz va s = .raised e t := by
  simp [memDest, translateRange, h]

/-! ## Translations and reads do not look at the registers -/

/-- A result with one register of its state set. -/
def Res.withReg {α : Type} (r : RegNo) (v : Word) : Res α → Res α
  | .ok a s => .ok a (s.setReg r v)
  | .raised e s => .raised e (s.setReg r v)
  | .fault f => .fault f
  | .refused q => .refused q

theorem Res.bind_withReg {α β : Type} {r : RegNo} {v : Word} (x : Res α) {k : α → State → Res β}
    (h : ∀ a s, k a (s.setReg r v) = (k a s).withReg r v) : (x.withReg r v).bind k = (x.bind k).withReg r v := by
  cases x with
  | ok a s => exact h a s
  | _ => rfl

theorem applyEntry_setReg (k : AccessKind) (va : Word) (e : TlbEntry) (s : State) (r : RegNo) (v : Word) :
    applyEntry k va e (s.setReg r v) = (applyEntry k va e s).withReg r v := by
  unfold applyEntry
  split <;> rfl

theorem mayFill_setReg (s : State) (n : Nat) (e : TlbEntry) (r : RegNo) (v : Word) :
    (s.setReg r v).mayFill n e = (s.mayFill n e).setReg r v := by
  unfold State.mayFill
  split <;> rfl

theorem translate_setReg (k : AccessKind) (va : Word) (s : State) (r : RegNo) (v : Word) :
    translate k va (s.setReg r v) = (translate k va s).withReg r v := by
  by_cases hm : s.mmuEn = true
  · unfold translate
    rw [if_pos hm, if_pos (show (s.setReg r v).mmuEn = true from hm)]
    dsimp only
    rw [show (s.setReg r v).forgetSome = s.forgetSome.setReg r v from rfl]
    rw [show (s.forgetSome.setReg r v).tlb = s.forgetSome.tlb from rfl]
    split
    · exact applyEntry_setReg ..
    · rw [show walk (s.setReg r v) va = walk s va from rfl]
      split
      · rfl
      · rfl
      · rw [show (s.setReg r v).draws = s.draws from rfl, mayFill_setReg]
        exact applyEntry_setReg ..
  · have hm : s.mmuEn = false := by simpa using hm
    rw [translate_off hm, translate_off (s := s.setReg r v) hm]
    rfl

theorem afterRead_setReg (s : State) (pas : List Word) (r : RegNo) (v : Word) :
    (s.setReg r v).afterRead pas = (s.afterRead pas).setReg r v :=
  (apply_ite (fun t : State => t.setReg r v) _ s.drawn s).symm

/-- A read gives the same, whatever a register holds. -/
theorem memRead_setReg (sz : Size) (va : Word) (s : State) (r : RegNo) (v : Word) :
    memRead sz va (s.setReg r v) = (memRead sz va s).withReg r v := by
  have hr : translateRange .read va sz.bytes (s.setReg r v) = (translateRange .read va sz.bytes s).withReg r v := by
    unfold translateRange
    dsimp only
    rw [translate_setReg]
    refine Res.bind_withReg _ fun a t => ?_
    split
    · rfl
    · rw [translate_setReg]
      exact Res.bind_withReg _ fun _ _ => rfl
  unfold memRead
  rw [hr]
  refine Res.bind_withReg _ fun pas t => ?_
  rw [show (t.setReg r v).physMap = t.physMap from rfl, show (t.setReg r v).busError = t.busError from rfl]
  split
  · rfl
  · rw [afterRead_setReg]
    rfl

end Sys2Proof.Machine
end

