-- ==== Sys2Proof/Laws/Decode.lean ====
section
/-! SUPPORT. What decoding gives, piece by piece, and that encoded pieces are read back. -/

namespace Sys2Proof

theorem takeLe_some {n : Nat} {bs rest : List Byte} {v : Nat} (h : takeLe n bs = some (v, rest)) :
    n ≤ bs.length ∧ rest = bs.drop n ∧ v < 256 ^ n := by
  induction n generalizing bs v with
  | zero => cases h; simp
  | succ n ih =>
    cases bs with
    | nil => cases h
    | cons b bs =>
      simp only [takeLe] at h
      split at h
      · next v' r' e =>
        cases h
        obtain ⟨h1, h2, h3⟩ := ih e
        have := b.isLt
        refine ⟨by simp; omega, by simp [h2], ?_⟩
        rw [pow_succ]; omega
      · cases h

/-- What a decoded operand is: its type, its length, the bytes left. -/
theorem decodeOperand_ok {ty off n bs o rest} (h : decodeOperand ty off n bs = .ok (o, rest)) :
    ty.len off n ≤ bs.length ∧ rest = bs.drop (ty.len off n) ∧ o.len n = ty.len off n ∧ (n ≤ 4 → o.fits n = true) ∧ o.ty = ty ∧
      (ty = .ptr → o.hasOff = off) ∧ (ty ≠ .ptr → o.hasOff = false) := by
  unfold decodeOperand at h
  cases ty with
  | reg =>
    cases bs with
    | nil => cases h
    | cons b bs =>
      simp only at h
      split at h
      · cases h
      · cases h; simp [OperandType.len, Operand.len, Operand.fits, Operand.ty, Operand.hasOff]
  | ptr =>
    cases bs with
    | nil => cases h
    | cons b bs =>
      simp only at h
      split at h
      · cases h
      · split at h
        · next ho =>
          cases bs with
          | nil => cases h
          | cons b2 bs => cases h; simp [OperandType.len, Operand.len, Operand.fits, Operand.ty, Operand.hasOff, ho]
        · next ho => cases h; simp [OperandType.len, Operand.len, Operand.fits, Operand.ty, Operand.hasOff, ho]
  | imm =>
    simp only at h
    split at h
    · cases h
    · next v r e =>
      cases h
      obtain ⟨h1, h2, h3⟩ := takeLe_some e
      refine ⟨h1, h2, rfl, fun h4 => ?_, rfl, by simp, by simp [Operand.hasOff]⟩
      simp only [Operand.fits, BitVec.toNat_ofNat, decide_eq_true_eq]
      exact lt_of_le_of_lt (Nat.mod_le _ _) h3
  | immPtr =>
    simp only at h
    split at h
    · cases h
    · next v r e =>
      cases h
      obtain ⟨h1, h2, h3⟩ := takeLe_some e
      exact ⟨h1, h2, rfl, fun _ => rfl, rfl, by simp, by simp [Operand.hasOff]⟩

/-- What a decoded control word is. -/
theorem decodeHead_ok {w h} (e : decodeHead w = .ok h) :
    Op.ofCode (CtlWord.ofBits w).opcode = some h.op ∧ h.op.sizeOf (CtlWord.ofBits w).size = some h.size ∧
    Cond.ofBits (CtlWord.ofBits w).cond = some h.cond ∧ h.off = ((CtlWord.ofBits w).off == 1#1) ∧ h.tgt = (CtlWord.ofBits w).tgt ∧
    h.src = (CtlWord.ofBits w).src ∧ h.immediateDestination = false := by
  unfold decodeHead at e
  simp only at e
  split at e
  · cases e
  · split at e
    · cases e
    · split at e
      · cases e
      · split at e
        · cases e
        · next h1 _ _ h2 _ _ h3 h4 =>
          cases e
          exact ⟨h1, h2, h3, rfl, rfl, rfl, by simpa using h4⟩

theorem Op.sizeOf_eq_word {o : Op} {b sz} (h : o.sizeOf b = some sz) : o.wordOnly = true → sz = .word := by
  unfold Op.sizeOf at h
  split at h
  · split at h
    · cases h
    · next hn => cases h; intro hw; simpa [hw] using hn
  · cases h

/-- The size of a valid (opcode, size) pair is the one its field names. -/
theorem Op.sizeOf_ofBits {o : Op} {b sz} (h : o.sizeOf b = some sz) : Size.ofBits b = some sz := by
  unfold Op.sizeOf at h
  split at h
  · split at h
    · cases h
    · next e _ => rw [e]; exact h
  · cases h

theorem toInstr_form_zero (o : ZeroOp) (sz c) (hw : (Op.zero o).wordOnly = true → sz = .word) :
    (o.toInstr sz c).form = .zero o sz c := by
  cases o <;> first | rfl | (cases hw rfl; rfl)

theorem toInstr_form_one (o : OneOp) (sz c amt src) (hw : (Op.one o).wordOnly = true → sz = .word) :
    ∃ a, (o.toInstr sz c amt src).form = .one o sz c a src ∧ (o = .inc ∨ o = .dec → a = amt) := by
  cases o <;> first | exact ⟨_, rfl, by simp⟩ | (cases hw rfl; exact ⟨_, rfl, by simp⟩)

theorem toInstr_form_two (o : TwoOp) (sz c src tgt) (hw : (Op.two o).wordOnly = true → sz = .word) :
    (o.toInstr sz c src tgt).form = .two o sz c src tgt := by
  cases o <;> first | rfl | (cases hw rfl; rfl)

theorem writable_of_ty {o : Operand} (h : (o.ty == .imm) = false) : o.writable = true := by
  cases o <;> simp_all [Operand.ty, Operand.writable]

theorem OperandType.ofBits_toBits (t : OperandType) : OperandType.ofBits t.toBits = t := by cases t <;> rfl

/-- What a decoded instruction is: well-formed, of the length and condition its control word says. -/
theorem decodeBody_ok {w h bs i rest} (eh : decodeHead w = .ok h) (e : decodeBody h bs = .ok (i, rest)) :
    i.wellFormed = true ∧ i.length = h.length ∧ h.bodyLen ≤ bs.length ∧ rest = bs.drop h.bodyLen ∧ i.cond = h.cond := by
  obtain ⟨h1, h2, h3, h4, h5, h6, h7⟩ := decodeHead_ok eh
  have hw := Op.sizeOf_eq_word h2
  unfold decodeBody at e
  obtain ⟨op, sz, c, off, tg, sr⟩ := h
  simp only at *
  cases op with
  | zero o =>
    cases e
    have hf := toInstr_form_zero o sz c hw
    refine ⟨?_, ?_, Nat.zero_le _, rfl, ?_⟩
    · simp [Instr.wellFormed, hf, Form.wellFormed]
    · simp only [Instr.length, hf]; rfl
    · simp [Instr.cond, hf]
  | one o =>
    simp only at e
    split at e
    · cases e
    · next src r eo =>
      cases e
      obtain ⟨a, hf, -⟩ := toInstr_form_one o sz c tg src hw
      obtain ⟨d1, d2, d3, d4, d5, d6, d7⟩ := decodeOperand_ok eo
      refine ⟨?_, ?_, d1, d2, ?_⟩
      · simp only [Instr.wellFormed, hf, Form.wellFormed, Bool.and_eq_true]
        refine ⟨d4 (by show sz.bytes ≤ 4; cases sz <;> decide), ?_⟩
        simp only [Head.immediateDestination] at h7
        cases hws : o.writesSrc with
        | false => rfl
        | true =>
          rw [hws, Bool.true_and, ← d5] at h7
          simpa using writable_of_ty h7
      · simp only [Instr.length, hf, Head.length, Head.bodyLen, d3]
      · simp [Instr.cond, hf]
  | two o =>
    simp only at e
    split at e
    · cases e
    · next src r eo =>
      split at e
      · cases e
      · next tgt r' eo' =>
        cases e
        have hf := toInstr_form_two o sz c src tgt hw
        obtain ⟨d1, d2, d3, d4, d5, d6, d7⟩ := decodeOperand_ok eo
        obtain ⟨t1, t2, t3, t4, t5, t6, t7⟩ := decodeOperand_ok eo'
        refine ⟨?_, ?_, ?_, ?_, ?_⟩
        · simp only [Instr.wellFormed, hf, Form.wellFormed, Bool.and_eq_true]
          refine ⟨⟨⟨d4 ?_, t4 (by cases sz <;> decide)⟩, ?_⟩, ?_⟩
          · unfold Op.srcImmBytes; simp only; split
            · decide
            · cases sz <;> decide
          · simp only [Head.immediateDestination] at h7
            cases hws : o.writesTgt with
            | false => rfl
            | true =>
              rw [hws, Bool.true_and, ← t5] at h7
              simpa using writable_of_ty h7
          · cases src with
            | ptr rr oo =>
              cases tgt with
              | ptr rr' oo' =>
                have a1 := d6 d5.symm
                have a2 := t6 t5.symm
                have : ∀ (r : RegNo) (o : Option Byte), (Operand.ptr r o).hasOff = o.isSome := by intro r o; cases o <;> rfl
                rw [this] at a1 a2
                simp [Operand.offAgrees, a1, a2]
              | _ => rfl
            | _ => rfl
        · simp only [Instr.length, hf, Head.length, Head.bodyLen, d3, t3]; omega
        · simp only [Head.bodyLen]
          rw [d2] at t1; simp at t1; omega
        · rw [t2, d2, List.drop_drop]; rfl
        · simp [Instr.cond, hf]

theorem decode_ok {bs i rest} (h : decode bs = .ok (i, rest)) : ∃ lo hi tl hd, bs = lo :: hi :: tl ∧ decodeHead
    (hi ++ lo) = .ok hd ∧ decodeBody hd tl = .ok (i, rest) := by
  unfold decode at h
  split at h
  · next lo hi tl =>
    split at h
    · cases h
    · next hd e => exact ⟨lo, hi, tl, hd, rfl, e, h⟩
  · cases h

theorem Op.ofCode_code (o : Op) : Op.ofCode o.code = some o := by
  cases o with
  | zero o => cases o <;> decide
  | one o => cases o <;> decide
  | two o => cases o <;> decide

theorem Op.code_of_ofCode {b : BitVec 6} {o : Op} (h : Op.ofCode b = some o) : o.code = b := by
  simpa using List.find?_some h

/-- The bits of a control word, from the lowest (R101). -/
theorem CtlWord.getLsbD_toBits (k : CtlWord) (i : Nat) :
    k.toBits.getLsbD i =
      if i < 2 then k.src.getLsbD i
      else if i - 2 < 2 then k.tgt.getLsbD (i - 2)
      else if i - 2 - 2 < 3 then k.cond.getLsbD (i - 2 - 2)
      else if i - 2 - 2 - 3 < 1 then k.off.getLsbD (i - 2 - 2 - 3)
      else if i - 2 - 2 - 3 - 1 < 6 then k.opcode.getLsbD (i - 2 - 2 - 3 - 1)
      else k.size.getLsbD (i - 2 - 2 - 3 - 1 - 6) := by
  unfold CtlWord.toBits
  rw [show ∀ x : BitVec 14, (x ++ k.src).getLsbD i = _ from fun x => BitVec.getLsbD_append]
  rw [show ∀ (x : BitVec 12) j, (x ++ k.tgt).getLsbD j = _ from fun x j => BitVec.getLsbD_append]
  rw [show ∀ (x : BitVec 9) j, (x ++ k.cond).getLsbD j = _ from fun x j => BitVec.getLsbD_append]
  rw [show ∀ (x : BitVec 8) j, (x ++ k.off).getLsbD j = _ from fun x j => BitVec.getLsbD_append]
  rw [BitVec.getLsbD_append]

/-- A field that lies in one of the two bytes of a control word is read from that byte (R101). -/
theorem extractLsb'_bytes (hi lo : Byte) (a n : Nat) (h : a + n ≤ 8) :
    (hi ++ lo : BitVec 16).extractLsb' a n = lo.extractLsb' a n ∧
    (hi ++ lo : BitVec 16).extractLsb' (8 + a) n = hi.extractLsb' a n := by
  have bit : ∀ i, BitVec.getLsbD (hi ++ lo : BitVec 16) i = _ := fun i => BitVec.getLsbD_append (x := hi) (y := lo)
  constructor <;> apply BitVec.eq_of_getLsbD_eq <;> intro i hi <;> rw [BitVec.getLsbD_extractLsb', BitVec.getLsbD_extractLsb', bit]
  · rw [if_pos (by omega)]
  · rw [if_neg (by omega), show 8 + a + i - 8 = a + i by omega]

/-- The fields of a control word are read back. -/
theorem CtlWord.ofBits_toBits (c : CtlWord) : CtlWord.ofBits c.toBits = c := by
  obtain ⟨a, b, o, d, t, s⟩ := c
  simp only [CtlWord.ofBits, CtlWord.toBits]
  congr 1 <;> ext i hi <;> simp only [BitVec.getElem_extractLsb', BitVec.getLsbD_append] <;>
    interval_cases i <;> simp

theorem Op.sizeOf_toBits (o : Op) (sz : Size) (h : o.wordOnly = true → sz = .word) : o.sizeOf sz.toBits = some sz := by
  unfold Op.sizeOf
  have : Size.ofBits sz.toBits = some sz := by cases sz <;> rfl
  rw [this]
  simp only
  rw [if_neg]
  intro hn
  simp at hn
  exact hn.2 (h hn.1)

theorem Cond.ofBits_toBits (c : Cond) : Cond.ofBits c.toBits = some c := by cases c <;> rfl

theorem Instr.form_size (i : Instr) : match i.form with
    | .zero o sz _ => (Op.zero o).wordOnly = true → sz = .word
    | .one o sz _ amt _ => ((Op.one o).wordOnly = true → sz = .word) ∧ (o = .inc ∨ o = .dec ∨ amt = 0)
    | .two o sz _ _ _ => (Op.two o).wordOnly = true → sz = .word := by
  cases i <;> simp [Instr.form, Op.wordOnly]

theorem regOfByte_val (r : RegNo) : regOfByte (BitVec.ofNat 8 r.val) = some r := by
  have : (BitVec.ofNat 8 r.val).toNat = r.val := by
    have := r.isLt
    simp; omega
  unfold regOfByte
  rw [dif_pos (by rw [this]; exact r.isLt)]
  congr 1
  exact Fin.ext this

/-- An encoded operand is read back. -/
theorem decodeOperand_encode (o : Operand) (n : Nat) (off : Bool) (rest : List Byte) (hf : o.fits n = true)
    (ho : ∀ r b, o = .ptr r b → off = b.isSome) : decodeOperand o.ty off n (encodeOperand n o ++ rest) = .ok (o, rest) := by
  cases o with
  | reg r => simp [encodeOperand, decodeOperand, Operand.ty, regOfByte_val]
  | ptr r b =>
    have := ho r b rfl
    subst this
    cases b <;> simp [encodeOperand, decodeOperand, Operand.ty, regOfByte_val]
  | imm v =>
    simp only [encodeOperand, decodeOperand, Operand.ty, takeLe_leBytes]
    simp only [Operand.fits, decide_eq_true_eq] at hf
    rw [Nat.mod_eq_of_lt hf]
    simp
  | immPtr v =>
    simp only [encodeOperand, decodeOperand, Operand.ty, takeLe_leBytes]
    have := v.isLt
    rw [Nat.mod_eq_of_lt (by omega)]
    simp

theorem decodeOperand_badRegister {ty off n l} (l') (h : decodeOperand ty off n l = .error .badRegister) :
    decodeOperand ty off n (l ++ l') = .error .badRegister := by
  cases ty with
  | reg =>
    cases l with
    | nil => cases h
    | cons b l =>
      simp only [decodeOperand, List.cons_append] at h ⊢
      cases hb : regOfByte b with
      | none => rfl
      | some r => rw [hb] at h; cases h
  | ptr =>
    cases l with
    | nil => cases h
    | cons b l =>
      simp only [decodeOperand, List.cons_append] at h ⊢
      cases hb : regOfByte b with
      | none => rfl
      | some r =>
        rw [hb] at h
        simp only at h
        split at h
        · split at h <;> cases h
        · cases h
  | imm => simp only [decodeOperand] at h; split at h <;> cases h
  | immPtr => simp only [decodeOperand] at h; split at h <;> cases h

theorem takeLe_append {n l v r} (l') (h : takeLe n l = some (v, r)) : takeLe n (l ++ l') = some (v, r ++ l') := by
  induction n generalizing l v with
  | zero => cases h; rfl
  | succ n ih =>
    cases l with
    | nil => cases h
    | cons b l =>
      simp only [takeLe, List.cons_append] at h ⊢
      split at h
      · next e => cases h; rw [ih e]
      · cases h

theorem decodeOperand_append {ty off n l o r} (l') (h : decodeOperand ty off n l = .ok (o, r)) :
    decodeOperand ty off n (l ++ l') = .ok (o, r ++ l') := by
  cases ty with
  | reg =>
    cases l with
    | nil => cases h
    | cons b l =>
      simp only [decodeOperand, List.cons_append] at h ⊢
      split at h <;> cases h
      rfl
  | ptr =>
    cases l with
    | nil => cases h
    | cons b l =>
      simp only [decodeOperand, List.cons_append] at h ⊢
      split at h
      · cases h
      · split at h
        · next ho =>
          rw [if_pos ho]
          cases l with
          | nil => cases h
          | cons c l => cases h; rfl
        · next ho => cases h; rw [if_neg ho]
  | imm =>
    simp only [decodeOperand] at h ⊢
    split at h <;> cases h
    next e => rw [takeLe_append l' e]
  | immPtr =>
    simp only [decodeOperand] at h ⊢
    split at h <;> cases h
    next e => rw [takeLe_append l' e]

/-- A register byte above 34 is refused whatever bytes follow. -/
theorem decodeBody_badRegister {h l} (l') (e : decodeBody h l = .error .badRegister) : decodeBody h
    (l ++ l') = .error .badRegister := by
  unfold decodeBody at *
  obtain ⟨op, sz, c, off, tg, sr⟩ := h
  cases op with
  | zero o => cases e
  | one o =>
    simp only at *
    split at e
    · next er e' => cases e; rw [decodeOperand_badRegister l' e']
    · cases e
  | two o =>
    simp only at *
    split at e
    · next er e' => cases e; rw [decodeOperand_badRegister l' e']
    · next e' =>
      rw [decodeOperand_append l' e']
      simp only
      split at e
      · next e'' => cases e; rw [decodeOperand_badRegister l' e'']
      · cases e

end Sys2Proof
end

