-- ==== Sys2Proof/Laws/Fetch.lean ====
section
/-! SUPPORT. What the fetch of an instruction gives and changes. -/

namespace Sys2Proof.Machine

theorem step_willFetch {s : State} (h : WillFetch s) : step s = fetchExecute s.boundary := by
  have hh : s.boundary.halted = false := h.2
  unfold step cycle
  cases hr : s.request with
  | none => simp [cpuStep, hh]
  | some v =>
    have : s.flagI = false := h.1.resolve_left (by rw [hr]; simp)
    simp [this, cpuStep, hh]

theorem fetchByte_off {s : State} (hm : s.mmuEn = false) {a : Word} (hr : kindAt s.physMap a ≠ none) : fetchByte a s = .ok
    (Memory.read s.mem a.toNat) s := by
  unfold fetchByte
  rw [memRead_off hm]
  · simp [bytesAt, addrs, Memory.readBytes, leNat]
  · intro pa hp
    simp [addrs, List.range_succ] at hp
    rw [hp]; exact hr

/-- The operand bytes of a fetch with the MMU disabled. -/
theorem fetchBody_off {s : State} (hm : s.mmuEn = false) {h : Head} {bs : List Byte} {as : List Word} (hr : Readable s as) :
    fetchBody h bs as s = match decodeBody h (bs ++ Memory.readBytes s.mem as) with
      | .ok (i, _) => .ok i s
      | .error _ => .raised .invalidOpcode s := by
  induction as generalizing bs with
  | nil => rw [Memory.readBytes, List.map_nil, List.append_nil]; rfl
  | cons a as ih =>
    unfold fetchBody
    split
    · next e => rw [decodeBody_badRegister _ e]
    · rw [fetchByte_off hm (hr a (by simp)), Res.bind_ok, ih fun p hp => hr p (by simp [hp])]
      simp [Memory.readBytes]

/-- The control word of a fetch with the MMU disabled. -/
theorem fetch_head {s : State} {lo hi : Byte} (hm : s.mmuEn = false) (hr : Readable s (addrs s.rip 2))
    (hb : bytesAt s s.rip 2 = [lo, hi]) :
    memRead .half s.rip s = .ok (hi ++ lo) s := by
  rw [memRead_off hm hr]
  unfold bytesAt at hb
  show Res.ok (BitVec.ofNat 16 (leNat (Memory.readBytes s.mem (addrs s.rip 2)))) s = _
  rw [hb]
  congr 1
  apply BitVec.eq_of_toNat_eq
  have := lo.isLt; have := hi.isLt
  simp only [leNat, BitVec.toNat_ofNat, BitVec.toNat_append]
  rw [← Nat.shiftLeft_add_eq_or_of_lt lo.isLt, Nat.shiftLeft_eq]
  omega

theorem fetchBody_allFills {h bs as s} : (fetchBody h bs as s).All (Fills s) := by
  induction as generalizing bs s with
  | nil => unfold fetchBody; split <;> exact Fills.refl s
  | cons a as ih =>
    unfold fetchBody
    split
    · exact Fills.refl s
    · exact (memRead_allFills _ _ _).bind fun b t _ ht => ih.mono fun u hu => ht.trans hu

/-- A fetch changes cached translations only. -/
theorem fetch_allFills (s : State) : (fetch s).All (Fills s) := by
  refine (memRead_allFills _ _ _).bind fun w t _ ht => ?_
  split
  · exact ht
  · split
    · refine Res.All.mono (P := Fills t) ?_ (fun u hu => ht.trans hu)
      exact Res.All.bind fetchBody_allFills fun i u _ hu => hu
    · exact ht

end Sys2Proof.Machine
end

