-- ==== Sys2Proof/Laws/PerInstr.lean ====
section
/-! SUPPORT. Statements about every instruction as syntax, one lemma per constructor: an instruction is rebuilt from its form, and
its length lies in the bounds of R111. -/

namespace Sys2Proof.Laws

/-- An instruction is the one its form gives. -/
def Rebuild.Statement (i : Instr) : Prop :=
  i.form.toInstr = i

/-- R111: the shortest instruction is 2 bytes, the longest 10. -/
def LengthBounds.Statement (i : Instr) : Prop :=
  2 ≤ i.length ∧ i.length ≤ maxLength

/-- An operand takes at most 4 bytes (R111). -/
theorem operand_len_le (o : Operand) {n : Nat} (h : n ≤ 4) : o.len n ≤ 4 := by
  cases o with
  | ptr r off => cases off <;> simp [Operand.len]
  | _ => simp [Operand.len, h]

theorem size_bytes_le_four (sz : Size) : sz.bytes ≤ 4 := by cases sz <;> decide

theorem srcImmBytes_le_four (o : Op) (sz : Size) : o.srcImmBytes sz ≤ 4 := by
  have h := size_bytes_le_four sz
  unfold Op.srcImmBytes
  split
  · split <;> omega
  · exact h

theorem lengthBounds_all (i : Instr) : LengthBounds.Statement i := by
  unfold LengthBounds.Statement Instr.length maxLength
  split
  · omega
  · next o sz c amt src _ => have := operand_len_le src (srcImmBytes_le_four (.one o) sz); omega
  · next o sz c src tgt _ =>
    have := operand_len_le src (srcImmBytes_le_four (.two o) sz)
    have := operand_len_le tgt (size_bytes_le_four sz)
    omega

theorem Rebuild.nop (sz : Size) (c : Cond) :
    Rebuild.Statement (.nop sz c) := rfl
theorem Rebuild.add (sz : Size) (c : Cond) (src : Operand) (tgt : Operand) :
    Rebuild.Statement (.add sz c src tgt) := rfl
theorem Rebuild.mul (sz : Size) (c : Cond) (src : Operand) (tgt : Operand) :
    Rebuild.Statement (.mul sz c src tgt) := rfl
theorem Rebuild.and (sz : Size) (c : Cond) (src : Operand) (tgt : Operand) :
    Rebuild.Statement (.and sz c src tgt) := rfl
theorem Rebuild.sla (sz : Size) (c : Cond) (src : Operand) (tgt : Operand) :
    Rebuild.Statement (.sla sz c src tgt) := rfl
theorem Rebuild.sra (sz : Size) (c : Cond) (src : Operand) (tgt : Operand) :
    Rebuild.Statement (.sra sz c src tgt) := rfl
theorem Rebuild.bse (sz : Size) (c : Cond) (src : Operand) (tgt : Operand) :
    Rebuild.Statement (.bse sz c src tgt) := rfl
theorem Rebuild.cmp (sz : Size) (c : Cond) (src : Operand) (tgt : Operand) :
    Rebuild.Statement (.cmp sz c src tgt) := rfl
theorem Rebuild.jmp (c : Cond) (src : Operand) :
    Rebuild.Statement (.jmp c src) := rfl
theorem Rebuild.rjmp (sz : Size) (c : Cond) (src : Operand) :
    Rebuild.Statement (.rjmp sz c src) := rfl
theorem Rebuild.push (sz : Size) (c : Cond) (src : Operand) :
    Rebuild.Statement (.push sz c src) := rfl
theorem Rebuild.ioIn (c : Cond) (src : Operand) (tgt : Operand) :
    Rebuild.Statement (.ioIn c src tgt) := rfl
theorem Rebuild.ise (c : Cond) :
    Rebuild.Statement (.ise c) := rfl
theorem Rebuild.mse (c : Cond) :
    Rebuild.Statement (.mse c) := rfl
theorem Rebuild.halt (sz : Size) (c : Cond) :
    Rebuild.Statement (.halt sz c) := rfl
theorem Rebuild.inc (sz : Size) (c : Cond) (amt : BitVec 2) (src : Operand) :
    Rebuild.Statement (.inc sz c amt src) := rfl
theorem Rebuild.or (sz : Size) (c : Cond) (src : Operand) (tgt : Operand) :
    Rebuild.Statement (.or sz c src tgt) := rfl
theorem Rebuild.imul (sz : Size) (c : Cond) (src : Operand) (tgt : Operand) :
    Rebuild.Statement (.imul sz c src tgt) := rfl
theorem Rebuild.srl (sz : Size) (c : Cond) (src : Operand) (tgt : Operand) :
    Rebuild.Statement (.srl sz c src tgt) := rfl
theorem Rebuild.bcl (sz : Size) (c : Cond) (src : Operand) (tgt : Operand) :
    Rebuild.Statement (.bcl sz c src tgt) := rfl
theorem Rebuild.mov (sz : Size) (c : Cond) (src : Operand) (tgt : Operand) :
    Rebuild.Statement (.mov sz c src tgt) := rfl
theorem Rebuild.call (c : Cond) (src : Operand) :
    Rebuild.Statement (.call c src) := rfl
theorem Rebuild.rcall (sz : Size) (c : Cond) (src : Operand) :
    Rebuild.Statement (.rcall sz c src) := rfl
theorem Rebuild.pop (sz : Size) (c : Cond) (src : Operand) :
    Rebuild.Statement (.pop sz c src) := rfl
theorem Rebuild.ioOut (c : Cond) (src : Operand) (tgt : Operand) :
    Rebuild.Statement (.ioOut c src tgt) := rfl
theorem Rebuild.icl (c : Cond) :
    Rebuild.Statement (.icl c) := rfl
theorem Rebuild.mcl (c : Cond) :
    Rebuild.Statement (.mcl c) := rfl
theorem Rebuild.brk (sz : Size) (c : Cond) :
    Rebuild.Statement (.brk sz c) := rfl
theorem Rebuild.sub (sz : Size) (c : Cond) (src : Operand) (tgt : Operand) :
    Rebuild.Statement (.sub sz c src tgt) := rfl
theorem Rebuild.div (sz : Size) (c : Cond) (src : Operand) (tgt : Operand) :
    Rebuild.Statement (.div sz c src tgt) := rfl
theorem Rebuild.xor (sz : Size) (c : Cond) (src : Operand) (tgt : Operand) :
    Rebuild.Statement (.xor sz c src tgt) := rfl
theorem Rebuild.rol (sz : Size) (c : Cond) (src : Operand) (tgt : Operand) :
    Rebuild.Statement (.rol sz c src tgt) := rfl
theorem Rebuild.ror (sz : Size) (c : Cond) (src : Operand) (tgt : Operand) :
    Rebuild.Statement (.ror sz c src tgt) := rfl
theorem Rebuild.bts (sz : Size) (c : Cond) (src : Operand) (tgt : Operand) :
    Rebuild.Statement (.bts sz c src tgt) := rfl
theorem Rebuild.movz (sz : Size) (c : Cond) (src : Operand) (tgt : Operand) :
    Rebuild.Statement (.movz sz c src tgt) := rfl
theorem Rebuild.loop (c : Cond) (src : Operand) :
    Rebuild.Statement (.loop c src) := rfl
theorem Rebuild.rloop (sz : Size) (c : Cond) (src : Operand) :
    Rebuild.Statement (.rloop sz c src) := rfl
theorem Rebuild.ret (c : Cond) :
    Rebuild.Statement (.ret c) := rfl
theorem Rebuild.int (c : Cond) (src : Operand) :
    Rebuild.Statement (.int c src) := rfl
theorem Rebuild.tlb (c : Cond) (src : Operand) :
    Rebuild.Statement (.tlb c src) := rfl
theorem Rebuild.dec (sz : Size) (c : Cond) (amt : BitVec 2) (src : Operand) :
    Rebuild.Statement (.dec sz c amt src) := rfl
theorem Rebuild.rem (sz : Size) (c : Cond) (src : Operand) (tgt : Operand) :
    Rebuild.Statement (.rem sz c src tgt) := rfl
theorem Rebuild.not (sz : Size) (c : Cond) (src : Operand) :
    Rebuild.Statement (.not sz c src) := rfl
theorem Rebuild.idiv (sz : Size) (c : Cond) (src : Operand) (tgt : Operand) :
    Rebuild.Statement (.idiv sz c src tgt) := rfl
theorem Rebuild.irem (sz : Size) (c : Cond) (src : Operand) (tgt : Operand) :
    Rebuild.Statement (.irem sz c src tgt) := rfl
theorem Rebuild.icmp (sz : Size) (c : Cond) (src : Operand) (tgt : Operand) :
    Rebuild.Statement (.icmp sz c src tgt) := rfl
theorem Rebuild.rta (sz : Size) (c : Cond) (src : Operand) (tgt : Operand) :
    Rebuild.Statement (.rta sz c src tgt) := rfl
theorem Rebuild.reti (c : Cond) :
    Rebuild.Statement (.reti c) := rfl
theorem Rebuild.flp (c : Cond) (src : Operand) :
    Rebuild.Statement (.flp c src) := rfl

theorem LengthBounds.nop (sz : Size) (c : Cond) :
    LengthBounds.Statement (.nop sz c) := lengthBounds_all _
theorem LengthBounds.add (sz : Size) (c : Cond) (src : Operand) (tgt : Operand) :
    LengthBounds.Statement (.add sz c src tgt) := lengthBounds_all _
theorem LengthBounds.mul (sz : Size) (c : Cond) (src : Operand) (tgt : Operand) :
    LengthBounds.Statement (.mul sz c src tgt) := lengthBounds_all _
theorem LengthBounds.and (sz : Size) (c : Cond) (src : Operand) (tgt : Operand) :
    LengthBounds.Statement (.and sz c src tgt) := lengthBounds_all _
theorem LengthBounds.sla (sz : Size) (c : Cond) (src : Operand) (tgt : Operand) :
    LengthBounds.Statement (.sla sz c src tgt) := lengthBounds_all _
theorem LengthBounds.sra (sz : Size) (c : Cond) (src : Operand) (tgt : Operand) :
    LengthBounds.Statement (.sra sz c src tgt) := lengthBounds_all _
theorem LengthBounds.bse (sz : Size) (c : Cond) (src : Operand) (tgt : Operand) :
    LengthBounds.Statement (.bse sz c src tgt) := lengthBounds_all _
theorem LengthBounds.cmp (sz : Size) (c : Cond) (src : Operand) (tgt : Operand) :
    LengthBounds.Statement (.cmp sz c src tgt) := lengthBounds_all _
theorem LengthBounds.jmp (c : Cond) (src : Operand) :
    LengthBounds.Statement (.jmp c src) := lengthBounds_all _
theorem LengthBounds.rjmp (sz : Size) (c : Cond) (src : Operand) :
    LengthBounds.Statement (.rjmp sz c src) := lengthBounds_all _
theorem LengthBounds.push (sz : Size) (c : Cond) (src : Operand) :
    LengthBounds.Statement (.push sz c src) := lengthBounds_all _
theorem LengthBounds.ioIn (c : Cond) (src : Operand) (tgt : Operand) :
    LengthBounds.Statement (.ioIn c src tgt) := lengthBounds_all _
theorem LengthBounds.ise (c : Cond) :
    LengthBounds.Statement (.ise c) := lengthBounds_all _
theorem LengthBounds.mse (c : Cond) :
    LengthBounds.Statement (.mse c) := lengthBounds_all _
theorem LengthBounds.halt (sz : Size) (c : Cond) :
    LengthBounds.Statement (.halt sz c) := lengthBounds_all _
theorem LengthBounds.inc (sz : Size) (c : Cond) (amt : BitVec 2) (src : Operand) :
    LengthBounds.Statement (.inc sz c amt src) := lengthBounds_all _
theorem LengthBounds.or (sz : Size) (c : Cond) (src : Operand) (tgt : Operand) :
    LengthBounds.Statement (.or sz c src tgt) := lengthBounds_all _
theorem LengthBounds.imul (sz : Size) (c : Cond) (src : Operand) (tgt : Operand) :
    LengthBounds.Statement (.imul sz c src tgt) := lengthBounds_all _
theorem LengthBounds.srl (sz : Size) (c : Cond) (src : Operand) (tgt : Operand) :
    LengthBounds.Statement (.srl sz c src tgt) := lengthBounds_all _
theorem LengthBounds.bcl (sz : Size) (c : Cond) (src : Operand) (tgt : Operand) :
    LengthBounds.Statement (.bcl sz c src tgt) := lengthBounds_all _
theorem LengthBounds.mov (sz : Size) (c : Cond) (src : Operand) (tgt : Operand) :
    LengthBounds.Statement (.mov sz c src tgt) := lengthBounds_all _
theorem LengthBounds.call (c : Cond) (src : Operand) :
    LengthBounds.Statement (.call c src) := lengthBounds_all _
theorem LengthBounds.rcall (sz : Size) (c : Cond) (src : Operand) :
    LengthBounds.Statement (.rcall sz c src) := lengthBounds_all _
theorem LengthBounds.pop (sz : Size) (c : Cond) (src : Operand) :
    LengthBounds.Statement (.pop sz c src) := lengthBounds_all _
theorem LengthBounds.ioOut (c : Cond) (src : Operand) (tgt : Operand) :
    LengthBounds.Statement (.ioOut c src tgt) := lengthBounds_all _
theorem LengthBounds.icl (c : Cond) :
    LengthBounds.Statement (.icl c) := lengthBounds_all _
theorem LengthBounds.mcl (c : Cond) :
    LengthBounds.Statement (.mcl c) := lengthBounds_all _
theorem LengthBounds.brk (sz : Size) (c : Cond) :
    LengthBounds.Statement (.brk sz c) := lengthBounds_all _
theorem LengthBounds.sub (sz : Size) (c : Cond) (src : Operand) (tgt : Operand) :
    LengthBounds.Statement (.sub sz c src tgt) := lengthBounds_all _
theorem LengthBounds.div (sz : Size) (c : Cond) (src : Operand) (tgt : Operand) :
    LengthBounds.Statement (.div sz c src tgt) := lengthBounds_all _
theorem LengthBounds.xor (sz : Size) (c : Cond) (src : Operand) (tgt : Operand) :
    LengthBounds.Statement (.xor sz c src tgt) := lengthBounds_all _
theorem LengthBounds.rol (sz : Size) (c : Cond) (src : Operand) (tgt : Operand) :
    LengthBounds.Statement (.rol sz c src tgt) := lengthBounds_all _
theorem LengthBounds.ror (sz : Size) (c : Cond) (src : Operand) (tgt : Operand) :
    LengthBounds.Statement (.ror sz c src tgt) := lengthBounds_all _
theorem LengthBounds.bts (sz : Size) (c : Cond) (src : Operand) (tgt : Operand) :
    LengthBounds.Statement (.bts sz c src tgt) := lengthBounds_all _
theorem LengthBounds.movz (sz : Size) (c : Cond) (src : Operand) (tgt : Operand) :
    LengthBounds.Statement (.movz sz c src tgt) := lengthBounds_all _
theorem LengthBounds.loop (c : Cond) (src : Operand) :
    LengthBounds.Statement (.loop c src) := lengthBounds_all _
theorem LengthBounds.rloop (sz : Size) (c : Cond) (src : Operand) :
    LengthBounds.Statement (.rloop sz c src) := lengthBounds_all _
theorem LengthBounds.ret (c : Cond) :
    LengthBounds.Statement (.ret c) := lengthBounds_all _
theorem LengthBounds.int (c : Cond) (src : Operand) :
    LengthBounds.Statement (.int c src) := lengthBounds_all _
theorem LengthBounds.tlb (c : Cond) (src : Operand) :
    LengthBounds.Statement (.tlb c src) := lengthBounds_all _
theorem LengthBounds.dec (sz : Size) (c : Cond) (amt : BitVec 2) (src : Operand) :
    LengthBounds.Statement (.dec sz c amt src) := lengthBounds_all _
theorem LengthBounds.rem (sz : Size) (c : Cond) (src : Operand) (tgt : Operand) :
    LengthBounds.Statement (.rem sz c src tgt) := lengthBounds_all _
theorem LengthBounds.not (sz : Size) (c : Cond) (src : Operand) :
    LengthBounds.Statement (.not sz c src) := lengthBounds_all _
theorem LengthBounds.idiv (sz : Size) (c : Cond) (src : Operand) (tgt : Operand) :
    LengthBounds.Statement (.idiv sz c src tgt) := lengthBounds_all _
theorem LengthBounds.irem (sz : Size) (c : Cond) (src : Operand) (tgt : Operand) :
    LengthBounds.Statement (.irem sz c src tgt) := lengthBounds_all _
theorem LengthBounds.icmp (sz : Size) (c : Cond) (src : Operand) (tgt : Operand) :
    LengthBounds.Statement (.icmp sz c src tgt) := lengthBounds_all _
theorem LengthBounds.rta (sz : Size) (c : Cond) (src : Operand) (tgt : Operand) :
    LengthBounds.Statement (.rta sz c src tgt) := lengthBounds_all _
theorem LengthBounds.reti (c : Cond) :
    LengthBounds.Statement (.reti c) := lengthBounds_all _
theorem LengthBounds.flp (c : Cond) (src : Operand) :
    LengthBounds.Statement (.flp c src) := lengthBounds_all _

end Sys2Proof.Laws
end

