-- ==== Sys2Proof/Laws/Trap.lean ====
section
/-! SUPPORT. The pushes of a trap entry with the MMU disabled. -/

namespace Sys2Proof.Machine

/-- `s` is `s₀` after `k` bytes `bs` were pushed below `top`, with the MMU disabled. -/
structure Pushed (s₀ : State) (top : Word) (s : State) (k : Nat) (bs : List Byte) : Prop where
  off : s.mmuEn = false
  wf : Memory.wf s.mem = true
  sp : s.reg rsp = top - BitVec.ofNat 32 k
  bytes : bytesAt s (top - BitVec.ofNat 32 k) k = bs
  frame : Frame s₀ s [Sys2Proof.rsp] (addrs (top - BitVec.ofNat 32 k) k)
  fz : s.flagZ = s₀.flagZ
  fc : s.flagC = s₀.flagC
  draws : s.draws = s₀.draws

theorem addrs_split (top : Word) (n k : Nat) :
    addrs (top - BitVec.ofNat 32 (k + n)) (k + n) = addrs (top - BitVec.ofNat 32 (k + n)) n ++ addrs
        (top - BitVec.ofNat 32 k) k := by
  have : top - BitVec.ofNat 32 k = top - BitVec.ofNat 32 (k + n) + BitVec.ofNat 32 n := by
    rw [BitVec.ofNat_add]; ring
  rw [this, addrs_append, Nat.add_comm]

/-- One more push. -/
theorem Pushed.push {s₀ s : State} {top : Word} {k : Nat} {bs : List Byte} (h : Pushed s₀ top s k bs) (sz : Size)
    (v : BitVec sz.bits)
    (hk : k + sz.bytes ≤ 13) (hw : Writable s₀ (addrs (top - BitVec.ofNat 32 (k + sz.bytes)) sz.bytes)) :
    ∃ t, push sz v s = .ok () t ∧ Pushed s₀ top t (k + sz.bytes) (leBytes sz.bytes v.toNat ++ bs) := by
  have ea : s.reg rsp - BitVec.ofNat 32 sz.bytes = top - BitVec.ofNat 32 (k + sz.bytes) := by
    rw [h.sp, BitVec.ofNat_add]; ring
  have hw' : Writable s (addrs (s.reg rsp - BitVec.ofNat 32 sz.bytes) sz.bytes) := by
    rw [ea]; intro pa hp; rw [h.frame.physMap]; exact hw pa hp
  refine ⟨_, push_off h.off v hw', ?_⟩
  rw [ea]
  have hnd : (addrs (top - BitVec.ofNat 32 (k + sz.bytes)) (k + sz.bytes)).Nodup := addrs_nodup _ (by omega)
  rw [addrs_split] at hnd
  obtain ⟨n1, -, n3⟩ := List.nodup_append.1 hnd
  constructor
  · exact h.off
  · exact Memory.writeRam_wf h.wf _ _
  · simp
  · show Memory.readBytes (Memory.writeRam s.physMap s.mem _ _) _ = _
    rw [addrs_split]
    simp only [Memory.readBytes, List.map_append]
    congr 1
    · rw [ea] at hw'
      exact Memory.readBytes_writeRam h.wf n1 (by simp) hw'
    · rw [← h.bytes]
      apply List.map_congr_left
      intro pa hp
      apply Memory.read_writeRam_other
      intro q hq _ e
      exact n3 q hq pa hp (BitVec.eq_of_toNat_eq e)
  · rw [addrs_split]
    refine ((h.frame.weaken (fun _ h => h) ?_).trans ((store_frame s (.mem (addrs (top - BitVec.ofNat 32
        (k + sz.bytes)) sz.bytes)) sz v).weaken ?_ ?_)).trans ((frame_setReg _ _ _).weaken ?_ ?_)
    · intro p hp; exact List.mem_append_right _ hp
    · simp [Dest.regs]
    · intro p hp; exact List.mem_append_left _ hp
    · simp
    · simp
  · exact h.fz
  · exact h.fc
  · exact h.draws

theorem flagsByte_le (s : State) : [flagsByte s] = leBytes 1 (flagsByte s).toNat := by
  simp [leBytes]

/-- What the pushes of a trap entry give with the MMU disabled (R245, R248). -/
theorem pushFrame_off {s : State} (hi : Inv s) (hm : s.mmuEn = false) (hw : Writable s (addrs (trapBase s) (trapSize s)))
    (saved w : Word) :
    ∃ t, pushFrame saved w s = .ok () t ∧ Pushed s (trapTop s) t (trapSize s) (trapFrame s saved w) := by
  have hsub : ∀ (k : Nat) (sz : Size), k + sz.bytes ≤ trapSize s →
      Writable s (addrs (trapTop s - BitVec.ofNat 32 (k + sz.bytes)) sz.bytes) := by
    intro k sz hle pa hp
    apply hw
    have e : trapBase s = trapTop s - BitVec.ofNat 32 (k + sz.bytes + (trapSize s - (k + sz.bytes))) := by
      rw [Nat.add_sub_cancel' hle]; rfl
    have e2 := addrs_split (trapTop s) (trapSize s - (k + sz.bytes)) (k + sz.bytes)
    rw [Nat.add_sub_cancel' hle] at e2
    unfold trapBase
    rw [e2]
    apply List.mem_append_right
    exact mem_addrs_mono (by omega) pa hp
  unfold pushFrame
  have fin : ∀ (s₁ : State) (k : Nat) (bs : List Byte), Pushed s (trapTop s) s₁ k bs → k + 9 = trapSize s → bs =
      (if s.swapSp then leBytes 4 (s.reg rsp).toNat else []) →
      ∃ t, ((push .word saved s₁).bind fun _ s₂ =>
        (push .byte (flagsByte s) s₂).bind fun _ s₃ => push .word w s₃) = .ok () t ∧ Pushed s (trapTop s) t (trapSize s)
            (trapFrame s saved w) := by
    intro s₁ k bs h1 hk hbs
    have h13 : trapSize s ≤ 13 := by unfold trapSize; split <;> omega
    obtain ⟨s₂, e2, h2⟩ := h1.push .word saved (by change k + 4 ≤ 13; omega) (hsub k .word (by change k + 4 ≤ _; omega))
    obtain ⟨s₃, e3, h3⟩ := h2.push .byte (flagsByte s) (by change k + 4 + 1 ≤ 13; omega) (hsub _ .byte
        (by change k + 4 + 1 ≤ _; omega))
    obtain ⟨s₄, e4, h4⟩ := h3.push .word w (by change k + 4 + 1 + 4 ≤ 13; omega) (hsub _ .word
        (by change k + 4 + 1 + 4 ≤ _; omega))
    refine ⟨s₄, ?_, ?_⟩
    · rw [e2, Res.bind_ok, e3, Res.bind_ok, e4]
    · have : k + Size.word.bytes + Size.byte.bytes + Size.word.bytes = trapSize s := by change k + 4 + 1 + 4 = _; omega
      rw [this] at h4
      have eb : trapFrame s saved w = leBytes Size.word.bytes w.toNat ++ (leBytes Size.byte.bytes (flagsByte s).toNat ++
          (leBytes Size.word.bytes saved.toNat ++ bs)) := by
        simp only [trapFrame, flagsByte_le, hbs, List.append_assoc]
      rw [eb]; exact h4
  by_cases hs : s.swapSp = true
  · simp only [hs, if_true]
    have h0 : Pushed s (trapTop s) (s.setReg rsp (s.reg resp)) 0 [] := by
      constructor
      · exact hm
      · exact hi.1
      · simp [trapTop, hs]
      · simp [bytesAt, addrs, Memory.readBytes]
      · exact frame_setReg _ _ _
      · rfl
      · rfl
      · rfl
    obtain ⟨s₁, e1, h1⟩ := h0.push .word (s.reg rsp) (by decide) (hsub 0 .word (by change 4 ≤ _; simp [trapSize, hs]))
    rw [e1, Res.bind_ok]
    exact fin s₁ _ _ h1 (by simp [trapSize, hs]) (by simp [hs])
  · simp only [Bool.not_eq_true] at hs
    simp only [hs]
    have h0 : Pushed s (trapTop s) s 0 [] := by
      constructor
      · exact hm
      · exact hi.1
      · simp [trapTop, hs]
      · simp [bytesAt, addrs, Memory.readBytes]
      · exact Frame.refl _ _ _
      · rfl
      · rfl
      · rfl
    exact fin s 0 _ h0 (by simp [trapSize, hs]) (by simp [hs])

end Sys2Proof.Machine
end

