-- ==== Sys2Proof/Tests/Slice0.lean ====
section
/-! SUPPORT. Tests. The expected results are those of `95_test_vectors.md` and of the rules named, not the model's own; then, for
every statement with hypotheses, a state and operands that meet them. -/

namespace Sys2Proof.Machine.Tests

/-! ## Helpers -/

/-- What `f` says of the next state. -/
def after {α : Type} (o : Outcome) (f : State → α) : Option α :=
  match o with
  | .next t => some (f t)
  | _ => none

/-- The start of a test vector: the instruction's bytes at `ip`, rsp = 0x8000, these registers and flags, all else as after reset. -/
def placed (ip : Word) (bytes : List Byte) (regs : List (RegNo × Word)) (z c : Bool) : State :=
  ((((regs.foldl (fun s p => s.setReg p.1 p.2) (State.reset.setReg rsp 0x8000)).setZ z).setC c).setRip ip).withFetchBytes bytes

/-- The same at 0x1000. -/
def at1000 (bytes : List Byte) (regs : List (RegNo × Word)) (z c : Bool) : State :=
  placed 0x1000 bytes regs z c

/-- `s` with the low `n` bytes of `v` at physical address `a`. -/
def holding (s : State) (a : Word) (n : Nat) (v : Word) : State :=
  s.setMem (((addrs a n).zip (leBytes n v.toNat)).foldl (fun m p => Memory.write m p.1.toNat p.2) s.mem)

/-! ## WellFormed refuses -/

/-- R110: an immediate wider than the operation. -/
theorem test_wf_immediate_too_wide : (Instr.add .byte .always (.imm 0x100) (.reg 0)).wellFormed = false := by decide

/-- R110: the source immediate of a shift is one byte at every size. -/
theorem test_wf_shift_count_too_wide : (Instr.sla .word .always (.imm 0x100) (.reg 0)).wellFormed = false := by decide

/-- R110: a target immediate has the operation size. -/
theorem test_wf_target_immediate_too_wide : (Instr.cmp .half .always (.reg 0) (.imm 0x10000)).wellFormed = false := by decide

/-- R125: an immediate is no target of ADD. -/
theorem test_wf_immediate_target : (Instr.add .word .always (.reg 0) (.imm 5)).wellFormed = false := by decide

/-- R125: an immediate is no operand of POP. -/
theorem test_wf_immediate_pop : (Instr.pop .word .always (.imm 5)).wellFormed = false := by decide

/-- R107: one `off` bit serves both pointers. -/
theorem test_wf_one_offset_of_two : (Instr.mov .word .always (.ptr 1 none) (.ptr 2 (some 4))).wellFormed = false := by decide

/-- The same checks let well-formed terms through. -/
theorem test_wf_accepts : (Instr.bts .word .always (.imm 0xFF) (.imm 0xFFFFFFFF)).wellFormed = true ∧
    (Instr.mov .word .always (.ptr 1 (some 0)) (.ptr 2 (some 4))).wellFormed = true := by decide

/-! ## Decoding: the bytes as the spec writes them out -/

/-- `add.16 [r2+6], r1`, section 2 of `95_test_vectors.md`. -/
theorem test_decode_add : decode [0x84, 0x41, 0x01, 0x02, 0x06] = .ok (.add .half .always (.reg 1) (.ptr 2 (some 6)), []) := by
  decide

/-- `sub.8 r0, 1`, section 2 of `95_test_vectors.md`. -/
theorem test_decode_sub : decode [0x02, 0x21, 0x01, 0x00] = .ok (.sub .byte .always (.imm 0x1) (.reg 0), []) := by
  decide

/-- `inc.8 r0, 8`, section 2 of `95_test_vectors.md`. -/
theorem test_decode_inc : decode [0x0C, 0x11, 0x00] = .ok (.inc .byte .always 3 (.reg 0), []) := by
  decide

/-- `dec r0, 2`, section 2 of `95_test_vectors.md`. -/
theorem test_decode_dec : decode [0x04, 0xB1, 0x00] = .ok (.dec .word .always 1 (.reg 0), []) := by
  decide

/-- `mul.8 r0, r1`, section 2 of `95_test_vectors.md`. -/
theorem test_decode_mul : decode [0x00, 0x02, 0x01, 0x00] = .ok (.mul .byte .always (.reg 1) (.reg 0), []) := by
  decide

/-- `imul.16 r0, 0xFFFF`, section 2 of `95_test_vectors.md`. -/
theorem test_decode_imul : decode [0x02, 0x54, 0xFF, 0xFF, 0x00] = .ok (.imul .half .always (.imm 0xFFFF) (.reg 0), []) := by
  decide

/-- `div r0, 0x10`, section 2 of `95_test_vectors.md`. -/
theorem test_decode_div : decode [0x02, 0xA2, 0x10, 0x00, 0x00, 0x00, 0x00] = .ok (.div .word .always (.imm 0x10) (.reg 0), []) := by
  decide

/-- `rem r0, 5`, section 2 of `95_test_vectors.md`. -/
theorem test_decode_rem : decode [0x02, 0xB2, 0x05, 0x00, 0x00, 0x00, 0x00] = .ok (.rem .word .always (.imm 0x5) (.reg 0), []) := by
  decide

/-- `idiv [r2], 0`, section 8 of `95_test_vectors.md`. -/
theorem test_decode_idiv : decode [0x06, 0xB4, 0x00, 0x00, 0x00, 0x00, 0x02] = .ok (.idiv .word .always (.imm 0x0) (.ptr 2 none), []) := by
  decide

/-- `irem r0, [r2]`, section 8 of `95_test_vectors.md`. -/
theorem test_decode_irem : decode [0x01, 0xB5, 0x02, 0x00] = .ok (.irem .word .always (.ptr 2 none) (.reg 0), []) := by
  decide

/-- `and.8 r0, 0x0F`, section 3 of `95_test_vectors.md`. -/
theorem test_decode_and : decode [0x02, 0x03, 0x0F, 0x00] = .ok (.and .byte .always (.imm 0xF) (.reg 0), []) := by
  decide

/-- `or.16 [r1], 0x8001`, section 3 of `95_test_vectors.md`. -/
theorem test_decode_or : decode [0x06, 0x53, 0x01, 0x80, 0x01] = .ok (.or .half .always (.imm 0x8001) (.ptr 1 none), []) := by
  decide

/-- `xor.8 r0, 0xFF`, section 3 of `95_test_vectors.md`. -/
theorem test_decode_xor : decode [0x02, 0x23, 0xFF, 0x00] = .ok (.xor .byte .always (.imm 0xFF) (.reg 0), []) := by
  decide

/-- `not.16 [r1+2]`, section 3 of `95_test_vectors.md`. -/
theorem test_decode_not : decode [0x81, 0x73, 0x01, 0x02] = .ok (.not .half .always (.ptr 1 (some 2)), []) := by
  decide

/-- `sla r0, r1`, section 3 of `95_test_vectors.md`. -/
theorem test_decode_sla : decode [0x00, 0x84, 0x01, 0x00] = .ok (.sla .word .always (.reg 1) (.reg 0), []) := by
  decide

/-- `sra.8 r0, 7`, section 3 of `95_test_vectors.md`. -/
theorem test_decode_sra : decode [0x02, 0x05, 0x07, 0x00] = .ok (.sra .byte .always (.imm 0x7) (.reg 0), []) := by
  decide

/-- `srl r0, [0x3000]`, section 3 of `95_test_vectors.md`. -/
theorem test_decode_srl : decode [0x03, 0x95, 0x00, 0x30, 0x00, 0x00, 0x00] = .ok (.srl .word .always (.immPtr 0x3000) (.reg 0), []) := by
  decide

/-- `rol.8 r0, 1`, section 3 of `95_test_vectors.md`. -/
theorem test_decode_rol : decode [0x02, 0x24, 0x01, 0x00] = .ok (.rol .byte .always (.imm 0x1) (.reg 0), []) := by
  decide

/-- `ror.16 r0, 1`, section 3 of `95_test_vectors.md`. -/
theorem test_decode_ror : decode [0x02, 0x65, 0x01, 0x00] = .ok (.ror .half .always (.imm 0x1) (.reg 0), []) := by
  decide

/-- `bse.8 [r1], 0`, section 3 of `95_test_vectors.md`. -/
theorem test_decode_bse : decode [0x06, 0x06, 0x00, 0x01] = .ok (.bse .byte .always (.imm 0x0) (.ptr 1 none), []) := by
  decide

/-- `bcl.16 r0, r1`, section 3 of `95_test_vectors.md`. -/
theorem test_decode_bcl : decode [0x00, 0x56, 0x01, 0x00] = .ok (.bcl .half .always (.reg 1) (.reg 0), []) := by
  decide

/-- `bts 0x8000, 15`, section 3 of `95_test_vectors.md`. -/
theorem test_decode_bts : decode [0x0A, 0xA6, 0x0F, 0x00, 0x80, 0x00, 0x00] = .ok (.bts .word .always (.imm 0xF) (.imm 0x8000), []) := by
  decide

/-- `cmp 5, r0`, section 4 of `95_test_vectors.md`. -/
theorem test_decode_cmp : decode [0x08, 0x87, 0x00, 0x05, 0x00, 0x00, 0x00] = .ok (.cmp .word .always (.reg 0) (.imm 0x5), []) := by
  decide

/-- `icmp.8 r0, 1`, section 4 of `95_test_vectors.md`. -/
theorem test_decode_icmp : decode [0x02, 0x37, 0x01, 0x00] = .ok (.icmp .byte .always (.imm 0x1) (.reg 0), []) := by
  decide

/-- `mov.16 [r1+255], 0xBEEF`, section 4 of `95_test_vectors.md`. -/
theorem test_decode_mov : decode [0x86, 0x57, 0xEF, 0xBE, 0x01, 0xFF] = .ok (.mov .half .always (.imm 0xBEEF) (.ptr 1 (some 255)), []) := by
  decide

/-- `movz.8 [r1], r0`, section 4 of `95_test_vectors.md`. -/
theorem test_decode_movz : decode [0x04, 0x27, 0x00, 0x01] = .ok (.movz .byte .always (.reg 0) (.ptr 1 none), []) := by
  decide

/-- `rta [r1], 0x20`, section 4 of `95_test_vectors.md`. -/
theorem test_decode_rta : decode [0x06, 0xB9, 0x20, 0x00, 0x00, 0x00, 0x01] = .ok (.rta .word .always (.imm 0x20) (.ptr 1 none), []) := by
  decide

/-- `jmp [r5+4]`, section 5 of `95_test_vectors.md`. -/
theorem test_decode_jmp : decode [0x81, 0x88, 0x05, 0x04] = .ok (.jmp .always (.ptr 5 (some 4)), []) := by
  decide

/-- `rjmp.16 0x8000`, section 5 of `95_test_vectors.md`. -/
theorem test_decode_rjmp : decode [0x02, 0x49, 0x00, 0x80] = .ok (.rjmp .half .always (.imm 0x8000), []) := by
  decide

/-- `call [rsp]`, section 5 of `95_test_vectors.md`. -/
theorem test_decode_call : decode [0x01, 0x98, 0x20] = .ok (.call .always (.ptr rsp none), []) := by
  decide

/-- `rcall.8 -16`, section 5 of `95_test_vectors.md`. -/
theorem test_decode_rcall : decode [0x02, 0x19, 0xF0] = .ok (.rcall .byte .always (.imm 0xF0), []) := by
  decide

/-- `ifc ret`, section 5 of `95_test_vectors.md`. -/
theorem test_decode_ret : decode [0x30, 0xAA] = .ok (.ret .ifc, []) := by
  decide

/-- `loop 0x0F00`, section 5 of `95_test_vectors.md`. -/
theorem test_decode_loop : decode [0x02, 0xA8, 0x00, 0x0F, 0x00, 0x00] = .ok (.loop .always (.imm 0xF00), []) := by
  decide

/-- `ifnz rloop.16 -4`, section 5 of `95_test_vectors.md`. -/
theorem test_decode_rloop : decode [0x22, 0x69, 0xFC, 0xFF] = .ok (.rloop .half .ifnz (.imm 0xFFFC), []) := by
  decide

/-- `push [rsp]`, section 6 of `95_test_vectors.md`. -/
theorem test_decode_push : decode [0x01, 0x8A, 0x20] = .ok (.push .word .always (.ptr rsp none), []) := by
  decide

/-- `pop.16 [r1]`, section 6 of `95_test_vectors.md`. -/
theorem test_decode_pop : decode [0x01, 0x5A, 0x01] = .ok (.pop .half .always (.ptr 1 none), []) := by
  decide

/-- `in [r1], r2`, section 6 of `95_test_vectors.md`. -/
theorem test_decode_in : decode [0x04, 0x8B, 0x02, 0x01] = .ok (.ioIn .always (.reg 2) (.ptr 1 none), []) := by
  decide

/-- `out r1, [r2]`, section 6 of `95_test_vectors.md`. -/
theorem test_decode_out : decode [0x01, 0x9B, 0x02, 0x01] = .ok (.ioOut .always (.ptr 2 none) (.reg 1), []) := by
  decide

/-- `nop`, section 7 of `95_test_vectors.md`. -/
theorem test_decode_nop : decode [0x00, 0x80] = .ok (.nop .word .always, []) := by
  decide

/-- `ifz halt`, section 7 of `95_test_vectors.md`. -/
theorem test_decode_halt : decode [0x10, 0x90] = .ok (.halt .word .ifz, []) := by
  decide

/-- `ise`, section 7 of `95_test_vectors.md`. -/
theorem test_decode_ise : decode [0x00, 0x8C] = .ok (.ise .always, []) := by
  decide

/-- `icl`, section 7 of `95_test_vectors.md`. -/
theorem test_decode_icl : decode [0x00, 0x9C] = .ok (.icl .always, []) := by
  decide

/-- `mse`, section 7 of `95_test_vectors.md`. -/
theorem test_decode_mse : decode [0x00, 0x8D] = .ok (.mse .always, []) := by
  decide

/-- `mcl`, section 7 of `95_test_vectors.md`. -/
theorem test_decode_mcl : decode [0x00, 0x9D] = .ok (.mcl .always, []) := by
  decide

/-- `tlb r4`, section 7 of `95_test_vectors.md`. -/
theorem test_decode_tlb : decode [0x00, 0xAD, 0x04] = .ok (.tlb .always (.reg 4), []) := by
  decide

/-- `flp 0x5ABC`, section 7 of `95_test_vectors.md`. -/
theorem test_decode_flp : decode [0x02, 0xBD, 0xBC, 0x5A, 0x00, 0x00] = .ok (.flp .always (.imm 0x5ABC), []) := by
  decide

/-- `brk`, section 7 of `95_test_vectors.md`. -/
theorem test_decode_brk : decode [0x00, 0xA0] = .ok (.brk .word .always, []) := by
  decide

/-- `int r2`, section 7 of `95_test_vectors.md`. -/
theorem test_decode_int : decode [0x00, 0xAC, 0x02] = .ok (.int .always (.reg 2), []) := by
  decide

/-- `reti`, section 7 of `95_test_vectors.md`. -/
theorem test_decode_reti : decode [0x00, 0xBA] = .ok (.reti .always, []) := by
  decide

/-! ## One step each -/

/-- `add.8 r0, r1`, section 2 of `95_test_vectors.md`. -/
theorem test_add :
    after (step (at1000 [0x00, 0x01, 0x01, 0x00] [(0, 0x123456F0), (1, 0xABCDEF20)] false false))
      (fun t => (t.reg 0, t.flagZ, t.flagC, t.rip)) =
    some (0x12345610, false, true, 0x1004) := by
  decide

/-- `add.16 [r2+6], r1`, section 2 of `95_test_vectors.md`. -/
theorem test_add_2 :
    after (step (holding (at1000 [0x84, 0x41, 0x01, 0x02, 0x06] [(2, 0x3000), (1, 0x1FFFF)] false false) 0x3006 2 0x2))
      (fun t => (bytesAt t 0x3004 6, t.flagZ, t.flagC, t.rip)) =
    some ([0x00, 0x00, 0x01, 0x00, 0x00, 0x00], false, true, 0x1005) := by
  decide

/-- `sub r0, r1`, section 2 of `95_test_vectors.md`. -/
theorem test_sub :
    after (step (at1000 [0x00, 0xA1, 0x01, 0x00] [(0, 0x5), (1, 0x7)] false false))
      (fun t => (t.reg 0, t.flagZ, t.flagC, t.rip)) =
    some (0xFFFFFFFE, false, true, 0x1004) := by
  decide

/-- `sub.8 r0, 1`, section 2 of `95_test_vectors.md`. -/
theorem test_sub_2 :
    after (step (at1000 [0x02, 0x21, 0x01, 0x00] [(0, 0x100)] false false))
      (fun t => (t.reg 0, t.flagZ, t.flagC, t.rip)) =
    some (0x1FF, false, true, 0x1004) := by
  decide

/-- `inc.8 r0, 8`, section 2 of `95_test_vectors.md`. -/
theorem test_inc :
    after (step (at1000 [0x0C, 0x11, 0x00] [(0, 0xAABBCCFC)] false false))
      (fun t => (t.reg 0, t.flagZ, t.flagC, t.rip)) =
    some (0xAABBCC04, false, true, 0x1003) := by
  decide

/-- `inc.16 [0x3000]`, section 2 of `95_test_vectors.md`. -/
theorem test_inc_2 :
    after (step (holding (at1000 [0x03, 0x51, 0x00, 0x30, 0x00, 0x00] [] false false) 0x3000 4 0x1234FFFF))
      (fun t => (bytesAt t 0x3000 4, t.flagZ, t.flagC, t.rip)) =
    some ([0x00, 0x00, 0x34, 0x12], true, true, 0x1006) := by
  decide

/-- `dec r0, 2`, section 2 of `95_test_vectors.md`. -/
theorem test_dec :
    after (step (at1000 [0x04, 0xB1, 0x00] [(0, 0x2)] false true))
      (fun t => (t.reg 0, t.flagZ, t.flagC, t.rip)) =
    some (0x0, true, false, 0x1003) := by
  decide

/-- `dec.16 r0, 8`, section 2 of `95_test_vectors.md`. -/
theorem test_dec_2 :
    after (step (at1000 [0x0C, 0x71, 0x00] [(0, 0x50003)] false false))
      (fun t => (t.reg 0, t.flagZ, t.flagC, t.rip)) =
    some (0x5FFFB, false, true, 0x1003) := by
  decide

/-- `mul r0, r1`, section 2 of `95_test_vectors.md`. -/
theorem test_mul :
    after (step (at1000 [0x00, 0x82, 0x01, 0x00] [(0, 0x10000), (1, 0x10000)] false false))
      (fun t => (t.reg 0, t.flagZ, t.flagC, t.rip)) =
    some (0x0, true, true, 0x1004) := by
  decide

/-- `mul.8 r0, r1`, section 2 of `95_test_vectors.md`. -/
theorem test_mul_2 :
    after (step (at1000 [0x00, 0x02, 0x01, 0x00] [(0, 0x1113), (1, 0x60)] false false))
      (fun t => (t.reg 0, t.flagZ, t.flagC, t.rip)) =
    some (0x1120, false, true, 0x1004) := by
  decide

/-- `imul.8 r0, r1`, section 2 of `95_test_vectors.md`. -/
theorem test_imul :
    after (step (at1000 [0x00, 0x14, 0x01, 0x00] [(0, 0x40), (1, 0x2)] false false))
      (fun t => (t.reg 0, t.flagZ, t.flagC, t.rip)) =
    some (0x80, false, true, 0x1004) := by
  decide

/-- `imul.16 r0, 0xFFFF`, section 2 of `95_test_vectors.md`. -/
theorem test_imul_2 :
    after (step (at1000 [0x02, 0x54, 0xFF, 0xFF, 0x00] [(0, 0x7FFF)] false true))
      (fun t => (t.reg 0, t.flagZ, t.flagC, t.rip)) =
    some (0x8001, false, false, 0x1005) := by
  decide

/-- `div r0, 0x10`, section 2 of `95_test_vectors.md`. -/
theorem test_div :
    after (step (at1000 [0x02, 0xA2, 0x10, 0x00, 0x00, 0x00, 0x00] [(0, 0x5)] false false))
      (fun t => (t.reg 0, t.flagZ, t.flagC, t.rip)) =
    some (0x0, true, false, 0x1007) := by
  decide

/-- `div.8 r0, r1`, section 2 of `95_test_vectors.md`. -/
theorem test_div_2 :
    after (step (at1000 [0x00, 0x22, 0x01, 0x00] [(0, 0xFFFFFFFF), (1, 0x102)] false false))
      (fun t => (t.reg 0, t.flagZ, t.flagC, t.rip)) =
    some (0xFFFFFF7F, false, false, 0x1004) := by
  decide

/-- `rem r0, r1`, section 2 of `95_test_vectors.md`. -/
theorem test_rem :
    after (step (at1000 [0x00, 0xB2, 0x01, 0x00] [(0, 0x64), (1, 0x7)] true true))
      (fun t => (t.reg 0, t.flagZ, t.flagC, t.rip)) =
    some (0x2, false, true, 0x1004) := by
  decide

/-- `rem r0, 5`, section 2 of `95_test_vectors.md`. -/
theorem test_rem_2 :
    after (step (at1000 [0x02, 0xB2, 0x05, 0x00, 0x00, 0x00, 0x00] [(0, 0x64)] false true))
      (fun t => (t.reg 0, t.flagZ, t.flagC, t.rip)) =
    some (0x0, true, true, 0x1007) := by
  decide

/-- `idiv r0, r1`, section 2 of `95_test_vectors.md`. -/
theorem test_idiv :
    after (step (at1000 [0x00, 0xB4, 0x01, 0x00] [(0, 0xFFFFFFF9), (1, 0x2)] true false))
      (fun t => (t.reg 0, t.flagZ, t.flagC, t.rip)) =
    some (0xFFFFFFFD, false, false, 0x1004) := by
  decide

/-- `idiv.8 r0, r1`, section 2 of `95_test_vectors.md`. -/
theorem test_idiv_2 :
    after (step (at1000 [0x00, 0x34, 0x01, 0x00] [(0, 0x55F6), (1, 0x3)] false false))
      (fun t => (t.reg 0, t.flagZ, t.flagC, t.rip)) =
    some (0x55FD, false, false, 0x1004) := by
  decide

/-- `irem r0, r1`, section 2 of `95_test_vectors.md`. -/
theorem test_irem :
    after (step (at1000 [0x00, 0xB5, 0x01, 0x00] [(0, 0xFFFFFFF9), (1, 0x2)] true false))
      (fun t => (t.reg 0, t.flagZ, t.flagC, t.rip)) =
    some (0xFFFFFFFF, false, false, 0x1004) := by
  decide

/-- `irem r0, r1`, section 2 of `95_test_vectors.md`. -/
theorem test_irem_2 :
    after (step (at1000 [0x00, 0xB5, 0x01, 0x00] [(0, 0x7), (1, 0xFFFFFFFE)] true false))
      (fun t => (t.reg 0, t.flagZ, t.flagC, t.rip)) =
    some (0x1, false, false, 0x1004) := by
  decide

/-- `and r0, r1`, section 3 of `95_test_vectors.md`. -/
theorem test_and :
    after (step (at1000 [0x00, 0x83, 0x01, 0x00] [(0, 0xF0F0F0F0), (1, 0xFF00FF0)] true true))
      (fun t => (t.reg 0, t.flagZ, t.flagC, t.rip)) =
    some (0xF000F0, false, true, 0x1004) := by
  decide

/-- `and.8 r0, 0x0F`, section 3 of `95_test_vectors.md`. -/
theorem test_and_2 :
    after (step (at1000 [0x02, 0x03, 0x0F, 0x00] [(0, 0x12345670)] false false))
      (fun t => (t.reg 0, t.flagZ, t.flagC, t.rip)) =
    some (0x12345600, true, false, 0x1004) := by
  decide

/-- `or.16 [r1], 0x8001`, section 3 of `95_test_vectors.md`. -/
theorem test_or :
    after (step (holding (at1000 [0x06, 0x53, 0x01, 0x80, 0x01] [(1, 0x3000)] true false) 0x3000 4 0xFFFF0100))
      (fun t => (bytesAt t 0x3000 4, t.flagZ, t.flagC, t.rip)) =
    some ([0x01, 0x81, 0xFF, 0xFF], false, false, 0x1005) := by
  decide

/-- `xor r0, r0`, section 3 of `95_test_vectors.md`. -/
theorem test_xor :
    after (step (at1000 [0x00, 0xA3, 0x00, 0x00] [(0, 0xDEADBEEF)] false true))
      (fun t => (t.reg 0, t.flagZ, t.flagC, t.rip)) =
    some (0x0, true, true, 0x1004) := by
  decide

/-- `xor.8 r0, 0xFF`, section 3 of `95_test_vectors.md`. -/
theorem test_xor_2 :
    after (step (at1000 [0x02, 0x23, 0xFF, 0x00] [(0, 0x1234)] false false))
      (fun t => (t.reg 0, t.flagZ, t.flagC, t.rip)) =
    some (0x12CB, false, false, 0x1004) := by
  decide

/-- `not.8 r0`, section 3 of `95_test_vectors.md`. -/
theorem test_not :
    after (step (at1000 [0x00, 0x33, 0x00] [(0, 0x12F0)] true false))
      (fun t => (t.reg 0, t.flagZ, t.flagC, t.rip)) =
    some (0x120F, false, false, 0x1003) := by
  decide

/-- `not.16 [r1+2]`, section 3 of `95_test_vectors.md`. -/
theorem test_not_2 :
    after (step (holding (at1000 [0x81, 0x73, 0x01, 0x02] [(1, 0x3000)] false false) 0x3000 4 0xFF1234))
      (fun t => (bytesAt t 0x3000 4, t.flagZ, t.flagC, t.rip)) =
    some ([0x34, 0x12, 0x00, 0xFF], false, false, 0x1004) := by
  decide

/-- `sla r0, 4`, section 3 of `95_test_vectors.md`. -/
theorem test_sla :
    after (step (at1000 [0x02, 0x84, 0x04, 0x00] [(0, 0xF0000001)] true true))
      (fun t => (t.reg 0, t.flagZ, t.flagC, t.rip)) =
    some (0x10, false, true, 0x1004) := by
  decide

/-- `sla.16 r0, 15`, section 3 of `95_test_vectors.md`. -/
theorem test_sla_2 :
    after (step (at1000 [0x02, 0x44, 0x0F, 0x00] [(0, 0x10002)] false false))
      (fun t => (t.reg 0, t.flagZ, t.flagC, t.rip)) =
    some (0x10000, true, false, 0x1004) := by
  decide

/-- `sra r0, 4`, section 3 of `95_test_vectors.md`. -/
theorem test_sra :
    after (step (at1000 [0x02, 0x85, 0x04, 0x00] [(0, 0x80000010)] true false))
      (fun t => (t.reg 0, t.flagZ, t.flagC, t.rip)) =
    some (0xF8000001, false, false, 0x1004) := by
  decide

/-- `sra.8 r0, 7`, section 3 of `95_test_vectors.md`. -/
theorem test_sra_2 :
    after (step (at1000 [0x02, 0x05, 0x07, 0x00] [(0, 0x1280)] false false))
      (fun t => (t.reg 0, t.flagZ, t.flagC, t.rip)) =
    some (0x12FF, false, false, 0x1004) := by
  decide

/-- `srl.8 r0, 7`, section 3 of `95_test_vectors.md`. -/
theorem test_srl :
    after (step (at1000 [0x02, 0x15, 0x07, 0x00] [(0, 0x1280)] false false))
      (fun t => (t.reg 0, t.flagZ, t.flagC, t.rip)) =
    some (0x1201, false, false, 0x1004) := by
  decide

/-- `srl r0, [0x3000]`, section 3 of `95_test_vectors.md`. -/
theorem test_srl_2 :
    after (step (holding (at1000 [0x03, 0x95, 0x00, 0x30, 0x00, 0x00, 0x00] [(0, 0xFF)] false false) 0x3000 4 0x8))
      (fun t => (t.reg 0, t.flagZ, t.flagC, t.rip)) =
    some (0x0, true, false, 0x1007) := by
  decide

/-- `rol.8 r0, 1`, section 3 of `95_test_vectors.md`. -/
theorem test_rol :
    after (step (at1000 [0x02, 0x24, 0x01, 0x00] [(0, 0x1281)] false false))
      (fun t => (t.reg 0, t.flagZ, t.flagC, t.rip)) =
    some (0x1203, false, false, 0x1004) := by
  decide

/-- `rol r0, 36`, section 3 of `95_test_vectors.md`. -/
theorem test_rol_2 :
    after (step (at1000 [0x02, 0xA4, 0x24, 0x00] [(0, 0xF0000001)] false false))
      (fun t => (t.reg 0, t.flagZ, t.flagC, t.rip)) =
    some (0x1F, false, false, 0x1004) := by
  decide

/-- `ror.16 r0, 1`, section 3 of `95_test_vectors.md`. -/
theorem test_ror :
    after (step (at1000 [0x02, 0x65, 0x01, 0x00] [(0, 0xAAAA0001)] false false))
      (fun t => (t.reg 0, t.flagZ, t.flagC, t.rip)) =
    some (0xAAAA8000, false, false, 0x1004) := by
  decide

/-- `ror r0, 32`, section 3 of `95_test_vectors.md`. -/
theorem test_ror_2 :
    after (step (at1000 [0x02, 0xA5, 0x20, 0x00] [(0, 0x12345678)] true false))
      (fun t => (t.flagZ, t.flagC, t.rip)) =
    some (false, false, 0x1004) := by
  decide

/-- `bse r0, 31`, section 3 of `95_test_vectors.md`. -/
theorem test_bse :
    after (step (at1000 [0x02, 0x86, 0x1F, 0x00] [(0, 0x1)] true true))
      (fun t => (t.reg 0, t.flagZ, t.flagC, t.rip)) =
    some (0x80000001, true, true, 0x1004) := by
  decide

/-- `bse.8 [r1], 0`, section 3 of `95_test_vectors.md`. -/
theorem test_bse_2 :
    after (step (holding (at1000 [0x06, 0x06, 0x00, 0x01] [(1, 0x3000)] false false) 0x3000 4 0xF0))
      (fun t => (bytesAt t 0x3000 4, t.flagZ, t.flagC, t.rip)) =
    some ([0xF1, 0x00, 0x00, 0x00], false, false, 0x1004) := by
  decide

/-- `bcl r0, 0`, section 3 of `95_test_vectors.md`. -/
theorem test_bcl :
    after (step (at1000 [0x02, 0x96, 0x00, 0x00] [(0, 0x1)] false true))
      (fun t => (t.reg 0, t.flagZ, t.flagC, t.rip)) =
    some (0x0, false, true, 0x1004) := by
  decide

/-- `bcl.16 r0, r1`, section 3 of `95_test_vectors.md`. -/
theorem test_bcl_2 :
    after (step (at1000 [0x00, 0x56, 0x01, 0x00] [(0, 0xFFFFFFFF), (1, 0xF)] false false))
      (fun t => (t.reg 0, t.flagZ, t.flagC, t.rip)) =
    some (0xFFFF7FFF, false, false, 0x1004) := by
  decide

/-- `bts r0, 6`, section 3 of `95_test_vectors.md`. -/
theorem test_bts :
    after (step (at1000 [0x02, 0xA6, 0x06, 0x00] [(0, 0x20)] false true))
      (fun t => (t.flagZ, t.flagC, t.rip)) =
    some (true, true, 0x1004) := by
  decide

/-- `bts.8 [r1], r2`, section 3 of `95_test_vectors.md`. -/
theorem test_bts_2 :
    after (step (holding (at1000 [0x04, 0x26, 0x02, 0x01] [(1, 0x3000), (2, 0x7)] true false) 0x3000 1 0x80))
      (fun t => (t.flagZ, t.flagC, t.rip)) =
    some (false, false, 0x1004) := by
  decide

/-- `cmp r1, r20`, section 4 of `95_test_vectors.md`. -/
theorem test_cmp :
    after (step (at1000 [0x00, 0x87, 0x14, 0x01] [(1, 0x4), (20, 0x5)] true false))
      (fun t => (t.flagZ, t.flagC, t.rip)) =
    some (false, true, 0x1004) := by
  decide

/-- `cmp r0, 0x80000000`, section 4 of `95_test_vectors.md`. -/
theorem test_cmp_2 :
    after (step (at1000 [0x02, 0x87, 0x00, 0x00, 0x00, 0x80, 0x00] [(0, 0x1)] false false))
      (fun t => (t.flagZ, t.flagC, t.rip)) =
    some (false, true, 0x1007) := by
  decide

/-- `icmp r0, r1`, section 4 of `95_test_vectors.md`. -/
theorem test_icmp :
    after (step (at1000 [0x00, 0xB7, 0x01, 0x00] [(0, 0xFFFFFFFF), (1, 0x1)] false false))
      (fun t => (t.flagZ, t.flagC, t.rip)) =
    some (false, true, 0x1004) := by
  decide

/-- `icmp.8 r0, 1`, section 4 of `95_test_vectors.md`. -/
theorem test_icmp_2 :
    after (step (at1000 [0x02, 0x37, 0x01, 0x00] [(0, 0x80)] false false))
      (fun t => (t.flagZ, t.flagC, t.rip)) =
    some (false, true, 0x1004) := by
  decide

/-- `mov [r1+4], [r2+8]`, section 4 of `95_test_vectors.md`. -/
theorem test_mov :
    after (step (holding (at1000 [0x85, 0x97, 0x02, 0x08, 0x01, 0x04] [(1, 0x3000), (2, 0x3100)] false false) 0x3108 4 0xA1B2C3D4))
      (fun t => (bytesAt t 0x3004 4, t.flagZ, t.flagC, t.rip)) =
    some ([0xD4, 0xC3, 0xB2, 0xA1], false, false, 0x1006) := by
  decide

/-- `mov r0, [r0]`, section 4 of `95_test_vectors.md`. -/
theorem test_mov_2 :
    after (step (holding (at1000 [0x01, 0x97, 0x00, 0x00] [(0, 0x3000)] false false) 0x3000 4 0x55))
      (fun t => (t.reg 0, t.flagZ, t.flagC, t.rip)) =
    some (0x55, false, false, 0x1004) := by
  decide

/-- `movz.16 r0, [r1]`, section 4 of `95_test_vectors.md`. -/
theorem test_movz :
    after (step (holding (at1000 [0x01, 0x67, 0x01, 0x00] [(0, 0x11223344), (1, 0x3000)] false false) 0x3000 4 0xCAFEBEEF))
      (fun t => (t.reg 0, t.flagZ, t.flagC, t.rip)) =
    some (0xBEEF, false, false, 0x1004) := by
  decide

/-- `movz.8 [r1], r0`, section 4 of `95_test_vectors.md`. -/
theorem test_movz_2 :
    after (step (holding (at1000 [0x04, 0x27, 0x00, 0x01] [(0, 0x11223344), (1, 0x3000)] false false) 0x3000 4 0xFFFFFFFF))
      (fun t => (bytesAt t 0x3000 4, t.flagZ, t.flagC, t.rip)) =
    some ([0x44, 0xFF, 0xFF, 0xFF], false, false, 0x1004) := by
  decide

/-- `rta.8 r0, -2`, section 4 of `95_test_vectors.md`. -/
theorem test_rta :
    after (step (at1000 [0x02, 0x39, 0xFE, 0x00] [(0, 0xAABBCCDD)] false false))
      (fun t => (t.reg 0, t.flagZ, t.flagC, t.rip)) =
    some (0xAABBCCFE, false, false, 0x1004) := by
  decide

/-- `rta [r1], 0x20`, section 4 of `95_test_vectors.md`. -/
theorem test_rta_2 :
    after (step (at1000 [0x06, 0xB9, 0x20, 0x00, 0x00, 0x00, 0x01] [(1, 0x3000)] false false))
      (fun t => (bytesAt t 0x3000 4, t.flagZ, t.flagC, t.rip)) =
    some ([0x20, 0x10, 0x00, 0x00], false, false, 0x1007) := by
  decide

/-- `jmp [r5+4]`, section 5 of `95_test_vectors.md`. -/
theorem test_jmp :
    after (step (holding (at1000 [0x81, 0x88, 0x05, 0x04] [(5, 0x3000)] false false) 0x3004 4 0x4444))
      (fun t => (t.flagZ, t.flagC, t.rip)) =
    some (false, false, 0x4444) := by
  decide

/-- `ifz jmp 0x2000`, section 5 of `95_test_vectors.md`. -/
theorem test_jmp_2 :
    after (step (at1000 [0x12, 0x88, 0x00, 0x20, 0x00, 0x00] [] false false))
      (fun t => (t.flagZ, t.flagC, t.rip)) =
    some (false, false, 0x1006) := by
  decide

/-- `rjmp.16 0x8000`, section 5 of `95_test_vectors.md`. -/
theorem test_rjmp :
    after (step (placed 0x9000 [0x02, 0x49, 0x00, 0x80] [] false false))
      (fun t => (t.flagZ, t.flagC, t.rip)) =
    some (false, false, 0x1000) := by
  decide

/-- `rjmp.8 r1`, section 5 of `95_test_vectors.md`. -/
theorem test_rjmp_2 :
    after (step (at1000 [0x00, 0x09, 0x01] [(1, 0x12345680)] false false))
      (fun t => (t.flagZ, t.flagC, t.rip)) =
    some (false, false, 0xF80) := by
  decide

/-- `call 0x2000`, section 5 of `95_test_vectors.md`. -/
theorem test_call :
    after (step (at1000 [0x02, 0x98, 0x00, 0x20, 0x00, 0x00] [] false false))
      (fun t => (t.reg rsp, bytesAt t 0x7FFC 4, t.flagZ, t.flagC, t.rip)) =
    some (0x7FFC, [0x06, 0x10, 0x00, 0x00], false, false, 0x2000) := by
  decide

/-- `call [rsp]`, section 5 of `95_test_vectors.md`. -/
theorem test_call_2 :
    after (step (holding (at1000 [0x01, 0x98, 0x20] [] false false) 0x8000 4 0x5000))
      (fun t => (t.reg rsp, bytesAt t 0x7FFC 4, t.flagZ, t.flagC, t.rip)) =
    some (0x7FFC, [0x03, 0x10, 0x00, 0x00], false, false, 0x5000) := by
  decide

/-- `rcall 0x100`, section 5 of `95_test_vectors.md`. -/
theorem test_rcall :
    after (step (at1000 [0x02, 0x99, 0x00, 0x01, 0x00, 0x00] [] false false))
      (fun t => (t.reg rsp, bytesAt t 0x7FFC 4, t.flagZ, t.flagC, t.rip)) =
    some (0x7FFC, [0x06, 0x10, 0x00, 0x00], false, false, 0x1100) := by
  decide

/-- `rcall.8 -16`, section 5 of `95_test_vectors.md`. -/
theorem test_rcall_2 :
    after (step (at1000 [0x02, 0x19, 0xF0] [] false false))
      (fun t => (t.reg rsp, bytesAt t 0x7FFC 4, t.flagZ, t.flagC, t.rip)) =
    some (0x7FFC, [0x03, 0x10, 0x00, 0x00], false, false, 0xFF0) := by
  decide

/-- `ret`, section 5 of `95_test_vectors.md`. -/
theorem test_ret :
    after (step (holding (at1000 [0x00, 0xAA] [(rsp, 0x7FFC)] false false) 0x7FFC 4 0x1006))
      (fun t => (t.reg rsp, t.flagZ, t.flagC, t.rip)) =
    some (0x8000, false, false, 0x1006) := by
  decide

/-- `ifc ret`, section 5 of `95_test_vectors.md`. -/
theorem test_ret_2 :
    after (step (holding (at1000 [0x30, 0xAA] [(rsp, 0x7FFC)] false false) 0x7FFC 4 0x1006))
      (fun t => (t.flagZ, t.flagC, t.rip)) =
    some (false, false, 0x1002) := by
  decide

/-- `loop 0x0F00`, section 5 of `95_test_vectors.md`. -/
theorem test_loop :
    after (step (at1000 [0x02, 0xA8, 0x00, 0x0F, 0x00, 0x00] [(31, 0x1)] false false))
      (fun t => (t.reg 31, t.flagZ, t.flagC, t.rip)) =
    some (0x0, false, false, 0x1006) := by
  decide

/-- `loop 0x0F00`, section 5 of `95_test_vectors.md`. -/
theorem test_loop_2 :
    after (step (at1000 [0x02, 0xA8, 0x00, 0x0F, 0x00, 0x00] [(31, 0x0)] false false))
      (fun t => (t.reg 31, t.flagZ, t.flagC, t.rip)) =
    some (0xFFFFFFFF, false, false, 0xF00) := by
  decide

/-- `rloop.8 -4`, section 5 of `95_test_vectors.md`. -/
theorem test_rloop :
    after (step (at1000 [0x02, 0x29, 0xFC] [(31, 0x5)] false false))
      (fun t => (t.reg 31, t.flagZ, t.flagC, t.rip)) =
    some (0x4, false, false, 0xFFC) := by
  decide

/-- `rloop -4`, section 5 of `95_test_vectors.md`. -/
theorem test_rloop_2 :
    after (step (at1000 [0x02, 0xA9, 0xFC, 0xFF, 0xFF, 0xFF] [(31, 0x1)] false false))
      (fun t => (t.reg 31, t.flagZ, t.flagC, t.rip)) =
    some (0x0, false, false, 0x1006) := by
  decide

/-- `push.8 0xAB`, section 6 of `95_test_vectors.md`. -/
theorem test_push :
    after (step (at1000 [0x02, 0x0A, 0xAB] [] false false))
      (fun t => (t.reg rsp, bytesAt t 0x7FFC 4, t.flagZ, t.flagC, t.rip)) =
    some (0x7FFF, [0x00, 0x00, 0x00, 0xAB], false, false, 0x1003) := by
  decide

/-- `push rsp`, section 6 of `95_test_vectors.md`. -/
theorem test_push_2 :
    after (step (at1000 [0x00, 0x8A, 0x20] [] false false))
      (fun t => (t.reg rsp, bytesAt t 0x7FFC 4, t.flagZ, t.flagC, t.rip)) =
    some (0x7FFC, [0x00, 0x80, 0x00, 0x00], false, false, 0x1003) := by
  decide

/-- `pop rsp`, section 6 of `95_test_vectors.md`. -/
theorem test_pop :
    after (step (holding (at1000 [0x00, 0x9A, 0x20] [(rsp, 0x7FFC)] false false) 0x7FFC 4 0x6000))
      (fun t => (t.reg rsp, t.flagZ, t.flagC, t.rip)) =
    some (0x6000, false, false, 0x1003) := by
  decide

/-- `pop [rsp]`, section 6 of `95_test_vectors.md`. -/
theorem test_pop_2 :
    after (step (holding (at1000 [0x01, 0x9A, 0x20] [(rsp, 0x7FFC)] false false) 0x7FFC 4 0x77))
      (fun t => (t.reg rsp, bytesAt t 0x7FFC 8, t.flagZ, t.flagC, t.rip)) =
    some (0x8000, [0x77, 0x00, 0x00, 0x00, 0x00, 0x00, 0x00, 0x00], false, false, 0x1003) := by
  decide

/-- `out 0x80001000, r3`, section 6 of `95_test_vectors.md`. -/
theorem test_out :
    after (step (at1000 [0x08, 0x9B, 0x03, 0x00, 0x10, 0x00, 0x80] [(3, 0x55)] false false))
      (fun t => (t.ioLog, t.flagZ, t.flagC, t.rip)) =
    some ([.write 0x80001000 0x55], false, false, 0x1007) := by
  decide

/-- `out r1, [r2]`, section 6 of `95_test_vectors.md`. -/
theorem test_out_2 :
    after (step (holding (at1000 [0x01, 0x9B, 0x02, 0x01] [(1, 0x10), (2, 0x3000)] false false) 0x3000 4 0xFEEDFACE))
      (fun t => (t.ioLog, t.flagZ, t.flagC, t.rip)) =
    some ([.write 0x10 0xFEEDFACE], false, false, 0x1004) := by
  decide

/-- `nop`, section 7 of `95_test_vectors.md`. -/
theorem test_nop :
    after (step (at1000 [0x8F, 0x80] [] true false))
      (fun t => (t.flagZ, t.flagC, t.rip)) =
    some (true, false, 0x1002) := by
  decide

/-- `halt`, section 7 of `95_test_vectors.md`. -/
theorem test_halt :
    after (step ((at1000 [0x00, 0x90] [] false false).setI true))
      (fun t => (t.halted, t.flagZ, t.flagC, t.rip)) =
    some (true, false, false, 0x1002) := by
  decide

/-- `ise`, section 7 of `95_test_vectors.md`. -/
theorem test_ise :
    after (step (at1000 [0x00, 0x8C] [] false false))
      (fun t => (t.flagI, t.flagZ, t.flagC, t.rip)) =
    some (true, false, false, 0x1002) := by
  decide

/-- `icl`, section 7 of `95_test_vectors.md`. -/
theorem test_icl :
    after (step ((at1000 [0x00, 0x9C] [] false false).setI true))
      (fun t => (t.flagI, t.flagZ, t.flagC, t.rip)) =
    some (false, false, false, 0x1002) := by
  decide

/-- `mse`, section 7 of `95_test_vectors.md`. -/
theorem test_mse :
    after (step (at1000 [0x00, 0x8D] [] false false))
      (fun t => (t.mmuEn, t.flagZ, t.flagC, t.rip)) =
    some (true, false, false, 0x1002) := by
  decide

/-- `tlb 0x10000`, section 7 of `95_test_vectors.md`. -/
theorem test_tlb :
    after (step ((at1000 [0x02, 0xAD, 0x00, 0x00, 0x01, 0x00] [] false false).setPdp 0x5000))
      (fun t => (t.pdp, t.flagZ, t.flagC, t.rip)) =
    some (0x10000, false, false, 0x1006) := by
  decide

/-- `brk`, section 7 of `95_test_vectors.md`. -/
theorem test_brk :
    after (step ((holding (at1000 [0x00, 0xA0] [] true false) 0x410 4 0x1840).setI true))
      (fun t => (t.reg rsp, t.flagI, t.flagZ, t.flagC, t.rip)) =
    some (0x7FF7, false, true, false, 0x1840) := by
  decide

/-- `int 0x30`, section 7 of `95_test_vectors.md`. -/
theorem test_int :
    after (step ((holding (at1000 [0x02, 0xAC, 0x30, 0x00, 0x00, 0x00] [] false true) 0xC0 4 0x1900).setI true))
      (fun t => (t.reg rsp, t.flagI, bytesAt t 0x7FF7 9, t.flagZ, t.flagC, t.rip)) =
    some (0x7FF7, false, [0x30, 0x00, 0x00, 0x00, 0x06, 0x06, 0x10, 0x00, 0x00], false, true, 0x1900) := by
  decide

/-- `int 0x30`, section 7 of `95_test_vectors.md`. -/
theorem test_int_2 :
    after (step (((holding (at1000 [0x02, 0xAC, 0x30, 0x00, 0x00, 0x00] [(resp, 0x20000)] false false) 0xC0 4 0x1900).setI true).setSwap true))
      (fun t => (t.reg rsp, t.swapSp, bytesAt t 0x1FFF3 13, t.rip)) =
    some (0x1FFF3, false, [0x30, 0x00, 0x00, 0x00, 0x0C, 0x06, 0x10, 0x00, 0x00, 0x00, 0x80, 0x00, 0x00], 0x1900) := by
  decide

/-- `reti`, section 7 of `95_test_vectors.md`. -/
theorem test_reti :
    after (step (holding (holding (holding (at1000 [0x00, 0xBA] [(rsp, 0x1FFF7)] false false) 0x1FFF7 1 0xE) 0x1FFF8 4 0x1006) 0x1FFFC 4 0x8000))
      (fun t => (t.reg rsp, t.flagI, t.swapSp, t.flagZ, t.flagC, t.rip)) =
    some (0x8000, true, true, false, true, 0x1006) := by
  decide

/-- `reti`, section 7 of `95_test_vectors.md`. -/
theorem test_reti_2 :
    after (step ((holding (holding (at1000 [0x00, 0xBA] [(rsp, 0x7FFB)] true true) 0x7FFB 1 0xF0) 0x7FFC 4 0x1234).setI true))
      (fun t => (t.reg rsp, t.flagI, t.flagZ, t.flagC, t.rip)) =
    some (0x8000, false, false, false, 0x1234) := by
  decide

/-- `in r0, 0x80000000`, section 6: the transfer is on record with the answer. -/
theorem test_in :
    after (step (at1000 [0x02, 0x8B, 0x00, 0x00, 0x00, 0x80, 0x00] [(0, 0x5)] false false)) (fun t => (t.ioLog, t.rip)) =
    some ([.read 0x80000000 (Config.ioRead 0 0x80000000)], 0x1007) := by
  rfl

/-- `flp 0x5ABC` (R226): the entry of page 5 goes, the entry of page 6 stays. -/
theorem test_flp_entry :
    after (exec (.flp .always (.imm 0x5ABC)) ((at1000 [] [] false false).setTlb [⟨5, 9, true⟩, ⟨6, 9, false⟩]))
      (fun t => (t.tlb, t.rip)) =
    some ([⟨6, 9, false⟩], 0x1006) := by
  decide

/-- R101: the control word `0x8700` and its operand bytes, as the opcode table numbers them; a NOP placed after reset runs first. -/
theorem test_table_words :
    decodeTableWord 32 0x01148700 = some (.cmp .word .always (.reg 20) (.reg 1)) ∧
    decodeTableWord 16 0x8000 = some (.nop .word .always) ∧ decodeTableWord 16 0xC000 = none ∧
    after (step (State.reset.withFetchWord 16 0x8C00)) (fun t => (t.flagI, t.rip)) = some (true, 2) := by
  decide

/-! ## Witnesses -/

/-- A state for the witnesses: the MMU disabled, nothing in memory. -/
def base : State :=
  at1000 [] [(0, 0x64), (1, 7), (2, 0x3000), (31, 1)] false false

/-- Handlers for every exception, for interrupt 0 and for interrupt 255. -/
def ready : State :=
  holding (holding (holding (holding (holding (holding (holding base 0x400 4 0x1800) 0x404 4 0x1810) 0x408 4 0x1820) 0x40C 4 0x1830)
    0x410 4 0x1840) 0 4 0x1900) 0x3FC 4 0x1A00

/-- The MMU enabled and no page present. -/
def unmapped : State :=
  base.setMmu true

/-- The MMU enabled: page 0 present and writable, with a handler at 0x410, page 1 present and writable, with a flags byte at 0x1FFB,
page 4 present and not writable, with the most negative number at 0x4010, all others absent. -/
def paged : State :=
  ((holding (holding (holding (holding (holding (holding (holding base 0x10000 4 0x11003) 0x11000 4 0x0003) 0x11004 4 0x1003)
    0x11010 4 0x4001) 0x410 4 0x1840) 0x1FFB 1 0x08) 0x4010 4 0x80000000).setPdp 0x10000).setMmu true

theorem kindAt_reset (pa : Word) : kindAt [⟨0, 2 ^ 32, .ram⟩] pa = some .ram := by
  have := pa.isLt
  simp only [kindAt]
  rw [if_pos ⟨Nat.zero_le _, by omega⟩]

/-- Everything is RAM in these states. -/
theorem writable_of_reset {s : State} (h : s.physMap = [⟨0, 2 ^ 32, .ram⟩]) (l : List Word) : Writable s l := by
  intro pa _
  rw [h]
  exact kindAt_reset pa

theorem readable_of_reset {s : State} (h : s.physMap = [⟨0, 2 ^ 32, .ram⟩]) (l : List Word) : Readable s l := by
  intro pa _
  rw [h, kindAt_reset]
  exact nofun

theorem base_inv : Inv base := by decide

theorem ready_inv : Inv ready := by decide

/-- A trap can be taken in `ready` and, on the exception stack, with `SWAP` = 1. -/
theorem ready_trap :
    TrapReady ready 0 0x1900 ∧ TrapReady ready 0x3FC 0x1A00 ∧ TrapReady ready 0x400 0x1800 ∧ TrapReady ready 0x404 0x1810 ∧
    TrapReady ready 0x408 0x1820 ∧ TrapReady ready 0x40C 0x1830 ∧ TrapReady ready 0x410 0x1840 ∧
    TrapReady (ready.setSwap true) 0x410 0x1840 := by
  have r := fun (s : State) (h : s.physMap = [⟨0, 2 ^ 32, .ram⟩]) => And.intro (readable_of_reset h) (writable_of_reset h)
  refine ⟨?_, ?_, ?_, ?_, ?_, ?_, ?_, ?_⟩ <;>
    exact ⟨rfl, (r _ rfl).1 _, by decide, by decide, (r _ rfl).2 _⟩

/-- An access through `unmapped` page faults. -/
theorem unmapped_faults :
    (∃ t, memRead .word 0x3000 unmapped = .raised (.pageFaultRead 0x3000) t) ∧
    ∃ t, memDest .word 0x3000 unmapped = .raised (.pageFaultWrite 0x3000) t :=
  ⟨⟨_, rfl⟩, ⟨_, rfl⟩⟩

theorem witness_DecodeOfEncode : (Instr.add .half .ifc (.imm 0xFFFF) (.ptr 34 (some 0xFF))).wellFormed = true := by decide

theorem witness_DecodedIsWellFormed :
    decode [0x84, 0x41, 0x01, 0x02, 0x06, 0xAA] = .ok (.add .half .always (.reg 1) (.ptr 2 (some 6)), [0xAA]) := by decide

/-- NOP with its ignored bits set, JMP of a register with another `tgt` and `off`, ADD of two registers with another `off`. -/
theorem witness_IgnoredFields :
    (Op.ofCode 0x00 = some (.zero .nop) ∧ (⟨2, 0x00, 1, 0, 3, 3⟩ : CtlWord) ≠ ⟨2, 0x00, 0, 0, 0, 0⟩) ∧
    (Op.ofCode 0x08 = some (.one .jmp) ∧ (⟨2, 0x08, 1, 0, 3, 0⟩ : CtlWord) ≠ ⟨2, 0x08, 0, 0, 0, 0⟩ ∧ (0 : BitVec 2) ≠ 1) ∧
    (Op.ofCode 0x01 = some (.two .add) ∧ (⟨2, 0x01, 1, 0, 0, 0⟩ : CtlWord) ≠ ⟨2, 0x01, 0, 0, 0, 0⟩ ∧
      ¬((0 : BitVec 2) = 1 ∨ (0 : BitVec 2) = 1)) := by decide

/-- A control word with every field but `tgt` not 0, and the instruction it begins. -/
theorem witness_ControlWordFields :
    (∃ h, decodeHead 0x41D1 = .ok h) ∧ ∃ i, decode [0xD1, 0x41, 0x02, 0x06, 0x01] = .ok (i, []) :=
  ⟨⟨_, rfl⟩, _, rfl⟩

theorem witness_AmountOfIncDec :
    ((∃ h, decodeHead 0x910C = .ok h ∧ h.op = .one .inc ∧ ∃ i rest, decodeBody h [0x00] = .ok (i, rest)) ∧
      ∃ h, decodeHead 0xB100 = .ok h ∧ h.op = .one .dec ∧ ∃ i rest, decodeBody h [0x22] = .ok (i, rest)) ∧
    Inv base ∧ condHolds .always base = true ∧
    (∃ s₁ s₂ v d, readOperand .word (.reg 0) base = .ok v s₁ ∧ operandDest .word (.reg 0) s₁ = .ok d s₂) ∧
    ∀ p ∈ [(0#2, 1), (1#2, 2), (2#2, 4), (3#2, 8)], p ∈ [(0#2, 1), (1#2, 2), (2#2, 4), (3#2, 8)] :=
  ⟨⟨⟨_, rfl, rfl, _, _, rfl⟩, ⟨_, rfl, rfl, _, _, rfl⟩⟩, base_inv, rfl, ⟨_, _, _, _, rfl, rfl⟩, fun _ h => h⟩

theorem witness_StepRunsDecoded :
    WillFetch (at1000 [0x00, 0x81, 0x01, 0x00] [] false false) ∧
    (at1000 [0x00, 0x81, 0x01, 0x00] [] false false).mmuEn = false ∧
    Readable (at1000 [0x00, 0x81, 0x01, 0x00] [] false false) (addrs 0x1000 4) ∧
    decode (bytesAt (at1000 [0x00, 0x81, 0x01, 0x00] [] false false) 0x1000 4) = .ok (.add .word .always (.reg 1) (.reg 0), []) :=
  ⟨⟨.inl rfl, rfl⟩, rfl, readable_of_reset rfl _, by decide⟩

/-- A fetch that gives an instruction, and one that raises: an undefined opcode, and a page that is not present. -/
theorem witness_StepRunsFetched :
    (WillFetch (at1000 [0x00, 0x80] [] false false) ∧
      ∃ i t, fetch (at1000 [0x00, 0x80] [] false false).boundary = .ok (.run i) t) ∧
    (WillFetch (at1000 [0x00, 0x8E] [] false false) ∧
      ∃ t, fetch (at1000 [0x00, 0x8E] [] false false).boundary = .raised .invalidOpcode t) ∧
    WillFetch unmapped ∧ ∃ t, fetch unmapped.boundary = .raised (.pageFaultRead 0x1000) t :=
  ⟨⟨⟨.inl rfl, rfl⟩, _, _, rfl⟩, ⟨⟨.inl rfl, rfl⟩, _, rfl⟩, ⟨.inl rfl, rfl⟩, _, rfl⟩

theorem witness_ConditionCodes :
    (WillFetch (at1000 [0x70, 0x80] [] false false) ∧
      ∃ t w, memRead .half 0x1000 (at1000 [0x70, 0x80] [] false false).boundary = .ok w t ∧ w.extractLsb' 4 3 = 7#3) ∧
    condHolds (Instr.nop .word .ifz).cond base = false :=
  ⟨⟨⟨.inl rfl, rfl⟩, _, _, rfl, by decide⟩, by decide⟩

/-- A skipped MOV whose operand byte is no register number. -/
theorem witness_FalseConditionSkips :
    WillFetch (at1000 [0x10, 0x97, 0x23, 0x00] [] false false) ∧
    (∃ t, memRead .half 0x1000 (at1000 [0x10, 0x97, 0x23, 0x00] [] false false).boundary = .ok (0x9710#16) t) ∧
    ∃ h, decodeHead 0x9710 = .ok h ∧ condHolds h.cond (at1000 [0x10, 0x97, 0x23, 0x00] [] false false) = false :=
  ⟨⟨.inl rfl, rfl⟩, ⟨_, rfl⟩, _, rfl, rfl⟩

/-- An undefined opcode, and register number 35, the first that is none. -/
theorem witness_InvalidEncodingTraps :
    (WillFetch (at1000 [0x00, 0x8E] [] false false) ∧
      (∃ t, memRead .half 0x1000 (at1000 [0x00, 0x8E] [] false false).boundary = .ok (0x8E00#16) t) ∧
      ∃ e, decodeHead 0x8E00 = .error e) ∧
    WillFetch (at1000 [0x00, 0x97, 0x23, 0x00] [] false false) ∧
    bytesAt (at1000 [0x00, 0x97, 0x23, 0x00] [] false false) 0x1000 2 = [0x00, 0x97] ∧
    Readable (at1000 [0x00, 0x97, 0x23, 0x00] [] false false) (addrs 0x1000 2) ∧
    ∃ h, decodeHead ((0x97 : Byte) ++ (0x00 : Byte)) = .ok h ∧
      condHolds h.cond (at1000 [0x00, 0x97, 0x23, 0x00] [] false false) = true ∧
      Readable (at1000 [0x00, 0x97, 0x23, 0x00] [] false false) (addrs 0x1002 h.bodyLen) ∧
      decodeBody h (bytesAt (at1000 [0x00, 0x97, 0x23, 0x00] [] false false) 0x1002 h.bodyLen) = .error .badRegister :=
  ⟨⟨⟨.inl rfl, rfl⟩, ⟨_, rfl⟩, _, rfl⟩, ⟨.inl rfl, rfl⟩, by decide, readable_of_reset rfl _, _, rfl, rfl,
    readable_of_reset rfl _, by rfl⟩

theorem witness_BoundaryAndHalt :
    ((base.setIrq [some 0xFF]).irq = some 0xFF :: [] ∧ ((base.setIrq [some 0xFF]).setI true).flagI = true ∧
      (base.setIrq [some 0xFF]).flagI = false) ∧
    (base.setHalted true).halted = true ∧ (base.setHalted true).request = none ∧
    ((base.setHalted true).setIrq [some 0]).request ≠ none ∧ ((base.setHalted true).setIrq [some 0]).flagI = false := by
  decide

/-- Interrupts 0 and 255, an exception with an operand the spec does not fix and one with an address. -/
theorem witness_VectorAddresses :
    (∃ t, takeInterrupt 0 ready = .next t) ∧ (∃ t, takeInterrupt 0xFF ready = .next t) ∧
    (∃ t, takeException .divideByZero ready = .next t) ∧ ∃ t, takeException (.pageFaultWrite 0x3000) ready = .next t :=
  ⟨⟨_, rfl⟩, ⟨_, rfl⟩, ⟨_, rfl⟩, ⟨_, rfl⟩⟩

theorem witness_TrapEntryFrame :
    Inv ready ∧ TrapReady ready (BitVec.ofNat 32 (4 * (0x00 : Byte).toNat)) 0x1900 ∧
    TrapReady ready (BitVec.ofNat 32 (4 * (0xFF : Byte).toNat)) 0x1A00 ∧ TrapReady ready 0x400 0x1800 ∧
    TrapReady ready 0x404 0x1810 ∧ TrapReady ready 0x408 0x1820 ∧ TrapReady ready 0x40C 0x1830 ∧ TrapReady ready 0x410 0x1840 ∧
    Inv (ready.setSwap true) ∧ TrapReady (ready.setSwap true) 0x410 0x1840 := by
  obtain ⟨h1, h2, h3, h4, h5, h6, h7, h8⟩ := ready_trap
  exact ⟨ready_inv, h1, h2, h3, h4, h5, h6, h7, ready_inv, h8⟩

theorem witness_TrapEntryKeeps :
    (∃ t, takeException .breakpoint ready = .next t) ∧ ∃ t, takeInterrupt 0 (ready.setSwap true) = .next t :=
  ⟨⟨_, rfl⟩, ⟨_, rfl⟩⟩

/-- `paged` after any translations: what is held is what the tables say. -/
def AfterPaged (s : State) : Prop :=
  SameButFills paged s ∧ ∀ e ∈ s.tlb, e ∈ [(⟨0, 0, true⟩ : TlbEntry), ⟨1, 1, true⟩, ⟨4, 4, false⟩]

theorem afterPaged_paged : AfterPaged paged :=
  ⟨.refl _, fun _ h => absurd h List.not_mem_nil⟩

theorem AfterPaged.drawn {s : State} (h : AfterPaged s) : AfterPaged s.drawn :=
  ⟨h.1.trans (sameButFills_drawn s), h.2⟩

theorem AfterPaged.walk {s : State} (h : AfterPaged s) (va : Word) : Machine.walk s va = Machine.walk paged va := by
  have hr : ∀ use pa, physRead32 use s pa = physRead32 use paged pa := fun use pa => by
    rw [physRead_eq (readable_of_reset h.1.physMap _), physRead_eq (readable_of_reset rfl _), wordAt, h.1.mem, ← wordAt]
  simp only [Machine.walk, hr, h.1.pdp]

theorem AfterPaged.mmuEn {s : State} (h : AfterPaged s) : s.mmuEn = true := h.1.mmuEn

theorem AfterPaged.translate {s : State} (h : AfterPaged s) {kind : AccessKind} {va : Word} {e : TlbEntry}
    (hw : Machine.walk paged va = .ok (some e)) (hk : kind = .write → e.writable = true)
    (he : e ∈ [(⟨0, 0, true⟩ : TlbEntry), ⟨1, 1, true⟩, ⟨4, 4, false⟩])
    (hu : ∀ e' ∈ [(⟨0, 0, true⟩ : TlbEntry), ⟨1, 1, true⟩, ⟨4, 4, false⟩], e'.vpn = vpnOf va → e' = e) :
    ∃ t, Machine.translate kind va s = .ok (joinPage e.ppn va) t ∧ AfterPaged t := by
  obtain ⟨t, ht, hl⟩ := translate_present h.mmuEn (fun e' h' => hu e' (h.2 e' h')) ((h.walk va).trans hw) hk
  have hs := translate_fills kind va s
  rw [ht] at hs
  refine ⟨t, ht, h.1.trans hs, fun e' h' => ?_⟩
  rcases hl e' h' with h' | rfl
  · exact h.2 e' h'
  · exact he

/-- A read of a page that is present. -/
theorem AfterPaged.memRead {s : State} (h : AfterPaged s) {sz : Size} {va : Word} {e : TlbEntry}
    (hw : Machine.walk paged va = .ok (some e))
    (he : e ∈ [(⟨0, 0, true⟩ : TlbEntry), ⟨1, 1, true⟩, ⟨4, 4, false⟩])
    (hu : ∀ e' ∈ [(⟨0, 0, true⟩ : TlbEntry), ⟨1, 1, true⟩, ⟨4, 4, false⟩], e'.vpn = vpnOf va → e' = e)
    (hb : sz.bytes ≤ bytesInPage va sz.bytes) :
    ∃ t, Machine.memRead sz va s = .ok (BitVec.ofNat sz.bits (leNat (bytesAt paged (joinPage e.ppn va) sz.bytes))) t ∧
      AfterPaged t := by
  obtain ⟨t, ht, h'⟩ := h.translate (kind := .read) hw nofun he hu
  have hr := readable_of_reset h'.1.physMap (addrs (joinPage e.ppn va) sz.bytes)
  refine ⟨t, ?_, h'⟩
  simp only [Machine.memRead, translateRange, ht, Res.bind_ok, hb, if_true, readFault_readable _ hr, State.busBytes_readable hr,
    State.afterRead_readable hr, h'.1.mem, bytesAt]

/-- A page that is not present faults, whatever else is held. -/
theorem AfterPaged.absent {s : State} (h : AfterPaged s) (kind : AccessKind) {va : Word} (hw : Machine.walk paged va = .ok none)
    (hu : ∀ e' ∈ [(⟨0, 0, true⟩ : TlbEntry), ⟨1, 1, true⟩, ⟨4, 4, false⟩], e'.vpn ≠ vpnOf va) :
    ∃ t, Machine.translate kind va s = .raised (pageFault kind va) t :=
  ⟨_, translate_absent h.mmuEn (fun e' h' => hu e' (h.2 e' h')) ((h.walk va).trans hw)⟩

/-- Page 4 can be read and not written, held or not. -/
theorem AfterPaged.readOnly {s : State} (h : AfterPaged s) :
    ∃ t, Machine.translate .write 0x4010 s = .raised (.pageFaultWrite 0x4010) t :=
  translate_readOnly (e := ⟨4, 4, false⟩) h.mmuEn
    (fun e' h' => (by decide : ∀ e ∈ [(⟨0, 0, true⟩ : TlbEntry), ⟨1, 1, true⟩, ⟨4, 4, false⟩],
      e.vpn = vpnOf 0x4010 → e.writable = false) e' (h.2 e' h'))
    ((h.walk _).trans (by rfl)) rfl

/-- The MMU enabled, with the tables and page 0 of `paged`, whatever page 1 holds and whatever is cached of them. -/
structure Stacked (s : State) : Prop where
  mmuEn : s.mmuEn = true
  pdp : s.pdp = 0x10000
  physMap : s.physMap = [⟨0, 2 ^ 32, .ram⟩]
  mem : ∀ a, a / 0x1000 ≠ 1 → Memory.read s.mem a = Memory.read paged.mem a
  tlb : ∀ e ∈ s.tlb, e ∈ [(⟨0, 0, true⟩ : TlbEntry), ⟨1, 1, true⟩]

theorem Stacked.wordAt {s : State} (h : Stacked s) {a : Word} (ha : ∀ n ∈ [a, a + 1, a + 2, a + 3], n.toNat / 0x1000 ≠ 1) :
    wordAt s a = Machine.wordAt paged a := by
  simp only [List.forall_mem_cons] at ha
  obtain ⟨h0, h1, h2, h3, -⟩ := ha
  simp only [Machine.wordAt, h.mem _ h0, h.mem _ h1, h.mem _ h2, h.mem _ h3]

theorem Stacked.read {s : State} (h : Stacked s) (use : BusUse) {a w : Word}
    (ha : ∀ n ∈ [a, a + 1, a + 2, a + 3], n.toNat / 0x1000 ≠ 1) (hw : Machine.wordAt paged a = w) :
    physRead32 use s a = .ok w := by
  rw [physRead_eq (readable_of_reset h.physMap _), h.wordAt ha, hw]

/-- Pages 0 and 1 are translated, held or not. -/
theorem Stacked.translate {s : State} (h : Stacked s) (kind : AccessKind) {va : Word} {e : TlbEntry}
    (he : e = ⟨0, 0, true⟩ ∧ (va = 0x410) ∨ e = ⟨1, 1, true⟩ ∧ va ∈ [0x1FFC, 0x1FFB, 0x1FF7]) :
    ∃ t, Machine.translate kind va s = .ok (joinPage e.ppn va) t ∧ Stacked t ∧ SameButFills s t := by
  have hd := h.read .directory (a := 0x10000) (w := 0x11003) (by simp) (by decide)
  have h0 := h.read .table (a := 0x11000) (w := 0x0003) (by simp) (by decide)
  have h1 := h.read .table (a := 0x11004) (w := 0x1003) (by simp) (by decide)
  have hw : walk s va = .ok (some e) ∧ (∀ e' ∈ [(⟨0, 0, true⟩ : TlbEntry), ⟨1, 1, true⟩], e'.vpn = vpnOf va → e' = e) ∧
      e ∈ [(⟨0, 0, true⟩ : TlbEntry), ⟨1, 1, true⟩] ∧ e.writable = true := by
    have key : ∀ (va d p w : Word), (0x10000 : Word) + 4 * (va.extractLsb' 22 10).setWidth 32 = d →
        physRead32 .directory s d = .ok 0x11003 →
        joinPage ((0x11003 : Word).extractLsb' 12 20) 0 + 4 * (va.extractLsb' 12 10).setWidth 32 = p →
        physRead32 .table s p = .ok w → w.getLsbD 0 = true →
        walk s va = .ok (some ⟨vpnOf va, w.extractLsb' 12 20, w.getLsbD 1⟩) := by
      intro va d p w e1 r1 e2 r2 e3
      unfold walk
      rw [h.pdp, e1, r1]
      dsimp only
      rw [if_pos (by decide), e2, r2]
      dsimp only
      rw [if_pos e3]
    rcases he with ⟨rfl, rfl⟩ | ⟨rfl, hv⟩
    · exact ⟨key _ _ _ _ (by decide) hd (by decide) h0 (by decide), by decide, by decide, rfl⟩
    · simp only [List.mem_cons, List.not_mem_nil, or_false] at hv
      rcases hv with rfl | rfl | rfl <;>
        exact ⟨key _ _ _ _ (by decide) hd (by decide) h1 (by decide), by decide, by decide, rfl⟩
  obtain ⟨hw, hu, hm, hwr⟩ := hw
  obtain ⟨t, ht, hl⟩ := translate_present (kind := kind) h.mmuEn (fun e' h' => hu e' (h.tlb e' h')) hw fun _ => hwr
  have hs := translate_fills kind va s
  rw [ht] at hs
  refine ⟨t, ht, ⟨hs.mmuEn.trans h.mmuEn, hs.pdp.trans h.pdp, hs.physMap.trans h.physMap, fun a ha => ?_, fun e' h' => ?_⟩, hs⟩
  · rw [hs.mem, h.mem a ha]
  · rcases hl e' h' with h' | rfl
    exacts [h.tlb e' h', hm]

/-- A push into page 1 completes. -/
theorem Stacked.push {s : State} (h : Stacked s) {sz : Size} (v : BitVec sz.bits) {va : Word}
    (hr : s.reg rsp - BitVec.ofNat 32 sz.bytes = va) (hv : va ∈ [0x1FFC, 0x1FFB, 0x1FF7]) (hb : sz.bytes ≤ bytesInPage va sz.bytes)
    (hp : ∀ pa ∈ addrs (joinPage 1 va) sz.bytes, pa.toNat / 0x1000 = 1) :
    ∃ t, Machine.push sz v s = .ok () t ∧ Stacked t ∧ t.reg rsp = va := by
  obtain ⟨u, hu, h', hs⟩ := h.translate .write (va := va) (.inr ⟨rfl, hv⟩)
  have hf := writeFault_writable u.busError (writable_of_reset h'.physMap (addrs (joinPage 1 va) sz.bytes))
  refine ⟨_, by simp only [Machine.push, hr, memDest, translateRange, hu, Res.bind_ok, hb, if_true, hf]; rfl, ?_, by simp⟩
  refine ⟨h'.mmuEn, h'.pdp, h'.physMap, fun a ha => ?_, h'.tlb⟩
  exact (Memory.read_writeRam_other _ _ _ _ fun pa hpa _ e => ha (by rw [← e]; exact hp pa hpa)).trans (h'.mem a ha)

/-- A breakpoint with the vector and the stack in pages that are present. -/
theorem Stacked.breakpoint {s : State} (h : Stacked s) (hw : s.swapSp = false) (hr : s.reg rsp = 0x2000) :
    ∃ t, takeException .breakpoint s = .next t := by
  have h0 : Stacked s.drawn := ⟨h.mmuEn, h.pdp, h.physMap, h.mem, h.tlb⟩
  obtain ⟨s₁, e1, h1, hs⟩ := h0.translate .read (va := 0x410) (.inl ⟨rfl, rfl⟩)
  have hm : ∃ w, memRead .word 0x410 s.drawn = .ok w s₁ ∧ w ≠ 0#32 := by
    have hk : Size.word.bytes ≤ bytesInPage 0x410 Size.word.bytes := by decide
    have ha : Readable s₁ (addrs (joinPage 0 0x410) Size.word.bytes) := readable_of_reset h1.physMap _
    refine ⟨_, memRead_eq_ok.2 ⟨_, s₁, ?_, readFault_readable _ ha, rfl, (State.afterRead_readable ha).symm⟩, ?_⟩
    · simp only [translateRange, e1, Res.bind_ok, hk, if_true]
    · rw [State.busBytes_readable ha]
      have : BitVec.ofNat 32 (leNat (bytesAt s₁ 0x410 4)) = 0x1840 := by
        rw [wordAt_le, h1.wordAt (by simp)]
        decide
      exact fun e => absurd (this.symm.trans e) (by decide)
  obtain ⟨w, hm, hw0⟩ := hm
  have sw : s₁.swapSp = false := hs.swapSp.trans hw
  have r1 : s₁.reg rsp = 0x2000 := (hs.reg rsp).trans hr
  obtain ⟨s₂, p2, h2, r2⟩ := h1.push (sz := .word) s.rip (va := 0x1FFC) (by rw [r1]; decide) (by decide) (by decide)
    (by simp [addrs, List.range_succ, joinPage, Size.bytes])
  obtain ⟨s₃, p3, h3, r3⟩ := h2.push (sz := .byte) (flagsByte s₁) (va := 0x1FFB) (by rw [r2]; decide) (by decide) (by decide)
    (by simp [addrs, List.range_succ, joinPage, Size.bytes])
  obtain ⟨s₄, p4, -, -⟩ := h3.push (sz := .word) (Config.freeWord s.draws) (va := 0x1FF7) (by rw [r3]; decide) (by decide) (by decide)
    (by simp [addrs, List.range_succ, joinPage, Size.bytes])
  refine ⟨s₄.enterHandler w, enter_next.2 ⟨w, s₁, s₄, hm, hw0, ?_, rfl⟩⟩
  simp only [pushFrame, sw, Bool.false_eq_true, if_false, Res.bind_ok, p2, p3, p4]

/-- The MMU enabled: an exception is taken. -/
theorem witness_TrapEntryKeeps_paged :
    (paged.setReg rsp 0x2000).mmuEn = true ∧ ∃ t, takeException .breakpoint (paged.setReg rsp 0x2000) = .next t :=
  ⟨rfl, Stacked.breakpoint ⟨rfl, rfl, rfl, fun _ _ => rfl, fun _ h => absurd h List.not_mem_nil⟩ rfl (State.reg_setReg_same ..)⟩

/-- No handler; a vector whose page is not present; a handler with a stack whose page is not present. -/
theorem witness_TrapEntryStops :
    (∃ s₁, memRead .word 0x400 base = .ok (0#32 : Word) s₁) ∧
    (∃ s₁, memRead .word 0x400 unmapped = .raised (.pageFaultRead 0x400) s₁) ∧
    ∃ h s₁ s₂, memRead .word 0x410 paged = .ok h s₁ ∧ h ≠ 0#32 ∧ pushFrame 0 0 s₁ = .raised (.pageFaultWrite 0x7FFC) s₂ := by
  obtain ⟨s₁, h1, a1⟩ := afterPaged_paged.memRead (sz := .word) (va := 0x410) (e := ⟨0, 0, true⟩) rfl (by decide) (by decide) (by decide)
  obtain ⟨t, ht⟩ := a1.absent .write (va := 0x7FFC) rfl (by decide)
  refine ⟨⟨_, rfl⟩, ⟨_, rfl⟩, _, s₁, t, h1, by decide, ?_⟩
  have hp : push .word 0 s₁ = .raised (.pageFaultWrite 0x7FFC) t := by
    show (memDest .word (s₁.reg rsp - 4) _).bind _ = _
    rw [a1.1.reg, show paged.reg rsp - 4 = 0x7FFC by decide, memDest_of_raised ht]
    rfl
  unfold pushFrame
  rw [show s₁.swapSp = false from a1.1.swapSp]
  show (push .word 0 _).bind _ = _
  rw [hp]
  rfl

theorem witness_DivisionByZeroTraps :
    condHolds .always base = true ∧
    ∃ s₁ s₂ t, readOperand .byte (.imm 0) base = .ok 0 s₁ ∧ readOperand .byte (.reg 0) s₁ = .ok t s₂ :=
  ⟨rfl, _, _, _, rfl, rfl⟩

/-- Each clause, with a page that is not present: a source, the operand of a one-operand instruction, a target after a source that
can be read, and the pops. -/
theorem witness_ReadFaultIsPrecise :
    condHolds .always unmapped = true ∧
    (∃ u, readOperand .word (.ptr 2 none) unmapped = .raised (.pageFaultRead 0x3000) u) ∧
    (∃ u, readOperand .byte (.immPtr 0xFFFFFFFF) unmapped = .raised (.pageFaultRead 0xFFFFFFFF) u) ∧
    (∃ v s₁ u, readOperand .word (.reg 1) unmapped = .ok v s₁ ∧
      readOperand .word (.ptr 2 (some 0xFF)) s₁ = .raised (.pageFaultRead 0x30FF) u) ∧
    (∃ u, memRead .half (unmapped.reg rsp) unmapped = .raised (.pageFaultRead 0x8000) u) ∧
    (∃ u, memRead .word (unmapped.reg rsp) unmapped = .raised (.pageFaultRead 0x8000) u) ∧
    ∃ u, memRead .byte (unmapped.reg rsp) unmapped = .raised (.pageFaultRead 0x8000) u :=
  ⟨rfl, ⟨_, rfl⟩, ⟨_, rfl⟩, ⟨_, _, _, rfl, rfl⟩, ⟨_, rfl⟩, ⟨_, rfl⟩, ⟨_, rfl⟩⟩

/-- RETI with the flags byte at the end of page 1 and `rip` in page 2, which is not present. -/
theorem witness_ReadFaultIsPrecise_retiSecond :
    condHolds .always (paged.setReg rsp 0x1FFF) = true ∧
    ∃ f s₁ u, memRead .byte ((paged.setReg rsp 0x1FFF).reg rsp) (paged.setReg rsp 0x1FFF) = .ok f s₁ ∧
      memRead .word ((paged.setReg rsp 0x1FFF).reg rsp + 1) s₁ = .raised (.pageFaultRead 0x2000) u := by
  obtain ⟨t, ht, a⟩ := afterPaged_paged.memRead (sz := .byte) (va := 0x1FFF) (e := ⟨1, 1, true⟩) rfl (by decide) (by decide) (by decide)
  obtain ⟨u, hu⟩ := a.absent .read (va := 0x2000) rfl (by decide)
  rw [State.reg_setReg_same, memRead_setReg, ht]
  refine ⟨rfl, _, t.setReg rsp 0x1FFF, u.setReg rsp 0x1FFF, rfl, ?_⟩
  rw [memRead_setReg, show (0x1FFF : Word) + 1 = 0x2000 by decide, memRead_of_raised hu]
  rfl

/-- RETI with `SWAP` in the flags byte, that byte and `rip` at the end of page 1, and the stack pointer in page 2. -/
theorem witness_ReadFaultIsPrecise_retiThird :
    condHolds .always (paged.setReg rsp 0x1FFB) = true ∧
    ∃ f s₁ r s₂ u, memRead .byte ((paged.setReg rsp 0x1FFB).reg rsp) (paged.setReg rsp 0x1FFB) = .ok f s₁ ∧
      memRead .word ((paged.setReg rsp 0x1FFB).reg rsp + 1) s₁ = .ok r s₂ ∧ f.getLsbD 3 = true ∧
      memRead .word ((paged.setReg rsp 0x1FFB).reg rsp + 5) s₂ = .raised (.pageFaultRead 0x2000) u := by
  obtain ⟨t, ht, a⟩ := afterPaged_paged.memRead (sz := .byte) (va := 0x1FFB) (e := ⟨1, 1, true⟩) rfl (by decide) (by decide) (by decide)
  obtain ⟨t', ht', a'⟩ := a.memRead (sz := .word) (va := 0x1FFC) (e := ⟨1, 1, true⟩) rfl (by decide) (by decide) (by decide)
  obtain ⟨u, hu⟩ := a'.absent .read (va := 0x2000) rfl (by decide)
  rw [State.reg_setReg_same, memRead_setReg, ht]
  have h2 := memRead_setReg .word 0x1FFC t rsp 0x1FFB
  rw [ht'] at h2
  refine ⟨rfl, _, t.setReg rsp 0x1FFB, _, t'.setReg rsp 0x1FFB, u.setReg rsp 0x1FFB, rfl, h2, by decide, ?_⟩
  rw [memRead_setReg, show (0x1FFB : Word) + 5 = 0x2000 by decide, memRead_of_raised hu]
  rfl

/-- A target that can be read and not written, where the result is fixed: the count and the divisor are 31; as bytes the divisor is
-1 and the target 0; and where it is open: the smallest count that is not below W, and the most negative number by -1. -/
theorem witness_WriteFaultIsPrecise :
    condHolds .always paged = true ∧
    (∃ s₁ t s₂ u, readOperand .word (.imm 31) paged = .ok 31#32 s₁ ∧ readOperand .word (.immPtr 0x4010) s₁ = .ok t s₂ ∧
      operandDest .word (.immPtr 0x4010) s₂ = .raised (.pageFaultWrite 0x4010) u) ∧
    ((31#32).toNat < Size.word.bits ∧ (31#32 : Word) ≠ 0 ∧ (31#32 : Word).toInt ≠ -1) ∧
    (∃ s₁ t s₂ u, readOperand .byte (.imm 0xFF) paged = .ok 0xFF#8 s₁ ∧ readOperand .byte (.immPtr 0x4010) s₁ = .ok t s₂ ∧
      operandDest .byte (.immPtr 0x4010) s₂ = .raised (.pageFaultWrite 0x4010) u ∧ (0xFF#8).toInt = -1 ∧
      ¬(t.toInt = -2 ^ (Size.byte.bits - 1) ∧ (0xFF#8).toInt = -1)) ∧
    (∃ s₁ t s₂ u, readOperand .word (.imm 32) paged = .ok 32#32 s₁ ∧ readOperand .word (.immPtr 0x4010) s₁ = .ok t s₂ ∧
      operandDest .word (.immPtr 0x4010) s₂.drawn = .raised (.pageFaultWrite 0x4010) u ∧ Size.word.bits ≤ (32#32).toNat) ∧
    ∃ s₁ t s₂ u, readOperand .word (.imm 0xFFFFFFFF) paged = .ok 0xFFFFFFFF#32 s₁ ∧
      readOperand .word (.immPtr 0x4010) s₁ = .ok t s₂ ∧
      operandDest .word (.immPtr 0x4010) s₂.drawn = .raised (.pageFaultWrite 0x4010) u ∧
      t.toInt = -2 ^ (Size.word.bits - 1) ∧ (0xFFFFFFFF#32).toInt = -1 := by
  obtain ⟨t, ht, a⟩ := afterPaged_paged.memRead (sz := .word) (va := 0x4010) (e := ⟨4, 4, false⟩) rfl (by decide) (by decide) (by decide)
  obtain ⟨t', ht', a'⟩ := afterPaged_paged.memRead (sz := .byte) (va := 0x4010) (e := ⟨4, 4, false⟩) rfl (by decide) (by decide) (by decide)
  obtain ⟨u, hu⟩ := a.readOnly
  obtain ⟨u', hu'⟩ := a'.readOnly
  obtain ⟨w, hw⟩ := a.drawn.readOnly
  exact ⟨rfl, ⟨_, _, _, _, rfl, ht, memDest_of_raised hu⟩, by decide,
    ⟨_, _, _, _, rfl, ht', memDest_of_raised hu', by decide, by decide⟩,
    ⟨_, _, _, _, rfl, ht, memDest_of_raised hw, by decide⟩,
    _, _, _, _, rfl, ht, memDest_of_raised hw, by decide, by decide⟩

/-- A target that is not read, an operand that is read and written, the operand of POP with rsp at the same place, and the stack of
PUSH, CALL and RCALL. -/
theorem witness_WriteFaultIsPrecise_others :
    (∃ v s₁ u, readOperand .word (.reg 1) unmapped = .ok v s₁ ∧
      operandDest .word (.ptr 2 none) s₁ = .raised (.pageFaultWrite 0x3000) u) ∧
    (∃ v s₁ u, readOperand .word (.immPtr 0x4010) paged = .ok v s₁ ∧
      operandDest .word (.immPtr 0x4010) s₁ = .raised (.pageFaultWrite 0x4010) u) ∧
    (condHolds .always (paged.setReg rsp 0x4010) = true ∧
      ∃ v s₁ u, memRead .word ((paged.setReg rsp 0x4010).reg rsp) (paged.setReg rsp 0x4010) = .ok v s₁ ∧
        operandDest .word (.immPtr 0x4010) s₁ = .raised (.pageFaultWrite 0x4010) u) ∧
    ∃ v s₁ u, readOperand .word (.reg 1) unmapped = .ok v s₁ ∧
      memDest .word (unmapped.reg rsp - 4) s₁ = .raised (.pageFaultWrite 0x7FFC) u := by
  obtain ⟨t, ht, a⟩ := afterPaged_paged.memRead (sz := .word) (va := 0x4010) (e := ⟨4, 4, false⟩) rfl (by decide) (by decide) (by decide)
  obtain ⟨u, hu⟩ := a.readOnly
  rw [State.reg_setReg_same, memRead_setReg, ht]
  refine ⟨⟨_, _, _, rfl, rfl⟩, ⟨_, _, _, ht, memDest_of_raised hu⟩, ⟨rfl, _, t.setReg rsp 0x4010, u.setReg rsp 0x4010, rfl, ?_⟩,
    _, _, _, rfl, rfl⟩
  refine memDest_of_raised ?_
  rw [translate_setReg, hu]
  rfl

theorem witness_TrapRoundTrip :
    Inv ready ∧ TrapReady ready (BitVec.ofNat 32 (4 * (0xFF : Byte).toNat)) 0x1A00 ∧ Inv (ready.setSwap true) ∧
    TrapReady (ready.setSwap true) (BitVec.ofNat 32 (4 * (0x00 : Byte).toNat)) 0x1900 :=
  ⟨ready_inv, ready_trap.2.1, ready_inv,
    ⟨rfl, readable_of_reset rfl _, by decide, by decide, writable_of_reset rfl _⟩⟩

/-- The top of the address space among them: the four bytes from 0xFFFFFFFE. -/
theorem witness_OperandForms :
    base.mmuEn = false ∧ Readable base (addrs (base.reg 2) 4) ∧ Writable base (addrs (base.reg 2 + BitVec.ofNat 32 0xFF) 2) ∧
    Readable base (addrs 0xFFFFFFFE 4) :=
  ⟨rfl, readable_of_reset rfl _, writable_of_reset rfl _, readable_of_reset rfl _⟩

/-- RAM below 0x4000, ROM from there to 0x4FFF, nothing above. -/
def mapped : State :=
  { base with physMap := [⟨0, 0x4000, .ram⟩, ⟨0x4000, 0x1000, .rom⟩] }

/-- The same memory map, on a platform where an access outside it goes on. -/
def lenient : State :=
  { mapped with busError := ⟨.goesOn, .goesOn, .goesOn⟩ }

/-- The last byte of a read, and of writes to ROM and to nothing, is the one that stops it; and accesses that page fault. -/
theorem witness_AccessStops :
    mapped.mmuEn = false ∧ (mapped.busError.readNone = .noStep ∧ ¬Readable mapped (addrs 0x4FFD 4)) ∧
    (∃ pa ∈ addrs 0x3FFD 4, kindAt mapped.physMap pa = some .rom ∧ mapped.busError.writeRom = .noStep) ∧
    (∃ pa ∈ addrs 0x5000 1, kindAt mapped.physMap pa = none ∧ mapped.busError.writeNone = .noStep) ∧
    (∃ e t, memRead .word 0x3000 unmapped = .raised e t) ∧ ∃ e t, memDest .word 0x3000 unmapped = .raised e t :=
  ⟨rfl, ⟨rfl, fun h => h 0x5000 (by decide) (by decide)⟩, ⟨0x4000, by decide⟩, ⟨0x5000, by decide⟩, ⟨_, _, rfl⟩, ⟨_, _, rfl⟩⟩

/-- The same accesses where they go on. -/
theorem witness_AccessStops_goesOn :
    lenient.mmuEn = false ∧ lenient.busError.readNone = .goesOn ∧ ¬Readable lenient (addrs 0x4FFD 4) ∧ Inv lenient ∧
    (∀ a ∈ [0x3FFD, 0x4FFD], ¬Writable lenient (addrs a 4) ∧ ∀ pa ∈ addrs a 4,
      (kindAt lenient.physMap pa = none → lenient.busError.writeNone = .goesOn) ∧
        (kindAt lenient.physMap pa = some .rom → lenient.busError.writeRom = .goesOn)) := by
  refine ⟨rfl, rfl, fun h => h 0x5000 (by decide) (by decide), by decide, fun a ha => ⟨?_, fun _ _ => ⟨fun _ => rfl, fun _ => rfl⟩⟩⟩
  rcases List.mem_pair.1 ha with rfl | rfl
  · exact fun h => absurd (h 0x4000 (by decide)) (by decide)
  · exact fun h => absurd (h 0x5000 (by decide)) (by decide)

/-- R71: a word written half in RAM, half in ROM, changes RAM alone; a byte read where there is nothing is a free value. -/
theorem test_goesOn :
    after (exec (.mov .word .always (.imm 0x44332211) (.immPtr 0x3FFE)) lenient) (fun t => (bytesAt t 0x3FFE 4, t.rip)) =
      some ([0x11, 0x22, 0, 0], 0x100A) ∧
    memRead .byte 0x5000 lenient = .ok (BitVec.ofNat 8 (leNat [Config.busRead 0 .data 0x5000])) lenient.drawn :=
  ⟨by decide, rfl⟩

theorem witness_LittleEndianStores :
    Inv base ∧ base.mmuEn = false ∧ Writable base (addrs 0xFFFFFFFE 4) ∧ Writable base (addrs 0x3000 4) :=
  ⟨base_inv, rfl, writable_of_reset rfl _, writable_of_reset rfl _⟩

theorem witness_TranslationFollowsTables :
    paged.mmuEn = true ∧ (∃ pa t, translate .write 0x1FFF paged = .ok pa t) ∧ (∃ pa t, translate .read 0x4000 paged = .ok pa t) ∧
    (∃ ex t, translate .read 0x3000 paged = .raised ex t) ∧ (∃ ex t, translate .write 0x4000 paged = .raised ex t) :=
  ⟨rfl, ⟨_, _, rfl⟩, ⟨_, _, rfl⟩, ⟨_, _, rfl⟩, ⟨_, _, rfl⟩⟩

/-- A page the walk finds: read-only and read, writable and written, and written with its entry held. -/
theorem witness_TranslationFollowsTables_succeeds :
    (∃ e, walk paged 0x4FFF = .ok (some e)) ∧
    ∀ l ∈ [[], [(⟨1, 1, true⟩ : TlbEntry)]], ∃ e, walk (paged.setTlb l) 0x1000 = .ok (some e) ∧ e.writable = true ∧
      ∀ e' ∈ (paged.setTlb l).tlb, e'.vpn = vpnOf 0x1000 → e'.writable = true := by
  have hs : ∀ (s : State) (l : List TlbEntry) (va : Word), walk (s.setTlb l) va = walk s va := fun _ _ _ => rfl
  exact ⟨⟨_, rfl⟩, fun l hl => ⟨⟨1, 1, true⟩, (hs paged l _).trans rfl, rfl, (by decide : ∀ l ∈ [[], [(⟨1, 1, true⟩ : TlbEntry)]],
    ∀ e' ∈ l, e'.vpn = vpnOf 0x1000 → e'.writable = true) l hl⟩⟩

/-- A directory entry that is not present, a table entry that is, and one that is not. -/
theorem witness_WalkReadsTables :
    (Readable paged (addrs (paged.pdp + BitVec.ofNat 32 (4 * ((0x400000 : Word).toNat / 2 ^ 22))) 4) ∧
      (wordAt paged (paged.pdp + BitVec.ofNat 32 (4 * ((0x400000 : Word).toNat / 2 ^ 22)))).getLsbD 0 = false) ∧
    ((wordAt paged (paged.pdp + BitVec.ofNat 32 (4 * ((0x1010 : Word).toNat / 2 ^ 22)))).getLsbD 0 = true ∧
      Readable paged (addrs 0x11004 4) ∧ (wordAt paged 0x11004).getLsbD 0 = true) ∧
    Readable paged (addrs 0x1100C 4) ∧ (wordAt paged 0x1100C).getLsbD 0 = false := by
  have r := readable_of_reset (s := paged) rfl
  exact ⟨⟨r _, by decide⟩, ⟨by decide, r _, by decide⟩, r _, by decide⟩

/-- A page that is not present, a page that is not writable, and one that is held as not writable: as the tables say, and against
them. -/
theorem witness_PageFaultAddress :
    (paged.mmuEn = true ∧ (∀ e ∈ paged.tlb, e.vpn ≠ vpnOf 0x3000) ∧ walk paged 0x3000 = .ok none) ∧
    ((∀ e ∈ paged.tlb, e.vpn ≠ vpnOf 0x4010) ∧ ∃ e, walk paged 0x4010 = .ok (some e) ∧ e.writable = false) ∧
    ∀ e ∈ [(⟨4, 4, false⟩ : TlbEntry), ⟨1, 1, false⟩], (paged.setTlb [e]).mmuEn = true ∧ e ∈ (paged.setTlb [e]).tlb ∧
      Inv (paged.setTlb [e]) ∧ e.vpn = vpnOf (joinPage e.vpn 0x010) ∧ e.writable = false := by
  refine ⟨⟨rfl, fun e he => absurd he List.not_mem_nil, rfl⟩, ⟨fun e he => absurd he List.not_mem_nil, _, rfl, rfl⟩, ?_⟩
  decide

/-- A read and a write whose first page is not present, and a read and a write whose third byte is in such a page. -/
theorem witness_PageFaultAddress_accesses :
    (∃ u ex, translate .read 0x3000 paged = .raised ex u) ∧ (∃ u ex, translate .write 0x3000 paged = .raised ex u) ∧
    (0x1FFE : Word).toNat % 4096 + 2 = 4096 ∧ 2 < Size.word.bytes ∧
    (∃ pa t u ex, translate .read 0x1FFE paged = .ok pa t ∧ translate .read (0x1FFE + BitVec.ofNat 32 2) t = .raised ex u) ∧
    ∃ pa t u ex, translate .write 0x1FFE paged = .ok pa t ∧ translate .write (0x1FFE + BitVec.ofNat 32 2) t = .raised ex u := by
  have first := fun kind => afterPaged_paged.absent kind (va := 0x3000) rfl (by decide)
  have cross : ∀ kind, ∃ pa t u ex, translate kind 0x1FFE paged = .ok pa t ∧
      translate kind (0x1FFE + BitVec.ofNat 32 2) t = .raised ex u := by
    intro kind
    obtain ⟨t, ht, a⟩ := afterPaged_paged.translate (kind := kind) (va := 0x1FFE) (e := ⟨1, 1, true⟩) rfl (fun _ => rfl) (by decide)
      (by decide)
    obtain ⟨u, hu⟩ := a.absent kind (va := 0x1FFE + BitVec.ofNat 32 2) rfl (by decide)
    exact ⟨_, t, u, _, ht, hu⟩
  obtain ⟨u, hu⟩ := first .read
  obtain ⟨u', hu'⟩ := first .write
  exact ⟨⟨u, _, hu⟩, ⟨u', _, hu'⟩, by decide, by decide, cross .read, cross .write⟩

theorem witness_TlbMaintenance :
    (condHolds .always base = true ∧ ∃ s₁ v, readOperand .word (.reg 2) base = .ok v s₁) ∧
    (Instr.nop .word .always).op ≠ .one .tlb ∧ (Instr.nop .word .always).op ≠ .one .flp ∧ base.mmuEn = false ∧
    ∃ b, exec (.nop .word .always) base = .next b :=
  ⟨⟨rfl, _, _, rfl⟩, by decide, by decide, rfl, _, rfl⟩

theorem witness_StepKeepsInvariant : Inv base ∧ ∃ t, step base = .next t :=
  ⟨base_inv, _, rfl⟩

theorem witness_OnlyRamChanges : (∃ t, step mapped = .next t) ∧ kindAt mapped.physMap 0x4000 ≠ some .ram ∧
    kindAt mapped.physMap 0x5000 ≠ some .ram :=
  ⟨⟨_, rfl⟩, by decide, by decide⟩

theorem witness_RegistersWritten :
    (∃ t, exec (.loop .always (.imm 0x2000)) base = .next t) ∧ (30 : RegNo) ≠ rsp ∧
    writtenOperand (.loop .always (.imm 0x2000)) ≠ some (.reg 30) ∧
    ¬((30 : RegNo) = 31 ∧ ((Instr.loop .always (.imm 0x2000)).op = .one .loop ∨
      (Instr.loop .always (.imm 0x2000)).op = .one .rloop)) :=
  ⟨⟨_, rfl⟩, by decide, by decide, by decide⟩

theorem witness_FlagsUnchanged :
    (∃ t, exec (.mov .word .always (.reg 1) (.reg 0)) base = .next t) ∧
    (∃ t, exec (.div .word .always (.reg 3) (.reg 0)) ready = .next t) :=
  ⟨⟨_, rfl⟩, ⟨_, rfl⟩⟩

theorem witness_ControlStateWriters :
    (∃ t, exec (.ise .always) base = .next t ∧ t.flagI = true) ∧ ∃ t, exec (.halt .word .always) base = .next t ∧ t.halted = true :=
  ⟨⟨_, rfl, rfl⟩, ⟨_, rfl, rfl⟩⟩

/-! ### Operands that read and can be written -/

/-- What the statements about a source and a target ask: `base` with a source and a target in a register and in memory. -/
theorem witness_UpdatesAt :
    Inv base ∧ condHolds .always base = true ∧ (∃ v t d, UpdatesAt .word (.reg 1) (.reg 0) base v t d) ∧
    (∃ v t d, UpdatesAt .half (.imm 0xFFFF) (.immPtr 0xFFFFFFFF) base v t d) ∧
    ∃ v t d, UpdatesAt .byte (.ptr 2 none) (.ptr 2 (some 0xFF)) base v t d :=
  ⟨base_inv, rfl, ⟨_, _, _, _, _, _, rfl, rfl, rfl⟩, ⟨_, _, _, _, _, _, rfl, rfl, rfl⟩, ⟨_, _, _, _, _, _, rfl, rfl, rfl⟩⟩

/-- AddSubResults, MultiplyResults, LogicResults (its first half) and RotateResults ask no more. -/
theorem witness_AddSubResults : Inv base ∧ condHolds .always base = true ∧ ∃ d, UpdatesAt .word (.reg 1) (.reg 0) base 7 0x64 d :=
  ⟨base_inv, rfl, _, _, _, _, rfl, rfl, rfl⟩

theorem witness_MultiplyResults :
    Inv base ∧ condHolds .always base = true ∧ ∃ d, UpdatesAt .byte (.imm 0x80) (.reg 0) base 0x80 0x64 d :=
  ⟨base_inv, rfl, _, _, _, _, rfl, rfl, rfl⟩

theorem witness_RotateResults :
    Inv base ∧ condHolds .always base = true ∧ ∃ d, UpdatesAt .word (.imm 32) (.reg 0) base 32 0x64 d :=
  ⟨base_inv, rfl, _, _, _, _, rfl, rfl, rfl⟩

/-- IncDecResults and the second half of LogicResults ask no more. -/
theorem witness_IncDecResults :
    Inv base ∧ condHolds .always base = true ∧
    ∃ v s₁ s₂ d, readOperand .word (.ptr 2 none) base = .ok v s₁ ∧ operandDest .word (.ptr 2 none) s₁ = .ok d s₂ :=
  ⟨base_inv, rfl, _, _, _, _, rfl, rfl⟩

theorem witness_LogicResults :
    (Inv base ∧ condHolds .always base = true ∧ ∃ d, UpdatesAt .half (.reg 1) (.reg 0) base 7 0x64 d) ∧
    ∃ v s₁ s₂ d, readOperand .word (.reg 34) base = .ok v s₁ ∧ operandDest .word (.reg 34) s₁ = .ok d s₂ :=
  ⟨⟨base_inv, rfl, _, _, _, _, rfl, rfl, rfl⟩, _, _, _, _, rfl, rfl⟩

theorem witness_UnsignedDivisionResults :
    Inv base ∧ condHolds .always base = true ∧ (∃ d, UpdatesAt .word (.reg 1) (.reg 0) base 7 0x64 d) ∧ (7 : Word) ≠ 0 :=
  ⟨base_inv, rfl, ⟨_, _, _, _, rfl, rfl, rfl⟩, by decide⟩

/-- A divisor of -1 with a dividend that is not the most negative number. -/
theorem witness_SignedDivisionResults :
    Inv base ∧ condHolds .always base = true ∧ (∃ d, UpdatesAt .word (.imm 0xFFFFFFFF) (.reg 0) base 0xFFFFFFFF 0x64 d) ∧
    (0xFFFFFFFF : Word) ≠ 0 ∧
    ¬((0x64 : Word).toInt = -2 ^ (Size.word.bits - 1) ∧ (0xFFFFFFFF : Word).toInt = -1) :=
  ⟨base_inv, rfl, ⟨_, _, _, _, rfl, rfl, rfl⟩, by decide, by decide⟩

/-- The largest count below W. -/
theorem witness_ShiftResults :
    Inv base ∧ condHolds .always base = true ∧ (∃ d, UpdatesAt .word (.imm 31) (.reg 0) base 31 0x64 d) ∧
    (31#32).toNat < Size.word.bits :=
  ⟨base_inv, rfl, ⟨_, _, _, _, rfl, rfl, rfl⟩, by decide⟩

theorem witness_BitResults :
    condHolds .always base = true ∧ (7#8).toNat < Size.byte.bits ∧ ReadsAs .byte (.imm 7) (.reg 0) base 7 0x64 ∧ Inv base ∧
    ∃ d, UpdatesAt .byte (.imm 7) (.reg 0) base 7 0x64 d :=
  ⟨rfl, by decide, ⟨_, _, rfl, rfl⟩, base_inv, _, _, _, _, rfl, rfl, rfl⟩

/-- The smallest count that is not below W, and the most negative number by -1. -/
theorem witness_OpenResultsComplete :
    (Inv base ∧ condHolds .always base = true ∧ Size.word.bits ≤ (32#32).toNat ∧
      ∃ s₁ s₂ s₃ t d, readOperand .word (.imm 32) base = .ok 32#32 s₁ ∧ readOperand .word (.reg 0) s₁ = .ok t s₂ ∧
        operandDest .word (.reg 0) s₂.drawn = .ok d s₃) ∧
    (0x80#8).toInt = -2 ^ (Size.byte.bits - 1) ∧ (0xFF#8).toInt = -1 ∧
    ∃ s₁ s₂ s₃ d, readOperand .byte (.imm 0xFF) (base.setReg 0 0x80) = .ok 0xFF#8 s₁ ∧ readOperand .byte (.reg 0) s₁ = .ok 0x80#8 s₂ ∧
      operandDest .byte (.reg 0) s₂.drawn = .ok d s₃ :=
  ⟨⟨base_inv, rfl, by decide, _, _, _, _, _, rfl, rfl, rfl⟩, by decide, by decide, _, _, _, _, rfl, rfl, rfl⟩

theorem witness_MoveResults :
    Inv base ∧ condHolds .always base = true ∧ (∃ v d, ReadsInto .byte (.reg 0) (.reg 1) base v d) ∧
    ∃ v d, ReadsInto .half (.reg 0) (.ptr 2 none) base v d :=
  ⟨base_inv, rfl, ⟨_, _, _, _, rfl, rfl⟩, ⟨_, _, _, _, rfl, rfl⟩⟩

theorem witness_CompareResults :
    condHolds .always base = true ∧ ∃ v t, ReadsAs .word (.imm 0x80000000) (.reg 0) base v t :=
  ⟨rfl, _, _, _, _, rfl, rfl⟩

/-! ### Control, stack, I/O, system -/

theorem witness_JumpGoesToSource :
    condHolds .ifz (base.setZ true) = true ∧ ∃ v s₁, readOperand .word (.immPtr 0x3001) (base.setZ true) = .ok v s₁ :=
  ⟨rfl, _, _, rfl⟩

theorem witness_RelativeAddresses :
    condHolds .always base = true ∧ Inv base ∧ (∃ d, ReadsInto .byte (.imm 0x80) (.reg 0) base 0x80 d) ∧
    ∃ s₁, readOperand .byte (.imm 0x80) base = .ok 0x80 s₁ :=
  ⟨rfl, base_inv, ⟨_, _, _, rfl, rfl⟩, _, rfl⟩

theorem witness_CallResults :
    Inv base ∧ condHolds .always base = true ∧
    (∃ v s₁ pas s₂, readOperand .word (.reg 2) base = .ok v s₁ ∧ memDest .word (base.reg rsp - 4) s₁ = .ok (.mem pas) s₂) ∧
    ∃ v s₁ pas s₂, readOperand .byte (.imm 0xF0) base = .ok v s₁ ∧ memDest .word (base.reg rsp - 4) s₁ = .ok (.mem pas) s₂ :=
  ⟨base_inv, rfl, ⟨_, _, _, _, rfl, rfl⟩, ⟨_, _, _, _, rfl, rfl⟩⟩

theorem witness_ReturnPops : condHolds .always base = true ∧ ∃ v s₁, memRead .word (base.reg rsp) base = .ok v s₁ :=
  ⟨rfl, _, _, rfl⟩

/-- The last pass (r31 = 1) and the longest loop (r31 = 0). -/
theorem witness_LoopCountsDown :
    condHolds .always base = true ∧ base.reg 31 = 1 ∧ (base.setReg 31 0).reg 31 ≠ 1 ∧
    (∃ v s₁, readOperand .word (.reg 31) base = .ok v s₁) ∧
    ∃ v s₁, readOperand .byte (.imm 0xFC) (base.setReg 31 0) = .ok v s₁ :=
  ⟨rfl, by decide, by decide, ⟨_, _, rfl⟩, ⟨_, _, rfl⟩⟩

/-- PUSH from rsp itself and across the top of the address space; POP to rsp and to memory at rsp. -/
theorem witness_PushPopResults :
    Inv base ∧ condHolds .always base = true ∧
    (∃ v s₁ pas s₂, readOperand .word (.reg rsp) base = .ok v s₁ ∧
      memDest .word (base.reg rsp - BitVec.ofNat 32 Size.word.bytes) s₁ = .ok (.mem pas) s₂) ∧
    (∃ v s₁ pas s₂, readOperand .word (.imm 1) (base.setReg rsp 2) = .ok v s₁ ∧
      memDest .word ((base.setReg rsp 2).reg rsp - BitVec.ofNat 32 Size.word.bytes) s₁ = .ok (.mem pas) s₂) ∧
    (∃ v s₁ d s₂, memRead .word (base.reg rsp) base = .ok v s₁ ∧ operandDest .word (.reg rsp) s₁ = .ok d s₂) ∧
    ∃ v s₁ d s₂, memRead .byte (base.reg rsp) base = .ok v s₁ ∧ operandDest .byte (.ptr rsp none) s₁ = .ok d s₂ :=
  ⟨base_inv, rfl, ⟨_, _, _, _, rfl, rfl⟩, ⟨_, _, _, _, rfl, rfl⟩, ⟨_, _, _, _, rfl, rfl⟩, ⟨_, _, _, _, rfl, rfl⟩⟩

theorem witness_PortTransfers :
    Inv base ∧ condHolds .always base = true ∧ (∃ p d, ReadsInto .word (.imm 0x80000000) (.ptr 2 none) base p d) ∧
    ∃ v p, ReadsAs .word (.reg 1) (.imm 0x80001000) base v p :=
  ⟨base_inv, rfl, ⟨_, _, _, _, rfl, rfl⟩, ⟨_, _, _, _, rfl, rfl⟩⟩

theorem witness_NopOnlyAdvances :
    (⟨1, 0x00, 1, 6, 3, 3⟩ : CtlWord).opcode = 0x00 ∧ Size.ofBits (⟨1, 0x00, 1, 6, 3, 3⟩ : CtlWord).size = some .half ∧
    Cond.ofBits (⟨1, 0x00, 1, 6, 3, 3⟩ : CtlWord).cond = some .iflteq := by decide

theorem witness_InterruptFlagInstructions :
    condHolds .always (base.setIrq [some 0xFF]) = true ∧ (base.setIrq [some 0xFF]).irq = some 0xFF :: [] := by decide

theorem witness_HaltAndMmuBits : condHolds .ifnc base = true := by decide

/-- Vectors 0 and 255 with `IF` = 0 and 1, with the normal stack and the exception stack, and 256. -/
theorem witness_SoftwareInterrupt :
    (condHolds .always ready = true ∧ ready.flagI = false ∧ (ready.setI true).flagI = true ∧ Inv (ready.setI true)) ∧
    (∃ s₁, readOperand .word (.imm 0xFF) (ready.setI true) = .ok 0xFF s₁) ∧ TrapReady (ready.setI true) (4 * 0xFF) 0x1A00 ∧
    (∃ s₁, readOperand .word (.imm 0) ((ready.setI true).setSwap true) = .ok 0 s₁) ∧
    TrapReady ((ready.setI true).setSwap true) (4 * 0) 0x1900 ∧
    (0xFF#32).toNat ≤ 0xFF ∧ (∃ s₁, readOperand .word (.imm 0x100) ready = .ok 0x100 s₁) ∧ 0xFF < (0x100#32).toNat :=
  ⟨⟨rfl, rfl, rfl, ready_inv⟩, ⟨_, rfl⟩,
    ⟨rfl, readable_of_reset rfl _, by decide, by decide, writable_of_reset rfl _⟩, ⟨_, rfl⟩,
    ⟨rfl, readable_of_reset rfl _, by decide, by decide, writable_of_reset rfl _⟩, by decide, ⟨_, rfl⟩, by decide⟩

theorem witness_BreakpointTraps : condHolds .always ready = true ∧ Inv ready ∧ TrapReady ready 0x410 0x1840 :=
  ⟨rfl, ready_inv, ready_trap.2.2.2.2.2.2.1⟩

/-- A flags byte with bit 3 clear, and one with it set. -/
theorem witness_ReturnFromInterrupt :
    (condHolds .always (holding base 0x8000 1 0x07) = true ∧
      ∃ s₁ s₂ r, memRead .byte ((holding base 0x8000 1 0x07).reg rsp) (holding base 0x8000 1 0x07) = .ok (0x07 : Byte) s₁ ∧
        memRead .word ((holding base 0x8000 1 0x07).reg rsp + 1) s₁ = .ok r s₂ ∧ (0x07 : Byte).getLsbD 3 = false) ∧
    ∃ s₁ s₂ s₃ r sp, memRead .byte ((holding base 0x8000 1 0x0E).reg rsp) (holding base 0x8000 1 0x0E) = .ok (0x0E : Byte) s₁ ∧
      memRead .word ((holding base 0x8000 1 0x0E).reg rsp + 1) s₁ = .ok r s₂ ∧ (0x0E : Byte).getLsbD 3 = true ∧
      memRead .word ((holding base 0x8000 1 0x0E).reg rsp + 5) s₂ = .ok sp s₃ :=
  ⟨⟨rfl, _, _, _, rfl, rfl, by decide⟩, _, _, _, _, _, rfl, rfl, by decide, rfl⟩

end Sys2Proof.Machine.Tests
end

section
/-! The fields of a control word (R101): where they lie in its 16 bits and in its two bytes, what an instruction's encoding puts
there, and what decoding takes from there. -/

namespace Sys2Proof

/-! ## The control word and its bytes -/

/-- A control word as its fields shifted into place (R101, the formula for `cw`). -/
theorem CtlWord.toBits_eq_or_shiftLeft (k : CtlWord) :
    k.toBits = k.size.setWidth 16 <<< 14 ||| k.opcode.setWidth 16 <<< 8 ||| k.off.setWidth 16 <<< 7 ||| k.cond.setWidth 16 <<< 4 |||
      k.tgt.setWidth 16 <<< 2 ||| k.src.setWidth 16 := by
  apply BitVec.eq_of_getLsbD_eq
  intro i hi
  rw [CtlWord.getLsbD_toBits]
  interval_cases i <;> simp

/-- A control word is its high byte before its low byte (R101, "in memory"). -/
theorem CtlWord.toBits_eq_bytes (k : CtlWord) :
    k.toBits = (k.size ++ k.opcode : Byte) ++ (k.off ++ k.cond ++ k.tgt ++ k.src : Byte) := by
  unfold CtlWord.toBits
  simp only [BitVec.append_assoc, BitVec.cast_eq]

theorem CtlWord.lowByte_toBits (k : CtlWord) : k.toBits.extractLsb' 0 8 = k.off ++ k.cond ++ k.tgt ++ k.src := by
  rw [CtlWord.toBits_eq_bytes, (extractLsb'_bytes _ _ 0 8 (by omega)).1]
  exact BitVec.extractLsb'_eq_self

theorem CtlWord.highByte_toBits (k : CtlWord) : k.toBits.extractLsb' 8 8 = k.size ++ k.opcode := by
  rw [CtlWord.toBits_eq_bytes, (extractLsb'_bytes _ _ 0 8 (by omega)).2]
  exact BitVec.extractLsb'_eq_self

/-! ## Encoding -/

/-- An encoding begins with the two bytes of its form's control word. -/
theorem encode_eq_bytes (i : Instr) :
    encode i =
      (i.form.ctlWord.off ++ i.form.ctlWord.cond ++ i.form.ctlWord.tgt ++ i.form.ctlWord.src) ::
        (i.form.ctlWord.size ++ i.form.ctlWord.opcode) :: i.form.body := by
  unfold encode
  simp only [CtlWord.lowByte_toBits, CtlWord.highByte_toBits]

theorem Instr.ctlWord_opcode (i : Instr) : i.form.ctlWord.opcode = i.op.code := by
  unfold Instr.op
  cases i.form <;> rfl

theorem Instr.ctlWord_cond (i : Instr) : i.form.ctlWord.cond = i.cond.toBits := by
  unfold Instr.cond
  cases i.form <;> rfl

/-! ## Decoding -/

theorem OperandType.toBits_ofBits (b : BitVec 2) : (OperandType.ofBits b).toBits = b := by
  revert b; decide

theorem oneBit_beq_one (b : BitVec 1) : (b == 1#1) = b.getLsbD 0 := by
  revert b; decide

/-- What a decoded control word holds, by the places of its 16 bits (R101). -/
theorem decodeHead_fields {w : BitVec 16} {h : Head} (e : decodeHead w = .ok h) :
    h.src = w.extractLsb' 0 2 ∧ h.tgt = w.extractLsb' 2 2 ∧ Cond.ofBits (w.extractLsb' 4 3) = some h.cond ∧ h.off = w.getLsbD 7 ∧
      Op.ofCode (w.extractLsb' 8 6) = some h.op ∧ Size.ofBits (w.extractLsb' 14 2) = some h.size := by
  obtain ⟨hop, hsize, hcond, hoff, htgt, hsrc, -⟩ := decodeHead_ok e
  have off_bit : (w.extractLsb' 7 1 == 1#1) = w.getLsbD 7 := by
    rw [oneBit_beq_one, BitVec.getLsbD_extractLsb']
    simp
  exact ⟨hsrc, htgt, hcond, hoff.trans off_bit, hop, Op.sizeOf_ofBits hsize⟩

/-- What a decoded control word holds, by the places of its two bytes (R101). -/
theorem decodeHead_byteFields {lo hi : Byte} {h : Head} (e : decodeHead (hi ++ lo) = .ok h) :
    h.src = lo.extractLsb' 0 2 ∧ h.tgt = lo.extractLsb' 2 2 ∧ Cond.ofBits (lo.extractLsb' 4 3) = some h.cond ∧
      Op.ofCode (hi.extractLsb' 0 6) = some h.op ∧ Size.ofBits (hi.extractLsb' 6 2) = some h.size := by
  obtain ⟨hsrc, htgt, hcond, -, hop, hsize⟩ := decodeHead_fields e
  rw [(extractLsb'_bytes hi lo 0 2 (by omega)).1] at hsrc
  rw [(extractLsb'_bytes hi lo 2 2 (by omega)).1] at htgt
  rw [(extractLsb'_bytes hi lo 4 3 (by omega)).1] at hcond
  rw [(extractLsb'_bytes hi lo 0 6 (by omega)).2] at hop
  rw [(extractLsb'_bytes hi lo 6 2 (by omega)).2] at hsize
  exact ⟨hsrc, htgt, hcond, hop, hsize⟩

/-- The form of a decoded instruction: the operation code, size, condition and operand types are those of the control word. -/
theorem decodeBody_form {w : BitVec 16} {h : Head} {bs rest : List Byte} {i : Instr} (eh : decodeHead w = .ok h)
    (e : decodeBody h bs = .ok (i, rest)) :
    (∃ o, h.op = .zero o ∧ i.form = .zero o h.size h.cond) ∨
    (∃ o amt src, h.op = .one o ∧ i.form = .one o h.size h.cond amt src ∧ src.ty = OperandType.ofBits h.src) ∨
    ∃ o src tgt, h.op = .two o ∧ i.form = .two o h.size h.cond src tgt ∧ src.ty = OperandType.ofBits h.src ∧
      tgt.ty = OperandType.ofBits h.tgt := by
  obtain ⟨-, hsize, -⟩ := decodeHead_ok eh
  have hword := Op.sizeOf_eq_word hsize
  unfold decodeBody at e
  split at e
  next o ho =>
    cases e
    exact .inl ⟨o, ho, toInstr_form_zero o _ _ (ho ▸ hword)⟩
  next o ho =>
    split at e
    · cases e
    next src _ esrc =>
      cases e
      obtain ⟨-, -, -, -, hty, -⟩ := decodeOperand_ok esrc
      obtain ⟨amt, hform, -⟩ := toInstr_form_one o h.size h.cond h.tgt src (ho ▸ hword)
      exact .inr (.inl ⟨o, amt, src, ho, hform, hty⟩)
  next o ho =>
    split at e
    · cases e
    next src _ esrc =>
      split at e
      · cases e
      next tgt _ etgt =>
        cases e
        obtain ⟨-, -, -, -, hsrc, -⟩ := decodeOperand_ok esrc
        obtain ⟨-, -, -, -, htgt, -⟩ := decodeOperand_ok etgt
        exact .inr (.inr ⟨o, src, tgt, ho, toInstr_form_two o _ _ _ _ (ho ▸ hword), hsrc, htgt⟩)

/-- The operation code of a decoded instruction is the one its control word names. -/
theorem decodeBody_op {w : BitVec 16} {h : Head} {bs rest : List Byte} {i : Instr} (eh : decodeHead w = .ok h)
    (e : decodeBody h bs = .ok (i, rest)) : i.op = h.op := by
  unfold Instr.op
  obtain ⟨o, ho, hform⟩ | ⟨o, amt, src, ho, hform, -⟩ | ⟨o, src, tgt, ho, hform, -⟩ := decodeBody_form eh e <;> rw [hform, ho]

/-- Settles O60: the control word put together and taken apart field by field, then carried to its two bytes. -/
theorem controlWordFields : Obligations.ControlWordFields := by
  refine ⟨CtlWord.toBits_eq_or_shiftLeft, fun i => ?_, fun w h => decodeHead_fields, fun lo hi bs rest i e => ?_⟩
  · refine ⟨i.form.ctlWord, i.form.body, encode_eq_bytes i, i.ctlWord_opcode, i.ctlWord_cond, ?_⟩
    cases i.form with
    | zero o sz c => rfl
    | one o sz c amt src => exact ⟨rfl, rfl⟩
    | two o sz c src tgt => exact ⟨rfl, rfl, rfl⟩
  · obtain ⟨_, _, _, h, hbs, eh, eb⟩ := decode_ok e
    cases hbs
    obtain ⟨hsrc, htgt, hcond, hop, hsize⟩ := decodeHead_byteFields eh
    obtain ⟨-, -, -, -, icond⟩ := decodeBody_ok eh eb
    refine ⟨decodeBody_op eh eb ▸ Op.code_of_ofCode hop, icond ▸ hcond, ?_⟩
    obtain ⟨o, -, hform⟩ | ⟨o, amt, src, -, hform, hty⟩ | ⟨o, src, tgt, -, hform, hty, hty'⟩ := decodeBody_form eh eb <;> rw [hform]
    · exact hsize
    · exact ⟨hsize, by rw [hty, OperandType.toBits_ofBits, hsrc]⟩
    · exact ⟨hsize, by rw [hty, OperandType.toBits_ofBits, hsrc], by rw [hty', OperandType.toBits_ofBits, htgt]⟩

end Sys2Proof
end

section
/-! Where the vectors are, and the handler a trap goes to (R244, R245): what every trap entry reads at its vector, and the entry
that an interrupt and an exception take. -/

namespace Sys2Proof.Machine

/-! ## Vector addresses -/

/-- The last interrupt's vector is at 0x3FC, so the address does not wrap. -/
theorem intVector_toNat (v : Byte) : (intVector v).toNat = 4 * v.toNat := by
  have hv : v.toNat < 256 := v.isLt
  rw [intVector, BitVec.toNat_ofNat, Nat.mod_eq_of_lt (by omega)]

/-! ## The handler -/

/-- A trap entry that completes goes to the handler it read at its vector, which is not 0. -/
theorem enter_next_rip {vector saved w : Word} {s t : State} (e : enter vector saved w s = .next t) :
    ∃ h s₁, memRead .word vector s = .ok h s₁ ∧ h ≠ 0#32 ∧ t.rip = h := by
  obtain ⟨h, s₁, s₂, hread, hne, -, rfl⟩ := enter_next.1 e
  exact ⟨h, s₁, hread, hne, State.rip_enterHandler s₂ h⟩

/-- Taking an exception is the entry through its vector with some operand, before which the state may have made a free draw for
that operand (R247, U7). -/
theorem takeException_eq_enter (e : Exn) (s : State) :
    ∃ w s₀, (s₀ = s ∨ s₀ = s.drawn) ∧ takeException e s = enter e.vector s.rip w s₀ := by
  unfold takeException
  cases e.operand with
  | some va => exact ⟨va, s, .inl rfl, rfl⟩
  | none => exact ⟨Config.freeWord s.draws, s.drawn, .inr rfl, rfl⟩

theorem takeInterrupt_next_rip {v : Byte} {s t : State} (e : takeInterrupt v s = .next t) :
    ∃ h s₁, memRead .word (intVector v) s = .ok h s₁ ∧ h ≠ 0#32 ∧ t.rip = h :=
  enter_next_rip e

theorem takeException_next_rip {x : Exn} {s t : State} (e : takeException x s = .next t) :
    ∃ h s₁ s₀, (s₀ = s ∨ s₀ = s.drawn) ∧ memRead .word x.vector s₀ = .ok h s₁ ∧ h ≠ 0#32 ∧ t.rip = h := by
  obtain ⟨w, s₀, hs₀, heq⟩ := takeException_eq_enter x s
  obtain ⟨h, s₁, hread, hne, hrip⟩ := enter_next_rip (heq ▸ e)
  exact ⟨h, s₁, s₀, hs₀, hread, hne, hrip⟩

/-- Settles O14: the addresses by their formulas, the handler by what a completed trap entry read at its vector. -/
theorem vectorAddresses : Obligations.VectorAddresses := by
  refine ⟨intVector_toNat, fun va => rfl, fun v s t e => ?_, fun x s t e => ?_⟩
  · obtain ⟨h, s₁, hread, -, hrip⟩ := takeInterrupt_next_rip e
    exact ⟨h, s₁, hread, hrip⟩
  · obtain ⟨h, s₁, s₀, hs₀, hread, -, hrip⟩ := takeException_next_rip e
    exact ⟨h, s₁, s₀, hs₀, hread, hrip⟩

end Sys2Proof.Machine
end

section
/-! Decoding undoes encoding, and what the decoder gives (R100 to R126): the control word as the decoder reads it back, then the
operands, source first. -/

namespace Sys2Proof

/-! ## The control word, read back from its two bytes -/

theorem extractLsb'_append_bytes (w : BitVec 16) : (w.extractLsb' 8 8 ++ w.extractLsb' 0 8 : BitVec 16) = w := by
  apply BitVec.eq_of_getLsbD_eq
  intro i hi
  rw [show (w.extractLsb' 8 8 ++ w.extractLsb' 0 8 : BitVec 16).getLsbD i = _ from BitVec.getLsbD_append]
  by_cases h : i < 8
  · simp [h]
  · simp [h, show i - 8 < 8 by omega, show 8 + (i - 8) = i by omega]

/-- Decoding the two bytes of a control word and the bytes after it. -/
theorem decode_bytes (w : BitVec 16) (bs : List Byte) :
    decode (w.extractLsb' 0 8 :: w.extractLsb' 8 8 :: bs) = (decodeHead w).bind fun h => decodeBody h bs := by
  unfold decode
  simp only [extractLsb'_append_bytes]
  cases decodeHead w <;> rfl

/-- The head of a control word whose opcode, size and condition are valid. -/
theorem decodeHead_toBits {k : CtlWord} {op : Op} {sz : Size} {c : Cond} (hop : Op.ofCode k.opcode = some op)
    (hsz : op.sizeOf k.size = some sz) (hc : Cond.ofBits k.cond = some c) :
    decodeHead k.toBits =
      if (Head.mk op sz c (k.off == 1#1) k.tgt k.src).immediateDestination then .error .immediateDestination
      else .ok ⟨op, sz, c, k.off == 1#1, k.tgt, k.src⟩ := by
  unfold decodeHead
  simp only [CtlWord.ofBits_toBits, hop, hsz, hc]

theorem ofBool_beq_one (b : Bool) : (BitVec.ofBool b == 1#1) = b := by
  cases b <;> rfl

theorem Operand.ty_imm_iff (o : Operand) : (o.ty == .imm) = !o.writable := by
  cases o <;> rfl

/-! ## Decoding an encoded instruction -/

theorem toInstr_form (i : Instr) : i.form.toInstr = i := by
  cases i <;> rfl

/-- The `off` bit of a one-operand form is the one its operand is read with (R107). -/
theorem Operand.hasOff_ptr {o : Operand} {r : RegNo} {b : Option Byte} (h : o = .ptr r b) : o.hasOff = b.isSome := by
  subst h; cases b <;> rfl

/-- The one `off` bit of a two-operand form serves both operands (R107). -/
theorem Operand.hasOff_or_ptr {src tgt : Operand} (h : src.offAgrees tgt = true) {r : RegNo} {b : Option Byte} :
    (src = .ptr r b → (src.hasOff || tgt.hasOff) = b.isSome) ∧ (tgt = .ptr r b → (src.hasOff || tgt.hasOff) = b.isSome) := by
  constructor <;> rintro rfl
  · cases tgt with
    | ptr q b' =>
      have hb : b.isSome = b'.isSome := by simpa [Operand.offAgrees] using h
      rw [Operand.hasOff_ptr (r := r) rfl, Operand.hasOff_ptr (r := q) rfl, hb, Bool.or_self]
    | _ => rw [Operand.hasOff_ptr (r := r) rfl]; simp [Operand.hasOff]
  · cases src with
    | ptr q b' =>
      have hb : b'.isSome = b.isSome := by simpa [Operand.offAgrees] using h
      rw [Operand.hasOff_ptr (r := r) rfl, Operand.hasOff_ptr (r := q) rfl, hb, Bool.or_self]
    | _ => rw [Operand.hasOff_ptr (r := r) rfl]; simp [Operand.hasOff]

/-- The size of a form is one the table lists for its operation (R121). -/
def Form.sizeListed : Form → Prop
  | .zero o sz _ => (Op.zero o).wordOnly = true → sz = .word
  | .one o sz _ _ _ => (Op.one o).wordOnly = true → sz = .word
  | .two o sz _ _ _ => (Op.two o).wordOnly = true → sz = .word

theorem Instr.form_sizeListed (i : Instr) : i.form.sizeListed := by
  cases i <;> simp [Instr.form, Form.sizeListed, Op.wordOnly]

/-- A well-formed form, encoded, is read back as the instruction it gives. -/
theorem decode_form (f : Form) (rest : List Byte) (hf : f.wellFormed = true) (hsz : f.sizeListed) :
    ((decodeHead f.ctlWord.toBits).bind fun h => decodeBody h (f.body ++ rest)) = .ok (f.toInstr, rest) := by
  cases f with
  | zero o sz c =>
    rw [decodeHead_toBits (Op.ofCode_code (.zero o)) (Op.sizeOf_toBits _ sz hsz) (Cond.ofBits_toBits c)]
    rfl
  | one o sz c amt src =>
    simp only [Form.wellFormed, Bool.and_eq_true] at hf
    obtain ⟨hfits, hwr⟩ := hf
    rw [decodeHead_toBits (Op.ofCode_code (.one o)) (Op.sizeOf_toBits _ sz hsz) (Cond.ofBits_toBits c), if_neg]
    · simp only [Except.bind, decodeBody, Form.ctlWord, Form.body, OperandType.ofBits_toBits, ofBool_beq_one]
      rw [decodeOperand_encode src ((Op.one o).srcImmBytes sz) _ rest hfits fun r b => Operand.hasOff_ptr]
      rfl
    · simp only [Head.immediateDestination, Form.ctlWord, OperandType.ofBits_toBits, Operand.ty_imm_iff]
      cases hw : o.writesSrc <;> simp_all
  | two o sz c src tgt =>
    simp only [Form.wellFormed, Bool.and_eq_true] at hf
    obtain ⟨⟨⟨hfits, hfits'⟩, hwr⟩, hoff⟩ := hf
    rw [decodeHead_toBits (Op.ofCode_code (.two o)) (Op.sizeOf_toBits _ sz hsz) (Cond.ofBits_toBits c), if_neg]
    · simp only [Except.bind, decodeBody, Form.ctlWord, Form.body, OperandType.ofBits_toBits, ofBool_beq_one, List.append_assoc]
      rw [decodeOperand_encode src _ _ _ hfits fun r b => (Operand.hasOff_or_ptr hoff).1]
      simp only
      rw [decodeOperand_encode tgt _ _ rest hfits' fun r b => (Operand.hasOff_or_ptr hoff).2]
      rfl
    · simp only [Head.immediateDestination, Form.ctlWord, OperandType.ofBits_toBits, Operand.ty_imm_iff]
      cases hw : o.writesTgt <;> simp_all

/-- Settles O1: the control word is read back from its two bytes, and each operand from its own. -/
theorem decodeOfEncode : Obligations.DecodeOfEncode := by
  intro i rest hwf
  have h := decode_form i.form rest hwf i.form_sizeListed
  rw [toInstr_form] at h
  rw [← h]
  exact decode_bytes i.form.ctlWord.toBits (i.form.body ++ rest)

/-- Settles O2: the two bytes of the control word, then what its body decodes to. -/
theorem decodedIsWellFormed : Obligations.DecodedIsWellFormed := by
  intro bs rest i e
  obtain ⟨lo, hi, tl, h, rfl, eh, eb⟩ := decode_ok e
  obtain ⟨hwf, hlen, hle, hrest, -⟩ := decodeBody_ok eh eb
  rw [hlen, Head.length]
  refine ⟨hwf, ?_, ?_⟩
  · simp only [List.length_cons]; omega
  · rw [hrest, Nat.add_comm]; rfl

/-! ## The fields that select nothing (R126) -/

theorem OperandType.ofBits_eq_ptr {b : BitVec 2} : OperandType.ofBits b = .ptr ↔ b = 1 := by
  revert b; decide

theorem OperandType.ofBits_eq_imm {b : BitVec 2} : OperandType.ofBits b = .imm ↔ b = 2 := by
  revert b; decide

/-- The `off` bit says something of a register pointer only (R107). -/
theorem decodeOperand_off {ty : OperandType} {off off' : Bool} (h : ty = .ptr → off = off') (n : Nat) (bs : List Byte) :
    decodeOperand ty off n bs = decodeOperand ty off' n bs := by
  cases ty with
  | ptr => rw [h rfl]
  | _ => rfl

/-- The `tgt` field of a one-operand instruction is the amount of INC and DEC and nothing else (R109). -/
theorem OneOp.toInstr_amt {o : OneOp} {amt amt' : BitVec 2} (h : o = .inc ∨ o = .dec → amt = amt') (sz : Size) (c : Cond)
    (src : Operand) : o.toInstr sz c amt src = o.toInstr sz c amt' src := by
  cases o with
  | inc => rw [h (.inl rfl)]
  | dec => rw [h (.inr rfl)]
  | _ => rfl

/-- Two heads of one operation are alike where they agree in the fields its operands use. -/
def Head.Alike (h h' : Head) : Prop :=
  h.op = h'.op ∧ h.size = h'.size ∧ h.cond = h'.cond ∧
    match h.op with
    | .zero _ => True
    | .one o => h.src = h'.src ∧ (o = .inc ∨ o = .dec → h.tgt = h'.tgt) ∧ (h.src = 1 → h.off = h'.off)
    | .two _ => h.src = h'.src ∧ h.tgt = h'.tgt ∧ (h.src = 1 ∨ h.tgt = 1 → h.off = h'.off)

theorem Head.Alike.immediateDestination {h h' : Head} (a : h.Alike h') : h.immediateDestination = h'.immediateDestination := by
  obtain ⟨op, sz, c, off, tgt, src⟩ := h
  obtain ⟨op', sz', c', off', tgt', src'⟩ := h'
  obtain ⟨rfl, rfl, rfl, hf⟩ := a
  cases op with
  | zero o => rfl
  | one o => obtain ⟨rfl, -, -⟩ := hf; rfl
  | two o => obtain ⟨-, rfl, -⟩ := hf; rfl

theorem Head.Alike.decodeBody {h h' : Head} (a : h.Alike h') (bs : List Byte) : decodeBody h bs = decodeBody h' bs := by
  obtain ⟨op, sz, c, off, tgt, src⟩ := h
  obtain ⟨op', sz', c', off', tgt', src'⟩ := h'
  obtain ⟨rfl, rfl, rfl, hf⟩ := a
  unfold Sys2Proof.decodeBody
  cases op with
  | zero o => rfl
  | one o =>
    obtain ⟨rfl, hamt, hoff⟩ := hf
    simp only [decodeOperand_off fun e => hoff (OperandType.ofBits_eq_ptr.1 e), OneOp.toInstr_amt hamt]
  | two o =>
    obtain ⟨rfl, rfl, hoff⟩ := hf
    simp only [decodeOperand_off fun e => hoff (.inl (OperandType.ofBits_eq_ptr.1 e)),
      decodeOperand_off fun e => hoff (.inr (OperandType.ofBits_eq_ptr.1 e))]

/-- A control word with a defined opcode and a size or a condition that is not valid is no instruction, whatever its other
fields are. -/
theorem decodeHead_invalid {k : CtlWord} {op : Op} (hop : Op.ofCode k.opcode = some op) :
    (op.sizeOf k.size = none → decodeHead k.toBits = .error .invalidSize) ∧
    ∀ sz, op.sizeOf k.size = some sz → Cond.ofBits k.cond = none → decodeHead k.toBits = .error .undefinedCondition := by
  unfold decodeHead
  constructor
  · intro hsz
    simp only [CtlWord.ofBits_toBits, hop, hsz]
  · intro sz hsz hc
    simp only [CtlWord.ofBits_toBits, hop, hsz, hc]

/-- Settles O3: where size and condition are valid the two heads are alike, and elsewhere both words are refused alike. -/
theorem ignoredFields : Obligations.IgnoredFields := by
  intro a b op bs hop hop' hsize hcond hf
  rw [decode_bytes, decode_bytes]
  have hop'' : Op.ofCode b.opcode = some op := hop' ▸ hop
  cases hsz : op.sizeOf a.size with
  | none => rw [(decodeHead_invalid hop).1 hsz, (decodeHead_invalid hop'').1 (hsize ▸ hsz)]
  | some sz =>
    cases hc : Cond.ofBits a.cond with
    | none => rw [(decodeHead_invalid hop).2 sz hsz hc, (decodeHead_invalid hop'').2 sz (hsize ▸ hsz) (hcond ▸ hc)]
    | some c =>
      have alike : (Head.mk op sz c (b.off == 1#1) b.tgt b.src).Alike ⟨op, sz, c, a.off == 1#1, a.tgt, a.src⟩ := by
        refine ⟨rfl, rfl, rfl, ?_⟩
        cases op with
        | zero o => trivial
        | one o =>
          obtain ⟨hsrc, htgt, hoff⟩ := hf
          exact ⟨hsrc, htgt, fun h => congrArg (· == 1#1) (hoff (hsrc ▸ h))⟩
        | two o =>
          obtain ⟨hsrc, htgt, hoff⟩ := hf
          exact ⟨hsrc, htgt, fun h => congrArg (· == 1#1) (hoff (hsrc ▸ htgt ▸ h))⟩
      rw [decodeHead_toBits hop hsz hc, decodeHead_toBits hop'' (hsize ▸ hsz) (hcond ▸ hc), alike.immediateDestination]
      split
      · rfl
      · exact alike.decodeBody bs

/-! ## Which control words are no instruction (R121 to R125) -/

theorem Op.ofCode_eq_none {b : BitVec 6} : Op.ofCode b = none ↔
    b ∈ [0x0E#6, 0x0F, 0x12, 0x1E, 0x1F, 0x2B, 0x2E, 0x2F, 0x30, 0x36, 0x38, 0x3B, 0x3C, 0x3E, 0x3F] := by
  revert b; decide

theorem Op.wordOnly_iff {o : Op} : o.wordOnly = true ↔
    o.code ∈ [0x08#6, 0x0B, 0x0C, 0x0D, 0x18, 0x1B, 0x1C, 0x1D, 0x28, 0x2A, 0x2C, 0x2D, 0x3A, 0x3D] := by
  cases o with
  | zero o => cases o <;> decide
  | one o => cases o <;> decide
  | two o => cases o <;> decide

theorem Size.ofBits_eq_none {b : BitVec 2} : Size.ofBits b = none ↔ b = 3 := by
  revert b; decide

theorem Size.ofBits_ne_word {b : BitVec 2} {sz : Size} (h : Size.ofBits b = some sz) : sz ≠ .word ↔ b ≠ 2 := by
  revert b sz; decide

theorem Cond.ofBits_eq_none {b : BitVec 3} : Cond.ofBits b = none ↔ b = 7 := by
  revert b; decide

/-- The sizes that are invalid for an operation (R121, R123). -/
theorem Op.sizeOf_eq_none {o : Op} {b : BitVec 2} : o.sizeOf b = none ↔ b = 3 ∨ (b ≠ 2 ∧ o.wordOnly = true) := by
  unfold Op.sizeOf
  cases h : Size.ofBits b with
  | none => simp [Size.ofBits_eq_none.1 h]
  | some sz =>
    have hne : b ≠ 3 := fun e => by rw [Size.ofBits_eq_none.2 e] at h; cases h
    have hword := Size.ofBits_ne_word h
    simp only [ite_eq_left_iff, Bool.and_eq_true, bne_iff_ne, reduceCtorEq, imp_false, not_not]
    tauto

/-- The heads that name an immediate in a place the instruction writes (R125): the target of a two-operand instruction, the one
operand of INC, DEC, NOT and POP. -/
theorem Head.immediateDestination_iff (h : Head) : h.immediateDestination = true ↔
    (h.tgt = 2#2 ∧ h.op.code ∈ [0x01#6, 0x02, 0x03, 0x04, 0x05, 0x06, 0x0B, 0x13, 0x14, 0x15, 0x16, 0x17, 0x21, 0x22, 0x23, 0x24,
      0x25, 0x27, 0x32, 0x34, 0x35, 0x39]) ∨ (h.src = 2#2 ∧ h.op.code ∈ [0x11#6, 0x31, 0x33, 0x1A]) := by
  obtain ⟨op, sz, c, off, tgt, src⟩ := h
  cases op with
  | zero o => cases o <;> simp [Head.immediateDestination, Op.code, ZeroOp.code]
  | one o => cases o <;> simp [Head.immediateDestination, OneOp.writesSrc, Op.code, OneOp.code, OperandType.ofBits_eq_imm]
  | two o => cases o <;> simp [Head.immediateDestination, TwoOp.writesTgt, Op.code, TwoOp.code, OperandType.ofBits_eq_imm]

/-- A control word is refused exactly for its opcode, its size, its condition, or an immediate destination. -/
theorem decodeHead_error_iff {w : BitVec 16} : (∃ e, decodeHead w = .error e) ↔
    Op.ofCode (w.extractLsb' 8 6) = none ∨ ∃ op, Op.ofCode (w.extractLsb' 8 6) = some op ∧
      (op.sizeOf (w.extractLsb' 14 2) = none ∨ Cond.ofBits (w.extractLsb' 4 3) = none ∨
        (Head.mk op .word .always false (w.extractLsb' 2 2) (w.extractLsb' 0 2)).immediateDestination = true) := by
  unfold decodeHead
  simp only [CtlWord.ofBits]
  cases Op.ofCode (w.extractLsb' 8 6) with
  | none => simp
  | some op =>
    simp only [reduceCtorEq, false_or, Option.some.injEq, exists_eq_left']
    cases op.sizeOf (w.extractLsb' 14 2) with
    | none => simp
    | some sz =>
      cases Cond.ofBits (w.extractLsb' 4 3) with
      | none => simp
      | some c =>
        -- size, condition and offset bit play no part in where the instruction writes
        have hrest : ∀ off, (Head.mk op sz c off (w.extractLsb' 2 2) (w.extractLsb' 0 2)).immediateDestination =
          (Head.mk op .word .always false (w.extractLsb' 2 2) (w.extractLsb' 0 2)).immediateDestination := fun _ => rfl
        simp only [hrest, reduceCtorEq, false_or]
        split <;> simp_all

/-- Settles O4: each cause of a refusal, with the opcodes it concerns. -/
theorem invalidControlWords : Obligations.InvalidControlWords := by
  intro w
  rw [decodeHead_error_iff, ← Op.ofCode_eq_none]
  cases hop : Op.ofCode (w.extractLsb' 8 6) with
  | none => simp
  | some op =>
    rw [← Op.code_of_ofCode hop]
    simp only [Op.sizeOf_eq_none, Cond.ofBits_eq_none, Op.wordOnly_iff, Head.immediateDestination_iff, reduceCtorEq, false_or,
      Option.some.injEq, exists_eq_left', or_assoc]
    rfl

/-- Settles O5: the decoder run on each list of bytes. -/
theorem specWordsDecode : Obligations.SpecWordsDecode := by
  refine ⟨?_, ?_, ?_, ?_, ?_, ?_⟩ <;> rfl

end Sys2Proof
end

section
/-! What every step keeps, and what a trap entry does to the state (R245 to R248): the pushes of the frame one after another, then
the handler entered. -/

namespace Sys2Proof.Machine

/-! ## What every step keeps -/

/-- What every step keeps: the parts of the invariant, the platform, and every byte that is not RAM. -/
structure Keeps (s t : State) : Prop where
  wf : Memory.wf s.mem = true → Memory.wf t.mem = true
  uniq : TlbUnique s.tlb → TlbUnique t.tlb
  physMap : t.physMap = s.physMap
  busError : t.busError = s.busError
  notRam : ∀ pa : Word, kindAt s.physMap pa ≠ some .ram → Memory.read t.mem pa.toNat = Memory.read s.mem pa.toNat

theorem Keeps.trans {s t u : State} (h : Keeps s t) (h' : Keeps t u) : Keeps s u where
  wf := h'.wf ∘ h.wf
  uniq := h'.uniq ∘ h.uniq
  physMap := h'.physMap.trans h.physMap
  busError := h'.busError.trans h.busError
  notRam pa hk := (h'.notRam pa (h.physMap ▸ hk)).trans (h.notRam pa hk)

/-- A state with the same memory, platform and cached translations is kept. -/
theorem Keeps.of_eq {s t : State} (hmem : t.mem = s.mem) (htlb : t.tlb = s.tlb) (hmap : t.physMap = s.physMap)
    (hbus : t.busError = s.busError) : Keeps s t where
  wf := by rw [hmem]; exact id
  uniq := by rw [htlb]; exact id
  physMap := hmap
  busError := hbus
  notRam _ _ := by rw [hmem]

theorem Keeps.refl (s : State) : Keeps s s := .of_eq rfl rfl rfl rfl

theorem Fills.keeps {s t : State} (h : Fills s t) : Keeps s t where
  wf := by rw [h.same.mem]; exact id
  uniq := h.uniq
  physMap := h.same.physMap
  busError := h.same.busError
  notRam _ _ := by rw [h.same.mem]

/-- Storing a value keeps the canonical form of memory and drops the bytes that are not for RAM (R71). -/
theorem keeps_store (s : State) (d : Dest) (sz : Size) (v : BitVec sz.bits) : Keeps s (s.store d sz v) := by
  cases d with
  | reg r => exact .of_eq rfl rfl rfl rfl
  | mem pas =>
    refine ⟨fun h => Memory.writeRam_wf h pas _, id, rfl, rfl, fun pa hk => Memory.read_writeRam_other _ _ _ _ ?_⟩
    intro q _ hq e
    exact hk (BitVec.eq_of_toNat_eq e ▸ hq)

/-! ## One push after another -/

/-- `t` is `s` after pushes of `k` bytes in all, which store to `places` (R73). -/
structure AfterPushes (s t : State) (places : List Word) (k : Nat) : Prop where
  keeps : Keeps s t
  frame : Frame s t [rsp] places
  flagZ : t.flagZ = s.flagZ
  flagC : t.flagC = s.flagC
  sp : t.reg rsp = s.reg rsp - BitVec.ofNat 32 k

theorem AfterPushes.refl (s : State) : AfterPushes s s [] 0 :=
  ⟨.refl s, .refl s _ _, rfl, rfl, by simp⟩

theorem AfterPushes.trans {s t u : State} {p q : List Word} {k m : Nat} (h : AfterPushes s t p k) (h' : AfterPushes t u q m) :
    AfterPushes s u (p ++ q) (k + m) where
  keeps := h.keeps.trans h'.keeps
  frame := (h.frame.weaken (fun _ => id) fun _ => List.mem_append_left q).trans
    (h'.frame.weaken (fun _ => id) fun _ => List.mem_append_right p)
  flagZ := h'.flagZ.trans h.flagZ
  flagC := h'.flagC.trans h.flagC
  sp := by rw [h'.sp, h.sp, BitVec.ofNat_add, BitVec.sub_sub]

theorem push_afterPushes {sz : Size} {v : BitVec sz.bits} {s t : State} (h : push sz v s = .ok () t) :
    AfterPushes s t (pushPlace sz s) sz.bytes := by
  have hframe := push_frame h
  obtain ⟨d, u, hd, rfl⟩ := push_ok h
  have hf := memDest_allFills sz (s.reg rsp - BitVec.ofNat 32 sz.bytes) s
  rw [hd] at hf
  exact ⟨hf.keeps.trans ((keeps_store u d sz v).trans (.of_eq rfl rfl rfl rfl)), hframe, by simpa using hf.same.flagZ,
    by simpa using hf.same.flagC, by simp⟩

/-- Values pushed one after another. -/
def pushAll : List ((sz : Size) × BitVec sz.bits) → State → Res Unit
  | [], s => .ok () s
  | ⟨sz, v⟩ :: vs, s => (push sz v s).bind fun _ t => pushAll vs t

theorem pushAll_afterPushes {vs : List ((sz : Size) × BitVec sz.bits)} {s t : State} (h : pushAll vs s = .ok () t) :
    AfterPushes s t (pushPlaces vs s) (vs.map fun p => p.1.bytes).sum := by
  induction vs generalizing s with
  | nil =>
    obtain ⟨-, rfl⟩ := Res.ok.inj h
    exact .refl s
  | cons p vs ih =>
    obtain ⟨⟨⟩, u, hu, h⟩ := Res.bind_eq_ok.1 h
    rw [pushPlaces_cons hu, List.map_cons, List.sum_cons]
    exact (push_afterPushes hu).trans (ih h)

/-- Where pushes store to does not depend on the value pushed last. -/
theorem pushPlaces_last (vs : List ((sz : Size) × BitVec sz.bits)) {sz : Size} (v w : BitVec sz.bits) (s : State) :
    pushPlaces (vs ++ [⟨sz, v⟩]) s = pushPlaces (vs ++ [⟨sz, w⟩]) s := by
  induction vs generalizing s with
  | nil =>
    have none_after : ∀ x : BitVec sz.bits, pushPlaces [⟨sz, x⟩] s = pushPlace sz s := by
      intro x
      unfold pushPlaces
      split <;> simp [pushPlaces]
    exact (none_after v).trans (none_after w).symm
  | cons p vs ih =>
    simp only [List.cons_append, pushPlaces, ih]

/-! ## The frame of a trap -/

/-- The state the frame of a trap is pushed in: with `SWAP` = 1 on the exception stack (R245). -/
def frameStart (s : State) : State :=
  if s.swapSp then s.setReg rsp (s.reg resp) else s

/-- What a trap pushes before its last word, the first push first (R245). -/
def framePushes (saved : Word) (s : State) : List ((sz : Size) × BitVec sz.bits) :=
  (if s.swapSp then [⟨.word, s.reg rsp⟩] else []) ++ [⟨.word, saved⟩, ⟨.byte, flagsByte s⟩]

theorem bind_ok_unit (x : Res Unit) : (x.bind fun _ t => .ok () t) = x := by
  cases x <;> rfl

theorem pushFrame_eq (saved w : Word) (s : State) :
    pushFrame saved w s = pushAll (framePushes saved s ++ [⟨.word, w⟩]) (frameStart s) := by
  unfold pushFrame framePushes frameStart
  split <;> simp only [List.cons_append, List.nil_append, pushAll, bind_ok_unit, Res.bind_ok]

theorem trapPlaces_eq {vector h : Word} {s s₁ : State} (hr : memRead .word vector s = .ok h s₁) (saved w : Word) :
    trapPlaces vector saved w s = pushPlaces (framePushes saved s₁ ++ [⟨.word, w⟩]) (frameStart s₁) := by
  unfold trapPlaces framePushes frameStart
  rw [hr]
  simp only
  split <;> rfl

theorem framePushes_size (saved w : Word) (s : State) :
    ((framePushes saved s ++ [(⟨.word, w⟩ : (sz : Size) × BitVec sz.bits)]).map fun p => p.1.bytes).sum = trapSize s := by
  unfold framePushes trapSize
  split <;> rfl

theorem frame_frameStart (s : State) : Frame s (frameStart s) [rsp] [] := by
  unfold frameStart
  split
  exacts [frame_setReg _ _ _, .refl _ _ _]

theorem frameStart_sp (s : State) : (frameStart s).reg rsp = trapTop s := by
  unfold frameStart trapTop
  split <;> simp

theorem keeps_frameStart (s : State) : Keeps s (frameStart s) := by
  unfold frameStart
  split
  exacts [.of_eq rfl rfl rfl rfl, .refl s]

theorem frameStart_flagZ (s : State) : (frameStart s).flagZ = s.flagZ := by
  unfold frameStart
  split <;> rfl

theorem frameStart_flagC (s : State) : (frameStart s).flagC = s.flagC := by
  unfold frameStart
  split <;> rfl

/-! ## Trap entry -/

theorem Frame.enterHandler {s t : State} {rs : List RegNo} {st : List Word} (h : Frame s t rs st) (a : Word) :
    Frame (((s.setI false).setSwap false).setHalted false) (t.enterHandler a) rs st :=
  ⟨h.regs, h.mem, rfl, rfl, h.mmuEn, h.pdp, rfl, h.tlb, h.physMap, h.busError, h.irq, h.ioLog⟩

/-- `t` is `s` after a trap entry whose pushes store to `places`. -/
structure TrapTaken (s t : State) (places : List Word) : Prop where
  keeps : Keeps s t
  frame : Frame (((s.setI false).setSwap false).setHalted false) t [rsp] places
  flagZ : t.flagZ = s.flagZ
  flagC : t.flagC = s.flagC
  sp : t.reg rsp = trapBase s

theorem TrapTaken.of_fills {s s' t : State} {places : List Word} (hf : Fills s s') (h : TrapTaken s' t places) :
    TrapTaken s t places where
  keeps := hf.keeps.trans h.keeps
  frame := by
    have hf' : Frame (((s.setI false).setSwap false).setHalted false) (((s'.setI false).setSwap false).setHalted false)
        [rsp] places := (hf.frame _ _).enterHandler s'.rip
    exact hf'.trans h.frame
  flagZ := h.flagZ.trans hf.same.flagZ
  flagC := h.flagC.trans hf.same.flagC
  sp := by
    rw [h.sp]
    simp only [trapBase, trapTop, trapSize, hf.same.swapSp, hf.same.reg]

/-- What every completed trap entry has done, whatever word it pushed last. -/
theorem enter_trapTaken {vector saved w : Word} {s t : State} (e : enter vector saved w s = .next t) (w' : Word) :
    TrapTaken s t (trapPlaces vector saved w' s) := by
  obtain ⟨h, s₁, s₂, hread, -, hpush, rfl⟩ := enter_next.1 e
  rw [trapPlaces_eq hread, pushPlaces_last (sz := .word) _ w' w]
  refine .of_fills (memRead_ok hread) ?_
  rw [pushFrame_eq] at hpush
  have hp := pushAll_afterPushes hpush
  rw [framePushes_size] at hp
  refine ⟨?_, ?_, ?_, ?_, ?_⟩
  · exact ((keeps_frameStart s₁).trans hp.keeps).trans (.of_eq rfl rfl rfl rfl)
  · exact (((frame_frameStart s₁).weaken (fun _ => id) (by simp)).trans hp.frame).enterHandler h
  · exact hp.flagZ.trans (frameStart_flagZ s₁)
  · exact hp.flagC.trans (frameStart_flagC s₁)
  · rw [State.reg_enterHandler, hp.sp, frameStart_sp]
    rfl

/-- Taking an exception is the entry through its vector; where its operand is open, in the state after the draw for it (R247, U7). -/
theorem takeException_enter (e : Exn) (s : State) :
    ∃ w, takeException e s = enter e.vector s.rip w (if e.operand.isSome then s else s.drawn) := by
  unfold takeException
  cases e.operand with
  | some va => exact ⟨va, rfl⟩
  | none => exact ⟨Config.freeWord s.draws, rfl⟩

theorem takeException_trapTaken {e : Exn} {s t : State} (h : takeException e s = .next t) (w' : Word) :
    TrapTaken s t (trapPlaces e.vector s.rip w' (if e.operand.isSome then s else s.drawn)) := by
  obtain ⟨w, hw⟩ := takeException_enter e s
  have hf : Fills s (if e.operand.isSome then s else s.drawn) := by
    split
    exacts [.refl s, .drawn s]
  exact .of_fills hf (enter_trapTaken (hw ▸ h) w')

theorem takeInterrupt_trapTaken {v : Byte} {s t : State} (h : takeInterrupt v s = .next t) (w' : Word) :
    TrapTaken s t (trapPlaces (intVector v) s.rip w' s) :=
  enter_trapTaken h w'

/-- Settles O16: every entry is pushes one after another and the handler entered. -/
theorem trapEntryKeeps : Obligations.TrapEntryKeeps := by
  intro s t e v h
  obtain ⟨places, taken⟩ : ∃ places, TrapTaken s t places :=
    h.elim (fun h => ⟨_, takeException_trapTaken h 0⟩) fun h => ⟨_, takeInterrupt_trapTaken h 0⟩
  have f := taken.frame
  exact ⟨f.flagI, f.swapSp, f.halted, taken.flagZ, taken.flagC, f.mmuEn, f.pdp, fun r hr => f.regs r (by simpa using hr), f.physMap,
    f.busError, f.irq, f.ioLog, taken.sp, f.tlb, fun h w a => (takeInterrupt_trapTaken h w).frame.mem a,
    fun h w a => (takeException_trapTaken h w).frame.mem a⟩

/-! ## Where an entry stops -/

/-- Settles O17: the entry follows the read of its vector and its pushes. -/
theorem trapEntryStops : Obligations.TrapEntryStops := by
  refine ⟨fun vector saved w s => ⟨fun s₁ hr => ?_, fun va s₁ hr => ?_, fun h va s₁ s₂ hr h0 hp => ?_⟩,
    fun v s t => takeInterrupt_next_rip, fun e s t => takeException_next_rip⟩
  · simp [enter, hr]
  · simp [enter, hr, Exn.operand]
  · simp [enter, hr, h0, hp, Exn.operand]

end Sys2Proof.Machine
end

section
/-! Which parts of the state each instruction can change, as a table by operation code, and that no instruction and no step changes
more (R24, R30 to R41, R65, R70, R83). -/

namespace Sys2Proof.Machine

/-! ## The table -/

/-- A part of the state an instruction can change: a register, the flags `Z` and `C`, a bit it can set, a control register, the
cached translations (other than by a translation), the record of the I/O bus. -/
inductive Effect where
  | reg (r : RegNo)
  | z
  | c
  | setI
  | setSwap
  | setHalted
  | mmu
  | pdp
  | tlb
  | io

/-- The flags a row of R41 writes. -/
def FlagRow.effects (row : FlagRow) : List Effect :=
  if (flagPolicy row).c = .unchanged then [.z] else [.z, .c]

/-- What an operation can change besides rsp and the operand it writes. -/
def Op.effects : Op → List Effect
  | .zero .ise => [.setI]
  | .zero .mse => [.mmu]
  | .zero .mcl => [.mmu]
  | .zero .halt => [.setHalted]
  | .zero .reti => [.z, .c, .setI, .setSwap]
  | .zero _ => []
  | .one .inc => FlagRow.inc.effects
  | .one .dec => FlagRow.dec.effects
  | .one .not => FlagRow.not.effects
  | .one .loop => [.reg loopReg]
  | .one .rloop => [.reg loopReg]
  | .one .tlb => [.tlb, .pdp]
  | .one .flp => [.tlb]
  | .one _ => []
  | .two .add => FlagRow.add.effects
  | .two .sub => FlagRow.sub.effects
  | .two .mul => FlagRow.mul.effects
  | .two .imul => FlagRow.imul.effects
  | .two .div => FlagRow.div.effects
  | .two .rem => FlagRow.rem.effects
  | .two .idiv => FlagRow.idiv.effects
  | .two .irem => FlagRow.irem.effects
  | .two .and => FlagRow.and.effects
  | .two .or => FlagRow.or.effects
  | .two .xor => FlagRow.xor.effects
  | .two .sla => FlagRow.sla.effects
  | .two .sra => FlagRow.sra.effects
  | .two .srl => FlagRow.srl.effects
  | .two .rol => FlagRow.rol.effects
  | .two .ror => FlagRow.ror.effects
  | .two .bts => FlagRow.bts.effects
  | .two .cmp => FlagRow.cmp.effects
  | .two .icmp => FlagRow.icmp.effects
  | .two .ioIn => [.io]
  | .two .ioOut => [.io]
  | .two _ => []

/-- What an instruction can change: rsp (by a push, a pop or a trap), the register it writes, and what its operation does. -/
def effectsOf (i : Instr) : List Effect :=
  .reg rsp ::
    ((match writtenOperand i with
      | some (.reg r) => [.reg r]
      | _ => []) ++ Op.effects i.op)

theorem rsp_mem_effectsOf (i : Instr) : .reg rsp ∈ effectsOf i := List.mem_cons_self

theorem op_mem_effectsOf {i : Instr} {e : Effect} (h : e ∈ Op.effects i.op) : e ∈ effectsOf i :=
  List.mem_cons_of_mem _ (List.mem_append_right _ h)

theorem written_mem_effectsOf {i : Instr} {o : Operand} (h : writtenOperand i = some o) {r : RegNo} (ho : o = .reg r) :
    .reg r ∈ effectsOf i := by
  unfold effectsOf
  rw [h, ho]
  simp

/-- An effect on anything but a register is in the table. -/
theorem not_mem_effectsOf {i : Instr} {e : Effect} (hreg : ∀ r, e ≠ .reg r) (h : e ∉ Op.effects i.op) : e ∉ effectsOf i := by
  unfold effectsOf
  split <;> simp [hreg, h]

/-- A register that is not rsp, not written and not in the table is none of the effects. -/
theorem reg_not_mem_effectsOf {i : Instr} {r : RegNo} (hsp : r ≠ rsp) (hw : writtenOperand i ≠ some (.reg r))
    (h : .reg r ∉ Op.effects i.op) : .reg r ∉ effectsOf i := by
  unfold effectsOf
  split
  · next q hq =>
    have hne : r ≠ q := fun e => hw (e ▸ hq)
    simp [hsp, hne, h]
  · simp [hsp, h]

theorem z_mem_rowEffects (row : FlagRow) : .z ∈ row.effects := by
  unfold FlagRow.effects
  split <;> simp

theorem c_mem_rowEffects (row : FlagRow) : (flagPolicy row).c = .unchanged ∨ .c ∈ row.effects := by
  unfold FlagRow.effects
  split
  · next h => exact .inl h
  · exact .inr (by simp)

/-! ## Changing no more than the table says -/

/-- `t` is `s` but for the effects `E`; what every step keeps is kept. A trap may have cleared `IF`, `SWAP` and `HALTED`, stored to
RAM and filled the TLB by its translations. -/
structure Alters (E : List Effect) (s t : State) : Prop where
  keeps : Keeps s t
  regs : ∀ r, .reg r ∉ E → t.reg r = s.reg r
  flagZ : .z ∉ E → t.flagZ = s.flagZ
  flagC : .c ∉ E → t.flagC = s.flagC
  setI : .setI ∉ E → t.flagI = true → s.flagI = true
  setSwap : .setSwap ∉ E → t.swapSp = true → s.swapSp = true
  setHalted : .setHalted ∉ E → t.halted = true → s.halted = true
  mmuEn : .mmu ∉ E → t.mmuEn = s.mmuEn
  pdp : .pdp ∉ E → t.pdp = s.pdp
  tlb : .tlb ∉ E → s.mmuEn = false → t.tlb = s.tlb
  ioLog : .io ∉ E → t.ioLog = s.ioLog
  irq : t.irq = s.irq

theorem Alters.refl (E : List Effect) (s : State) : Alters E s s where
  keeps := .refl s
  regs _ _ := rfl
  flagZ _ := rfl
  flagC _ := rfl
  setI _ := id
  setSwap _ := id
  setHalted _ := id
  mmuEn _ := rfl
  pdp _ := rfl
  tlb _ _ := rfl
  ioLog _ := rfl
  irq := rfl

theorem Alters.trans {E : List Effect} {s t u : State} (h : Alters E s t) (hm : t.mmuEn = s.mmuEn) (h' : Alters E t u) :
    Alters E s u where
  keeps := h.keeps.trans h'.keeps
  regs r hr := (h'.regs r hr).trans (h.regs r hr)
  flagZ hz := (h'.flagZ hz).trans (h.flagZ hz)
  flagC hc := (h'.flagC hc).trans (h.flagC hc)
  setI he := h.setI he ∘ h'.setI he
  setSwap he := h.setSwap he ∘ h'.setSwap he
  setHalted he := h.setHalted he ∘ h'.setHalted he
  mmuEn he := (h'.mmuEn he).trans (h.mmuEn he)
  pdp he := (h'.pdp he).trans (h.pdp he)
  tlb he hoff := (h'.tlb he (hm.trans hoff)).trans (h.tlb he hoff)
  ioLog he := (h'.ioLog he).trans (h.ioLog he)
  irq := h'.irq.trans h.irq

/-- A frame that writes `Z`, `C` and registers of `E` only. -/
theorem Frame.alters {E : List Effect} {s t : State} {rs : List RegNo} {st : List Word} (f : Frame s t rs st) (k : Keeps s t)
    (hr : ∀ r ∈ rs, .reg r ∈ E) (hz : .z ∈ E ∨ t.flagZ = s.flagZ) (hc : .c ∈ E ∨ t.flagC = s.flagC) : Alters E s t where
  keeps := k
  regs r h := f.regs r fun hm => h (hr r hm)
  flagZ h := hz.resolve_left h
  flagC h := hc.resolve_left h
  setI _ := by rw [f.flagI]; exact id
  setSwap _ := by rw [f.swapSp]; exact id
  setHalted _ := by rw [f.halted]; exact id
  mmuEn _ := f.mmuEn
  pdp _ := f.pdp
  tlb _ := f.tlb
  ioLog _ := f.ioLog
  irq := f.irq

theorem Fills.alters {s t : State} (h : Fills s t) (E : List Effect) : Alters E s t :=
  (h.frame [] []).alters h.keeps (by simp) (.inr h.same.flagZ) (.inr h.same.flagC)

theorem Fills.alters_trans {E : List Effect} {s t u : State} (h : Fills s t) (h' : Alters E t u) : Alters E s u :=
  (h.alters E).trans h.same.mmuEn h'

theorem alters_store {E : List Effect} (s : State) {d : Dest} (hd : ∀ r ∈ d.regs, .reg r ∈ E) (sz : Size) (v : BitVec sz.bits) :
    Alters E s (s.store d sz v) :=
  (store_frame s d sz v).alters (keeps_store s d sz v) hd (.inr (by simp)) (.inr (by simp))

theorem alters_setReg {E : List Effect} (s : State) {r : RegNo} (hr : .reg r ∈ E) (v : Word) : Alters E s (s.setReg r v) :=
  (frame_setReg s r v).alters (.of_eq rfl rfl rfl rfl) (by simpa using hr) (.inr rfl) (.inr rfl)

theorem Alters.setReg {E : List Effect} {s t : State} (h : Alters E s t) (hm : t.mmuEn = s.mmuEn) {r : RegNo} (hr : .reg r ∈ E)
    (v : Word) : Alters E s (t.setReg r v) :=
  h.trans hm (alters_setReg t hr v)

theorem Alters.setRip {E : List Effect} {s t : State} (h : Alters E s t) (v : Word) : Alters E s (t.setRip v) :=
  ⟨h.keeps.trans (.of_eq rfl rfl rfl rfl), h.regs, h.flagZ, h.flagC, h.setI, h.setSwap, h.setHalted, h.mmuEn, h.pdp, h.tlb, h.ioLog,
    h.irq⟩

theorem Alters.setFlags {E : List Effect} {s t : State} (h : Alters E s t) {row : FlagRow} (hE : ∀ e ∈ row.effects, e ∈ E)
    {w : Nat} (a v r : BitVec w) : Alters E s (setFlags row a v r t) :=
  ⟨h.keeps.trans (.of_eq rfl rfl rfl rfl), h.regs, fun hz => absurd (hE _ (z_mem_rowEffects row)) hz,
    fun hc => by
      have hrow := (c_mem_rowEffects row).resolve_right fun hm => hc (hE _ hm)
      rw [State.flagC_setFlags, hrow]
      exact h.flagC hc,
    h.setI, h.setSwap, h.setHalted, h.mmuEn, h.pdp, h.tlb, h.ioLog, h.irq⟩

/-- A trap taken in a state that an instruction has left with its translations only. -/
theorem TrapTaken.alters {E : List Effect} {s t : State} {places : List Word} (h : TrapTaken s t places) (hsp : .reg rsp ∈ E) :
    Alters E s t where
  keeps := h.keeps
  regs r hr := h.frame.regs r fun hm => hr (List.mem_singleton.1 hm ▸ hsp)
  flagZ _ := h.flagZ
  flagC _ := h.flagC
  setI _ e := absurd (h.frame.flagI.symm.trans e) (by simp)
  setSwap _ e := absurd (h.frame.swapSp.symm.trans e) (by simp)
  setHalted _ e := absurd (h.frame.halted.symm.trans e) (by simp)
  mmuEn _ := h.frame.mmuEn
  pdp _ := h.frame.pdp
  tlb _ := h.frame.tlb
  ioLog _ := h.frame.ioLog
  irq := h.frame.irq

/-! ## Results -/

/-- A result that changes no more than `E`, and that raises only where its translations are all that is kept (R249). -/
def Res.Within {α : Type} (E : List Effect) (s : State) : Res α → Prop
  | .ok _ t => Alters E s t
  | .raised _ t => Fills s (s.keepFills t)
  | .fault _ => True
  | .refused _ => True

theorem Res.within_of_fills {α : Type} {E : List Effect} {s : State} {x : Res α} (h : x.All (Fills s)) : x.Within E s := by
  cases x with
  | ok a t => exact Fills.alters h E
  | raised e t => exact Fills.keepFills h
  | fault f => trivial
  | refused r => trivial

/-- After a part that only reads and translates. -/
theorem Res.within_bind {α β : Type} {E : List Effect} {s : State} {x : Res α} {k : α → State → Res β} (h : x.All (Fills s))
    (hk : ∀ a t, x = .ok a t → (k a t).Within E t) : (x.bind k).Within E s := by
  cases x with
  | ok a t =>
    have hf : Fills s t := h
    specialize hk a t rfl
    rw [Res.bind_ok]
    cases hkt : k a t with
    | ok b u => rw [hkt] at hk; exact hf.alters_trans hk
    | raised e u =>
      rw [hkt] at hk
      exact (hf.trans hk).keepFills
    | fault f => trivial
    | refused r => trivial
  | raised e t => exact Fills.keepFills h
  | fault f => trivial
  | refused r => trivial

/-- After a part that changes no more than `E`, which leaves the MMU and the cached translations to translations. -/
theorem Res.Within.bind {α β : Type} {E : List Effect} {s : State} {x : Res α} {k : α → State → Res β} (h : x.Within E s)
    (hm : .mmu ∉ E) (ht : .tlb ∉ E) (hk : ∀ a t, x = .ok a t → (k a t).Within E t) : (x.bind k).Within E s := by
  cases x with
  | ok a t =>
    have hA : Alters E s t := h
    specialize hk a t rfl
    rw [Res.bind_ok]
    cases hkt : k a t with
    | ok b u => rw [hkt] at hk; exact hA.trans (hA.mmuEn hm) hk
    | raised e u =>
      rw [hkt] at hk
      exact ⟨rfl, fun hoff => (hk.off ((hA.mmuEn hm).trans hoff)).trans (hA.tlb ht hoff), fun hu => hk.uniq (hA.keeps.uniq hu)⟩
    | fault f => trivial
    | refused r => trivial
  | raised e t => exact h
  | fault f => trivial
  | refused r => trivial

/-! ## Completing an instruction -/

/-- An instruction changes no more than `E` if what it completes with does, and if its exceptions are precise. -/
theorem conclude_alters {α : Type} {E : List Effect} {s t : State} {x : Res α} {k : α → State → Outcome} (hx : x.Within E s)
    (hsp : .reg rsp ∈ E) (hk : ∀ a u, x = .ok a u → Alters E s u → k a u = .next t → Alters E s t)
    (h : conclude s x k = .next t) : Alters E s t := by
  cases x with
  | ok a u => exact hk a u rfl hx h
  | raised e u => exact (takeException_trapTaken h 0).of_fills hx |>.alters hsp
  | fault f => cases h
  | refused r => cases h

theorem whenHolds_alters {E : List Effect} {c : Cond} {len : Nat} {s t : State} {x : Outcome} (hx : x = .next t → Alters E s t)
    (h : whenHolds c len s x = .next t) : Alters E s t := by
  unfold whenHolds at h
  split at h
  · exact hx h
  · cases h
    exact (Alters.refl E s).setRip _

theorem advancing_alters {E : List Effect} {c : Cond} {len : Nat} {s t : State} {x : Res Unit} (hx : x.Within E s)
    (hsp : .reg rsp ∈ E) (h : advancing c len s x = .next t) : Alters E s t := by
  refine whenHolds_alters (conclude_alters hx hsp fun _ u _ hu e => ?_) h
  cases e
  exact hu.setRip _

theorem transferring_alters {E : List Effect} {c : Cond} {len : Nat} {s t : State} {x : Res Word} (hx : x.Within E s)
    (hsp : .reg rsp ∈ E) (h : transferring c len s x = .next t) : Alters E s t := by
  refine whenHolds_alters (conclude_alters hx hsp fun _ u _ hu e => ?_) h
  cases e
  exact hu.setRip _

/-! ## The shapes of instructions -/

theorem writeOperand_within {E : List Effect} {sz : Size} {o : Operand} (ho : ∀ r, o = .reg r → .reg r ∈ E) (v : BitVec sz.bits)
    (s : State) : (writeOperand sz o v s).Within E s :=
  Res.within_bind (operandDest_allFills sz o s) fun _ t hd =>
    alters_store t (fun r hr => ho r (operandDest_regs hd r hr)) sz v

theorem total_allFills {w : Nat} (f : BitVec w → BitVec w → BitVec w) (t v : BitVec w) (s : State) :
    (total f t v s).All (Fills s) := .refl s

theorem drawValue_allFills (sz : Size) (s : State) : (drawValue sz s).All (Fills s) := .drawn s

theorem counted_allFills (sz : Size) (f : BitVec sz.bits → Nat → BitVec sz.bits) (t v : BitVec sz.bits) (s : State) :
    (counted sz f t v s).All (Fills s) := by
  unfold counted
  split
  exacts [.refl s, drawValue_allFills sz s]

theorem signedDivided_allFills (sz : Size) (f : Int → Int → Int) (t v : BitVec sz.bits) (s : State) :
    (signedDivided sz f t v s).All (Fills s) := by
  unfold signedDivided
  split
  exacts [drawValue_allFills sz s, .refl s]

theorem divided_allFills {w : Nat} {f : BitVec w → BitVec w → State → Res (BitVec w)}
    (hf : ∀ t v s, (f t v s).All (Fills s)) (t v : BitVec w) (s : State) : (divided f t v s).All (Fills s) := by
  unfold divided
  split
  exacts [.refl s, hf t v s]

theorem Res.bind_assoc {α β γ : Type} (x : Res α) (k : α → State → Res β) (l : β → State → Res γ) :
    (x.bind k).bind l = x.bind fun a s => (k a s).bind l := by
  cases x <;> rfl

theorem push_within {E : List Effect} (hsp : .reg rsp ∈ E) {sz : Size} (v : BitVec sz.bits) (s : State) :
    (push sz v s).Within E s :=
  Res.within_bind (memDest_allFills sz _ s) fun d t hd => by
    obtain ⟨-, -, pas, rfl⟩ := memDest_ok hd
    exact (alters_store t (by simp [Dest.regs]) sz v).setReg (by simp) hsp _

theorem pop_within {E : List Effect} (hsp : .reg rsp ∈ E) (sz : Size) (s : State) : (pop sz s).Within E s :=
  Res.within_bind (memRead_allFills sz _ s) fun _ t _ => alters_setReg t hsp _

section Shapes

variable {i : Instr} {row : FlagRow} {c : Cond} {sz : Size} {src tgt : Operand} {s t : State}

/-- An instruction of the shape `combine` changes the operand it writes and the flags of its row. -/
theorem combine_alters {f : BitVec sz.bits → BitVec sz.bits → State → Res (BitVec sz.bits)}
    (he : exec i s = advancing c i.length s (combine row sz src tgt f s)) (hf : ∀ t v s, (f t v s).All (Fills s))
    (hrow : Op.effects i.op = row.effects) (hw : writtenOperand i = some tgt) (h : exec i s = .next t) :
    Alters (effectsOf i) s t := by
  refine advancing_alters ?_ (rsp_mem_effectsOf i) (he ▸ h)
  refine Res.within_bind (readBoth_allFills sz src tgt s) fun vt s₁ _ => ?_
  refine Res.within_bind (hf vt.2 vt.1 s₁) fun r s₂ _ => ?_
  rw [writeOperand, Res.bind_assoc]
  refine Res.within_bind (operandDest_allFills sz tgt s₂) fun d u hd => ?_
  exact (alters_store u (fun q hq => written_mem_effectsOf hw (operandDest_regs hd q hq)) sz r).setFlags
    (fun e hm => op_mem_effectsOf (hrow ▸ hm)) _ _ _

/-- An instruction of the shape `combineNoFlags` changes the operand it writes. -/
theorem combineNoFlags_alters {f : BitVec sz.bits → BitVec sz.bits → State → Res (BitVec sz.bits)}
    (he : exec i s = advancing c i.length s (combineNoFlags sz src tgt f s)) (hf : ∀ t v s, (f t v s).All (Fills s))
    (hw : writtenOperand i = some tgt) (h : exec i s = .next t) : Alters (effectsOf i) s t := by
  refine advancing_alters ?_ (rsp_mem_effectsOf i) (he ▸ h)
  refine Res.within_bind (readBoth_allFills sz src tgt s) fun vt s₁ _ => ?_
  refine Res.within_bind (hf vt.2 vt.1 s₁) fun r s₂ _ => ?_
  exact writeOperand_within (fun q => written_mem_effectsOf hw) r s₂

/-- An instruction of the shape `modify` changes its operand and the flags of its row. -/
theorem modify_alters {k : BitVec sz.bits} {f : BitVec sz.bits → BitVec sz.bits}
    (he : exec i s = advancing c i.length s (modify row sz src k f s)) (hrow : Op.effects i.op = row.effects)
    (hw : writtenOperand i = some src) (h : exec i s = .next t) : Alters (effectsOf i) s t := by
  refine advancing_alters ?_ (rsp_mem_effectsOf i) (he ▸ h)
  refine Res.within_bind (readOperand_allFills sz src s) fun v s₁ _ => ?_
  rw [writeOperand, Res.bind_assoc]
  refine Res.within_bind (operandDest_allFills sz src s₁) fun d u hd => ?_
  exact (alters_store u (fun q hq => written_mem_effectsOf hw (operandDest_regs hd q hq)) sz (f v)).setFlags
    (fun e hm => op_mem_effectsOf (hrow ▸ hm)) _ _ _

/-- A compare changes the flags of its row. -/
theorem compare_alters {f : BitVec sz.bits → BitVec sz.bits → BitVec sz.bits}
    (he : exec i s = advancing c i.length s ((readBoth sz src tgt s).bind fun vt s₁ =>
      .ok () (setFlags row vt.2 vt.1 (f vt.2 vt.1) s₁)))
    (hrow : Op.effects i.op = row.effects) (h : exec i s = .next t) : Alters (effectsOf i) s t := by
  refine advancing_alters ?_ (rsp_mem_effectsOf i) (he ▸ h)
  refine Res.within_bind (readBoth_allFills sz src tgt s) fun vt s₁ _ => ?_
  exact (Alters.refl _ s₁).setFlags (fun e hm => op_mem_effectsOf (hrow ▸ hm)) _ _ _

/-- An instruction that reads its source, then writes its target from it, and no flag. -/
theorem move_alters {f : BitVec sz.bits → BitVec sz.bits}
    (he : exec i s = advancing c i.length s ((readOperand sz src s).bind fun v s₁ => writeOperand sz tgt (f v) s₁))
    (hw : writtenOperand i = some tgt) (h : exec i s = .next t) : Alters (effectsOf i) s t := by
  refine advancing_alters ?_ (rsp_mem_effectsOf i) (he ▸ h)
  refine Res.within_bind (readOperand_allFills sz src s) fun v s₁ _ => ?_
  exact writeOperand_within (fun q => written_mem_effectsOf hw) (f v) s₁

/-- An instruction that only changes its control bit. -/
theorem plain_alters {u : State} (he : exec i s = advancing c i.length s (.ok () u)) (hu : Alters (effectsOf i) s u)
    (h : exec i s = .next t) : Alters (effectsOf i) s t :=
  advancing_alters (x := .ok () u) hu (rsp_mem_effectsOf i) (he ▸ h)

end Shapes

theorem testBit_alters {E : List Effect} (hE : ∀ e ∈ FlagRow.bts.effects, e ∈ E) {sz : Size} (t v : BitVec sz.bits) (s : State) :
    Alters E s (testBit sz t v s) := by
  unfold testBit
  split
  · exact (Alters.refl E s).setFlags hE _ _ _
  · exact Frame.alters (rs := []) (st := [])
      ⟨fun _ _ => rfl, fun _ _ => rfl, rfl, rfl, rfl, rfl, rfl, fun _ => rfl, rfl, rfl, rfl, rfl⟩
      (.of_eq rfl rfl rfl rfl) (by simp) (.inl (hE _ (z_mem_rowEffects .bts))) (.inr rfl)

theorem writeZeroExtended_within {E : List Effect} {sz : Size} {tgt : Operand} (ht : ∀ r, tgt = .reg r → .reg r ∈ E)
    (v : BitVec sz.bits) (s : State) : (writeZeroExtended sz tgt v s).Within E s := by
  cases tgt with
  | reg r => exact alters_setReg s (ht r rfl) _
  | _ => exact writeOperand_within ht v s

theorem pushReturn_within {E : List Effect} (hsp : .reg rsp ∈ E) (ret target : Word) (s : State) :
    (pushReturn ret target s).Within E s := by
  have hp := push_within hsp (sz := .word) ret s
  unfold pushReturn
  cases h : push .word ret s with
  | ok a t => rw [h] at hp; exact hp
  | raised e t => rw [h] at hp; exact hp
  | fault f => trivial
  | refused r => trivial

theorem countDown_within {E : List Effect} (hE : .reg loopReg ∈ E) (target next : Word) (s : State) :
    (countDown target next s).Within E s :=
  alters_setReg s hE _

/-- RETI changes the four flags and rsp (R217). -/
theorem returnFromTrap_within {E : List Effect} (hsp : .reg rsp ∈ E) (hE : ∀ e ∈ [Effect.z, .c, .setI, .setSwap], e ∈ E)
    (hm : .mmu ∉ E) (ht : .tlb ∉ E) (s : State) : (returnFromTrap s).Within E s := by
  have restored : ∀ (f : Byte) (u : State), Alters E u (restoreFlags f u) := fun f u =>
    { Alters.refl E u with
      keeps := .of_eq rfl rfl rfl rfl
      flagZ := fun h => absurd (hE _ (by simp)) h
      flagC := fun h => absurd (hE _ (by simp)) h
      setI := fun h => absurd (hE _ (by simp)) h
      setSwap := fun h => absurd (hE _ (by simp)) h }
  refine (pop_within hsp .byte s).bind hm ht fun f s₁ _ => ?_
  refine (pop_within hsp .word s₁).bind hm ht fun r s₂ _ => ?_
  split
  · exact Res.within_bind (memRead_allFills .word _ s₂) fun sp s₃ _ => ((restored f s₃).setReg rfl hsp sp).setRip r
  · exact (restored f s₂).setRip r

/-! ## Control bits, control registers and the I/O record -/

section Control

variable {E : List Effect} (s : State)

theorem alters_setI {b : Bool} (hE : b = true → .setI ∈ E) : Alters E s (s.setI b) :=
  { Alters.refl E s with
    keeps := .of_eq rfl rfl rfl rfl
    setI := fun h e => absurd (hE e) h }

theorem alters_setHalted (hE : .setHalted ∈ E) : Alters E s (s.setHalted true) :=
  { Alters.refl E s with
    keeps := .of_eq rfl rfl rfl rfl
    setHalted := fun h => absurd hE h }

theorem alters_setMmu (hE : .mmu ∈ E) (b : Bool) : Alters E s (s.setMmu b) :=
  { Alters.refl E s with
    keeps := .of_eq rfl rfl rfl rfl
    mmuEn := fun h => absurd hE h }

theorem alters_setPdp (hE : .pdp ∈ E) (v : Word) : Alters E s (s.setPdp v) :=
  { Alters.refl E s with
    keeps := .of_eq rfl rfl rfl rfl
    pdp := fun h => absurd hE h }

theorem alters_setTlb (hE : .tlb ∈ E) {l : List TlbEntry} (hl : TlbUnique s.tlb → TlbUnique l) : Alters E s (s.setTlb l) :=
  { Alters.refl E s with
    keeps := ⟨id, hl, rfl, rfl, fun _ _ => rfl⟩
    tlb := fun h => absurd hE h }

theorem alters_logIo (hE : .io ∈ E) (e : IoEvent) : Alters E s (s.logIo e) :=
  { Alters.refl E s with
    keeps := .of_eq rfl rfl rfl rfl
    ioLog := fun h => absurd hE h }

/-- A read of a port draws its answer and records the transfer (R68). -/
theorem alters_ioRead (hE : .io ∈ E) (p : Word) :
    Alters E s (s.drawn.logIo (.read p (Config.ioRead s.draws p))) :=
  (Fills.drawn s).alters_trans (alters_logIo _ hE _)

end Control

/-! ## Every instruction -/

/-- No instruction changes more than its row of the table says, also where it takes a trap. -/
theorem exec_alters {i : Instr} {s t : State} (h : exec i s = .next t) : Alters (effectsOf i) s t := by
  have hsp := rsp_mem_effectsOf i
  have hE : ∀ {es : List Effect}, Op.effects i.op = es → ∀ e ∈ es, e ∈ effectsOf i :=
    fun he e hm => op_mem_effectsOf (he ▸ hm)
  cases i with
  | nop sz c => exact plain_alters rfl (.refl _ s) h
  | add sz c src tgt => exact combine_alters rfl (total_allFills _) rfl rfl h
  | mul sz c src tgt => exact combine_alters rfl (total_allFills _) rfl rfl h
  | and sz c src tgt => exact combine_alters rfl (total_allFills _) rfl rfl h
  | sla sz c src tgt => exact combine_alters rfl (counted_allFills sz _) rfl rfl h
  | sra sz c src tgt => exact combine_alters rfl (counted_allFills sz _) rfl rfl h
  | bse sz c src tgt => exact combineNoFlags_alters rfl (counted_allFills sz _) rfl h
  | cmp sz c src tgt => exact compare_alters rfl rfl h
  | jmp c src => exact transferring_alters (Res.within_of_fills (readOperand_allFills .word src s)) hsp h
  | rjmp sz c src =>
    refine transferring_alters (Res.within_bind (readOperand_allFills sz src s) fun v s₁ _ => ?_) hsp h
    exact Alters.refl _ s₁
  | push sz c src =>
    exact advancing_alters (Res.within_bind (readOperand_allFills sz src s) fun v s₁ _ => push_within hsp v s₁) hsp h
  | ioIn c src tgt =>
    refine advancing_alters (Res.within_bind (readOperand_allFills .word src s) fun p s₁ _ => ?_) hsp h
    refine Res.within_bind (operandDest_allFills .word tgt s₁) fun d s₂ hd => ?_
    exact (alters_ioRead s₂ (hE rfl _ List.mem_cons_self) p).trans rfl
      (alters_store _ (fun r hr => written_mem_effectsOf rfl (operandDest_regs hd r hr)) .word _)
  | ise c => exact plain_alters rfl (alters_setI s fun _ => hE rfl _ List.mem_cons_self) h
  | mse c => exact plain_alters rfl (alters_setMmu s (hE rfl _ List.mem_cons_self) true) h
  | halt sz c => exact plain_alters rfl (alters_setHalted s (hE rfl _ List.mem_cons_self)) h
  | inc sz c amt src => exact modify_alters rfl rfl rfl h
  | or sz c src tgt => exact combine_alters rfl (total_allFills _) rfl rfl h
  | imul sz c src tgt => exact combine_alters rfl (total_allFills _) rfl rfl h
  | srl sz c src tgt => exact combine_alters rfl (counted_allFills sz _) rfl rfl h
  | bcl sz c src tgt => exact combineNoFlags_alters rfl (counted_allFills sz _) rfl h
  | mov sz c src tgt => exact move_alters rfl rfl h
  | call c src =>
    exact transferring_alters (Res.within_bind (readOperand_allFills .word src s) fun v s₁ _ => pushReturn_within hsp _ v s₁) hsp h
  | rcall sz c src =>
    exact transferring_alters (Res.within_bind (readOperand_allFills sz src s) fun v s₁ _ => pushReturn_within hsp _ _ s₁) hsp h
  | pop sz c src =>
    refine advancing_alters (Res.within_bind (memRead_allFills sz _ s) fun v s₁ _ => ?_) hsp h
    refine Res.within_bind (operandDest_allFills sz src s₁) fun d s₂ hd => ?_
    exact (alters_setReg s₂ hsp _).trans rfl
      (alters_store _ (fun r hr => written_mem_effectsOf rfl (operandDest_regs hd r hr)) sz v)
  | ioOut c src tgt =>
    refine advancing_alters (Res.within_bind (readBoth_allFills .word src tgt s) fun vp s₁ _ => ?_) hsp h
    exact alters_logIo s₁ (hE rfl _ List.mem_cons_self) _
  | icl c => exact plain_alters rfl (alters_setI s nofun) h
  | mcl c => exact plain_alters rfl (alters_setMmu s (hE rfl _ List.mem_cons_self) false) h
  | brk sz c =>
    refine whenHolds_alters (fun h => ?_) h
    exact ((Alters.refl _ s).setRip (s.next (Instr.brk sz c).length)).trans rfl ((takeException_trapTaken h 0).alters hsp)
  | sub sz c src tgt => exact combine_alters rfl (total_allFills _) rfl rfl h
  | div sz c src tgt => exact combine_alters rfl (divided_allFills (total_allFills _)) rfl rfl h
  | xor sz c src tgt => exact combine_alters rfl (total_allFills _) rfl rfl h
  | rol sz c src tgt => exact combine_alters rfl (total_allFills _) rfl rfl h
  | ror sz c src tgt => exact combine_alters rfl (total_allFills _) rfl rfl h
  | bts sz c src tgt =>
    refine advancing_alters (Res.within_bind (readBoth_allFills sz src tgt s) fun vt s₁ _ => ?_) hsp h
    exact testBit_alters (hE rfl) vt.2 vt.1 s₁
  | movz sz c src tgt =>
    refine advancing_alters (Res.within_bind (readOperand_allFills sz src s) fun v s₁ _ => ?_) hsp h
    exact writeZeroExtended_within (fun r => written_mem_effectsOf rfl) v s₁
  | loop c src =>
    refine transferring_alters (Res.within_bind (readOperand_allFills .word src s) fun v s₁ _ => ?_) hsp h
    exact countDown_within (hE rfl _ List.mem_cons_self) v _ s₁
  | rloop sz c src =>
    refine transferring_alters (Res.within_bind (readOperand_allFills sz src s) fun v s₁ _ => ?_) hsp h
    exact countDown_within (hE rfl _ List.mem_cons_self) _ _ s₁
  | ret c => exact transferring_alters (pop_within hsp .word s) hsp h
  | int c src =>
    refine whenHolds_alters (conclude_alters (Res.within_of_fills (readOperand_allFills .word src s)) hsp ?_) h
    intro v u _ hu e
    split at e
    · cases e
    · split at e
      · have taken := takeInterrupt_trapTaken e 0
        exact (hu.setRip (s.next (Instr.int c src).length)).trans (hu.mmuEn (not_mem_effectsOf nofun nofun)) (taken.alters hsp)
      · cases e
        exact hu.setRip _
  | tlb c src =>
    refine advancing_alters (Res.within_bind (readOperand_allFills .word src s) fun v s₁ _ => ?_) hsp h
    exact (alters_setTlb s₁ (hE rfl _ List.mem_cons_self) (l := []) fun _ => .nil).trans rfl
      (alters_setPdp _ (hE rfl _ (List.mem_cons_of_mem _ List.mem_cons_self)) v)
  | dec sz c amt src => exact modify_alters rfl rfl rfl h
  | rem sz c src tgt => exact combine_alters rfl (divided_allFills (total_allFills _)) rfl rfl h
  | not sz c src => exact modify_alters rfl rfl rfl h
  | idiv sz c src tgt => exact combine_alters rfl (divided_allFills (signedDivided_allFills sz _)) rfl rfl h
  | irem sz c src tgt => exact combine_alters rfl (divided_allFills (signedDivided_allFills sz _)) rfl rfl h
  | icmp sz c src tgt => exact compare_alters rfl rfl h
  | rta sz c src tgt => exact move_alters (f := fun v => (relative s v).setWidth sz.bits) rfl rfl h
  | reti c =>
    refine whenHolds_alters (conclude_alters ?_ hsp fun _ u _ hu e => ?_) h
    · exact returnFromTrap_within hsp (hE rfl) (not_mem_effectsOf (i := .reti c) nofun (by simp [Instr.op, Instr.form, Op.effects]))
        (not_mem_effectsOf (i := .reti c) nofun (by simp [Instr.op, Instr.form, Op.effects])) s
    · cases e
      exact hu
  | flp c src =>
    refine advancing_alters (Res.within_bind (readOperand_allFills .word src s) fun v s₁ _ => ?_) hsp h
    exact alters_setTlb s₁ (hE rfl _ List.mem_cons_self) fun hu => hu.filter _

/-! ## What every instruction and every step keeps -/

/-- What every step keeps, whatever it ran or trapped. -/
theorem step_keeps {s t : State} (h : step s = .next t) : Keeps s t := by
  have hb : Keeps s s.boundary := .of_eq rfl rfl rfl rfl
  have cpu : ∀ {t}, cpuStep s.boundary = .next t → Keeps s.boundary t := by
    intro t h
    unfold cpuStep at h
    split at h
    · cases h
      exact .refl _
    · have hfetch := fetch_allFills s.boundary
      unfold fetchExecute at h
      cases hf : fetch s.boundary with
      | ok f u =>
        rw [hf] at h hfetch
        have hu : Keeps s.boundary u := Fills.keeps hfetch
        cases f with
        | run i => exact hu.trans (exec_alters h).keeps
        | skip len =>
          cases h
          exact hu.trans (.of_eq rfl rfl rfl rfl)
      | raised e u =>
        rw [hf] at h hfetch
        exact (takeException_trapTaken h 0).of_fills (Fills.keepFills hfetch) |>.keeps
      | fault f => rw [hf] at h; cases h
      | refused r => rw [hf] at h; cases h
  unfold step cycle at h
  split at h
  · split at h
    · exact hb.trans (takeInterrupt_trapTaken h 0).keeps
    · exact hb.trans (cpu h)
  · exact hb.trans (cpu h)

/-- Settles O29: what `step_keeps` says of memory's form and of the TLB. -/
theorem stepKeepsInvariant : Obligations.StepKeepsInvariant := by
  intro s t ⟨hwf, huniq⟩ h
  exact ⟨(step_keeps h).wf hwf, (step_keeps h).uniq huniq⟩

/-- Settles O31: what `step_keeps` says of the map and of the bytes that are not RAM. -/
theorem onlyRamChanges : Obligations.OnlyRamChanges := by
  intro s t h
  have k := step_keeps h
  exact ⟨k.physMap, k.busError, k.notRam⟩

/-- Settles O30: the values of the state after reset. -/
theorem resetState : Obligations.ResetState :=
  ⟨⟨rfl, .nil⟩, rfl, rfl, rfl, rfl⟩

/-- Settles O32: what is not in an instruction's row of the table keeps its value. -/
theorem registersWritten : Obligations.RegistersWritten := by
  intro i s t r h hsp hw hcount
  have no_op_writes : ∀ op : Op, .reg r ∈ Op.effects op → r = 31 ∧ (op = .one .loop ∨ op = .one .rloop) := by
    intro op
    unfold Op.effects
    split <;> simp [FlagRow.effects, flagPolicy, loopReg]
  exact (exec_alters h).regs r (reg_not_mem_effectsOf hsp hw fun hm => hcount (no_op_writes _ hm))

/-- Settles O33: the rows of the table without `Z` and `C`, and those without `C`. -/
theorem flagsUnchanged : Obligations.FlagsUnchanged := by
  intro i s t h
  have a := exec_alters h
  refine ⟨fun hop => ⟨a.flagZ ?_, a.flagC ?_⟩, fun hop => a.flagC ?_⟩ <;> refine not_mem_effectsOf nofun ?_ <;>
    generalize i.op = op at hop <;> revert op
  · simp only [List.forall_mem_cons]
    simp [Op.effects]
  · simp only [List.forall_mem_cons]
    simp [Op.effects]
  · simp only [List.forall_mem_cons]
    simp [Op.effects, FlagRow.effects, flagPolicy]

/-- Settles O34: each bit is in the rows of its writers only. -/
theorem controlStateWriters : Obligations.ControlStateWriters := by
  intro i s t h
  have a := exec_alters h
  -- an effect that is in no row of a flag or of a register is in the rows written out for it alone
  have rows : ∀ op : Op, (.mmu ∈ Op.effects op → op = .zero .mse ∨ op = .zero .mcl) ∧
      (.pdp ∈ Op.effects op → op = .one .tlb) ∧
      (.setI ∈ Op.effects op → op = .zero .ise ∨ op = .zero .reti) ∧ (.setSwap ∈ Op.effects op → op = .zero .reti) ∧
      (.setHalted ∈ Op.effects op → op = .zero .halt) ∧ (.io ∈ Op.effects op → op = .two .ioIn ∨ op = .two .ioOut) := by
    intro op
    unfold Op.effects
    split <;> simp [FlagRow.effects, flagPolicy]
  obtain ⟨hmmu, hpdp, hi, hswap, hhalt, hio⟩ := rows i.op
  refine ⟨fun h₁ h₂ => a.mmuEn ?_, fun h₁ => a.pdp ?_, fun h₁ h₂ => a.setI ?_, fun h₁ => a.setSwap ?_,
    fun h₁ => a.setHalted ?_, fun h₁ h₂ => a.ioLog ?_, a.keeps.physMap, a.keeps.busError, a.irq⟩ <;>
    refine not_mem_effectsOf nofun ?_
  · exact fun hm => (hmmu hm).elim h₁ h₂
  · exact h₁ ∘ hpdp
  · exact fun hm => (hi hm).elim h₁ h₂
  · exact h₁ ∘ hswap
  · exact h₁ ∘ hhalt
  · exact fun hm => (hio hm).elim h₁ h₂

/-! ## TLB and FLP (R93) -/

theorem Res.bind_of_ok {α β : Type} {x : Res α} {a : α} {t : State} (h : x = .ok a t) (k : α → State → Res β) :
    x.bind k = k a t := by
  rw [h, Res.bind_ok]

/-- Settles O28: TLB and FLP run; every other row of the table leaves the cached translations to translations. -/
theorem tlbMaintenance : Obligations.TlbMaintenance := by
  refine ⟨fun c src s s₁ v hc hv => ⟨?_, ?_⟩, fun i a b htlb hflp hoff h => ?_⟩
  · have f := (readOperand_okFills hv).frame [] []
    have same := (readOperand_okFills hv).same
    have run : exec (.tlb c src) s = .next (((s₁.setTlb []).setPdp v).setRip (s.next (Instr.tlb c src).length)) :=
      advancing_ok hc (Res.bind_of_ok hv _)
    exact ⟨_, run, rfl, rfl, ⟨f.regs, f.mem, f.flagI, f.swapSp, f.mmuEn, rfl, f.halted, fun _ => rfl, f.physMap, f.busError, f.irq,
      f.ioLog⟩, same.flagZ, same.flagC, rfl⟩
  · have f := (readOperand_okFills hv).frame [] []
    have same := (readOperand_okFills hv).same
    have run : exec (.flp c src) s =
        .next ((s₁.setTlb (s₁.tlb.filter fun e => e.vpn != vpnOf v)).setRip (s.next (Instr.flp c src).length)) :=
      advancing_ok hc (Res.bind_of_ok hv _)
    refine ⟨_, run, fun e he => ?_, ⟨f.regs, f.mem, f.flagI, f.swapSp, f.mmuEn, f.pdp, f.halted, fun hm => ?_, f.physMap, f.busError,
      f.irq, f.ioLog⟩, same.flagZ, same.flagC, rfl⟩
    · have kept := (List.mem_filter.1 (show e ∈ s₁.tlb.filter fun e => e.vpn != vpnOf v from he)).2
      simpa [vpnOf] using kept
    · show s₁.tlb.filter (fun e => e.vpn != vpnOf v) = _
      rw [f.tlb hm]
      rfl
  · have no_row : ∀ op : Op, .tlb ∈ Op.effects op → op = .one .tlb ∨ op = .one .flp := by
      intro op
      unfold Op.effects
      split <;> simp [FlagRow.effects, flagPolicy]
    exact (exec_alters h).tlb (not_mem_effectsOf nofun fun hm => (no_row _ hm).elim htlb hflp) hoff

end Sys2Proof.Machine
end

section
/-! The step: what the fetch gives for a control word, when an instruction is skipped, and the boundary before an instruction (R36,
R38, R106, R117, R118, R240, R241). -/

namespace Sys2Proof.Machine

/-! ## A false condition -/

/-- Every instruction whose condition does not hold is skipped (R118). -/
theorem exec_skips {i : Instr} {s : State} (h : condHolds i.cond s = false) : exec i s = .next (s.setRip (s.next i.length)) := by
  cases i <;> exact whenHolds_false h _

/-! ## The fetch, by its control word -/

section Fetch

variable {s t : State} {w : BitVec 16} {h : Head} (hr : memRead .half s.rip s = .ok w t)
include hr

/-- A control word that is no instruction raises (R117 step 4). -/
theorem fetch_refused {e : DecodeError} (he : decodeHead w = .error e) : fetch s = .raised .invalidOpcode t := by
  rw [fetch, hr, Res.bind_ok, he]

/-- A false condition ends the fetch (R117 step 5). -/
theorem fetch_skips (hh : decodeHead w = .ok h) (hc : condHolds h.cond s = false) : fetch s = .ok (.skip h.length) t := by
  simp [fetch, hr, hh, hc]

/-- A condition that holds lets the operand bytes be fetched (R117 step 6). -/
theorem fetch_runs (hh : decodeHead w = .ok h) (hc : condHolds h.cond s = true) :
    fetch s = (fetchBody h [] (addrs (s.rip + 2) h.bodyLen) t).bind fun i u => .ok (.run i) u := by
  simp [fetch, hr, hh, hc]

end Fetch

/-- An instruction that is fetched was decoded from some operand bytes. -/
theorem fetchBody_ok {h : Head} {bs : List Byte} {as : List Word} {s t : State} {i : Instr} (e : fetchBody h bs as s = .ok i t) :
    ∃ l rest, decodeBody h l = .ok (i, rest) := by
  induction as generalizing bs s with
  | nil =>
    unfold fetchBody at e
    split at e
    · next j rest hd =>
      cases e
      exact ⟨_, _, hd⟩
    · cases e
  | cons a as ih =>
    unfold fetchBody at e
    split at e
    · cases e
    · obtain ⟨b, u, -, e⟩ := Res.bind_eq_ok.1 e
      exact ih e

/-- The condition of an instruction that is fetched to run holds (R117 step 5). -/
theorem condHolds_of_fetch {s t : State} {i : Instr} (e : fetch s = .ok (.run i) t) : condHolds i.cond s = true := by
  obtain ⟨w, u, hr, -⟩ := Res.bind_eq_ok.1 e
  cases hh : decodeHead w with
  | error err => rw [fetch_refused hr hh] at e; cases e
  | ok h =>
    cases hc : condHolds h.cond s with
    | false => rw [fetch_skips hr hh hc] at e; cases e
    | true =>
      rw [fetch_runs hr hh hc] at e
      obtain ⟨j, u', hb, e⟩ := Res.bind_eq_ok.1 e
      cases e
      obtain ⟨l, rest, hd⟩ := fetchBody_ok hb
      obtain ⟨-, -, -, -, hcond⟩ := decodeBody_ok hh hd
      rw [hcond, hc]

/-! ## The step, by its fetch -/

section Step

variable {s t : State} (hw : WillFetch s)
include hw

theorem step_of_run {i : Instr} (h : fetch s.boundary = .ok (.run i) t) : step s = exec i t := by
  rw [step_willFetch hw, fetchExecute, h]
  rfl

theorem step_of_skip {len : Nat} (h : fetch s.boundary = .ok (.skip len) t) : step s = .next (t.setRip (t.next len)) := by
  rw [step_willFetch hw, fetchExecute, h]
  rfl

theorem step_of_raised {e : Exn} (h : fetch s.boundary = .raised e t) : step s = takeException e (s.boundary.keepFills t) := by
  rw [step_willFetch hw, fetchExecute, h]
  rfl

end Step

theorem sameButFills_of_all {α : Type} {s : State} {x : Res α} (h : x.All (Fills s)) :
    (∀ a t, x = .ok a t → SameButFills s t) ∧ ∀ e t, x = .raised e t → SameButFills s t :=
  ⟨fun _ _ e => by rw [e] at h; exact Fills.same h, fun _ _ e => by rw [e] at h; exact Fills.same h⟩

/-- Settles O8: the step by each result of the fetch. -/
theorem stepRunsFetched : Obligations.StepRunsFetched := by
  intro s hw
  obtain ⟨hok, hraised⟩ := sameButFills_of_all (fetch_allFills s.boundary)
  exact ⟨fun i t h => ⟨step_of_run hw h, hok _ t h, condHolds_of_fetch (s := s.boundary) h⟩,
    fun e t h => ⟨step_of_raised hw h, hraised e t h⟩⟩

/-- Settles O10: the fetch ends at the control word. -/
theorem falseConditionSkips : Obligations.FalseConditionSkips := by
  intro s t w h hw hr hh hc
  have same : SameButFills s.boundary t := (memRead_ok hr).same
  have run := step_of_skip hw (fetch_skips (s := s.boundary) hr hh hc)
  rw [State.next, same.rip] at run
  refine ⟨run, same, fun hoff hread => ?_⟩
  have hr' := memRead_off (s := s.boundary) hoff (sz := .half) hread
  exact (Res.ok.inj (hr.symm.trans hr')).2

/-- Settles O11: a refused control word by the fetch of it, a bad register number by that of the operand bytes. -/
theorem invalidEncodingTraps : Obligations.InvalidEncodingTraps := by
  refine ⟨fun s t w e hw hr he => step_of_raised hw (fetch_refused (s := s.boundary) hr he), ?_⟩
  intro s lo hi h hw hoff hread hbytes hh hc hbody hbad
  have hr : memRead .half s.boundary.rip s.boundary = .ok (hi ++ lo) s.boundary := fetch_head hoff hread hbytes
  have hbad' : decodeBody h (Memory.readBytes s.boundary.mem (addrs (s.boundary.rip + 2) h.bodyLen)) = .error .badRegister := hbad
  have hfetch : fetchBody h [] (addrs (s.boundary.rip + 2) h.bodyLen) s.boundary = .raised .invalidOpcode s.boundary := by
    rw [fetchBody_off (s := s.boundary) hoff (as := addrs (s.boundary.rip + 2) h.bodyLen) hbody, List.nil_append, hbad']
  exact step_of_raised hw (t := s.boundary) (by rw [fetch_runs hr hh hc, hfetch, Res.bind_raised])

/-- Settles O7: the bytes at `rip` are the control word, which the fetch decodes first, and the operand bytes. -/
theorem stepRunsDecoded : Obligations.StepRunsDecoded := by
  intro s i hw hoff hread hdec
  obtain ⟨lo, hi, tl, h, hbs, hh, hbody⟩ := decode_ok hdec
  obtain ⟨-, hlen, -, -, hcond⟩ := decodeBody_ok hh hbody
  have split : addrs s.rip i.length = addrs s.rip 2 ++ addrs (s.rip + 2) h.bodyLen := by
    rw [hlen]
    exact (addrs_append s.rip 2 h.bodyLen).symm
  have hbytes : bytesAt s s.rip 2 ++ bytesAt s (s.rip + 2) h.bodyLen = [lo, hi] ++ tl := by
    rw [← show bytesAt s s.rip i.length = [lo, hi] ++ tl from hbs]
    simp only [bytesAt, split, Memory.readBytes, List.map_append]
  obtain ⟨hhead, htail⟩ := List.append_inj hbytes (by simp [bytesAt])
  have hr : memRead .half s.boundary.rip s.boundary = .ok (hi ++ lo) s.boundary :=
    fetch_head hoff (fun pa hp => hread pa (split ▸ List.mem_append_left _ hp)) hhead
  cases hc : condHolds h.cond s.boundary with
  | false =>
    rw [step_of_skip hw (fetch_skips hr hh hc), exec_skips (hcond ▸ hc), hlen]
  | true =>
    refine step_of_run hw ?_
    have htl : Readable s.boundary (addrs (s.boundary.rip + 2) h.bodyLen) := fun pa hp =>
      hread pa (split ▸ List.mem_append_right _ hp)
    rw [← htail] at hbody
    have hbody' : decodeBody h (Memory.readBytes s.boundary.mem (addrs (s.boundary.rip + 2) h.bodyLen)) = .ok (i, []) := hbody
    rw [fetch_runs hr hh hc, fetchBody_off (s := s.boundary) hoff htl, List.nil_append, hbody']
    rfl

/-- Settles O9: the seven codes one by one, code 7 by the refused control word, and the skip. -/
theorem conditionCodes : Obligations.ConditionCodes := by
  refine ⟨fun s => ⟨⟨_, rfl, rfl⟩, ⟨_, rfl, Iff.rfl⟩, ⟨_, rfl, ?_⟩, ⟨_, rfl, Iff.rfl⟩, ⟨_, rfl, ?_⟩, ⟨_, rfl, ?_⟩,
      ⟨_, rfl, ?_⟩⟩,
    fun s t w hw hr h7 => ?_, fun i s => exec_skips⟩
  · simp [condHolds]
  · simp [condHolds]
  · simp [condHolds]
  · simp [condHolds]
  · obtain ⟨e, he⟩ := (invalidControlWords w).2 (.inr (.inr (.inr (.inl h7))))
    exact step_of_raised hw (fetch_refused (s := s.boundary) hr he)

/-! ## The boundary -/

theorem State.request_some {s : State} {v : Byte} {q : List (Option Byte)} (h : s.irq = some v :: q) : s.request = some v := by
  simp [State.request, h]

/-- A request met with `IF` = 1 is taken (R241). -/
theorem step_takes {s : State} {v : Byte} {q : List (Option Byte)} (h : s.irq = some v :: q) (hi : s.flagI = true) :
    step s = takeInterrupt v s.boundary := by
  simp [step, cycle, State.request_some h, hi]

/-- A boundary at which no interrupt is taken (R38, R241). -/
theorem step_passes {s : State} (h : s.request = none ∨ s.flagI = false) : step s = cpuStep s.boundary := by
  unfold step cycle
  rcases h with h | h
  · rw [h]
  · split <;> simp [h]

/-- A request met with `IF` = 0 is gone (R38). -/
theorem step_drops {s : State} {v : Byte} {q : List (Option Byte)} (h : s.irq = some v :: q) (hi : s.flagI = false) :
    step s = step (s.setIrq (none :: q)) := by
  have hb : s.boundary = (s.setIrq (none :: q)).boundary := by
    simp only [State.boundary, h]
    rfl
  rw [step_passes (.inr hi), step_passes (s := s.setIrq (none :: q)) (.inr hi), hb]

/-- Settles O12: the request taken, the request dropped, and the halted CPU. -/
theorem boundaryAndHalt : Obligations.BoundaryAndHalt := by
  refine ⟨fun s v q h => ⟨step_takes h, step_drops h⟩, fun s hh hn => ?_⟩
  rw [step_passes hn, cpuStep, if_pos (show s.boundary.halted = true from hh)]

/-! ## The flags byte -/

/-- The bits of the flags byte, from the lowest (R32). -/
theorem getLsbD_flagsByte (s : State) (n : Nat) :
    (flagsByte s).getLsbD n =
      if n < 1 then (BitVec.ofBool s.flagZ).getLsbD n
      else if n - 1 < 1 then (BitVec.ofBool s.flagC).getLsbD (n - 1)
      else if n - 1 - 1 < 1 then (BitVec.ofBool s.flagI).getLsbD (n - 1 - 1)
      else if n - 1 - 1 - 1 < 1 then (BitVec.ofBool s.swapSp).getLsbD (n - 1 - 1 - 1)
      else (0#4).getLsbD (n - 1 - 1 - 1 - 1) := by
  unfold flagsByte
  rw [show ∀ x : BitVec 7, (x ++ BitVec.ofBool s.flagZ).getLsbD n = _ from fun x => BitVec.getLsbD_append]
  rw [show ∀ (x : BitVec 6) m, (x ++ BitVec.ofBool s.flagC).getLsbD m = _ from fun x m => BitVec.getLsbD_append]
  rw [show ∀ (x : BitVec 5) m, (x ++ BitVec.ofBool s.flagI).getLsbD m = _ from fun x m => BitVec.getLsbD_append]
  rw [BitVec.getLsbD_append]

/-- Settles O13: the byte by the values of its four flags, the restoring bit by bit. -/
theorem flagsByteFormat : Obligations.FlagsByteFormat := by
  constructor
  · intro s
    unfold flagsByte
    cases s.swapSp <;> cases s.flagI <;> cases s.flagC <;> cases s.flagZ <;> rfl
  · intro f s
    apply BitVec.eq_of_getLsbD_eq
    intro n hn
    rw [getLsbD_flagsByte]
    interval_cases n <;> simp

/-! ## Instructions that change one bit or nothing -/

/-- Settles O54: NOP under either value of its condition, and the words that decode to it by the fields of the control word. -/
theorem nopOnlyAdvances : Obligations.NopOnlyAdvances := by
  refine ⟨fun sz c s => ?_, fun k sz c bs hop hsz hc => ?_, rfl, rfl, rfl⟩
  · cases hc : condHolds c s with
    | false => exact whenHolds_false hc _
    | true => exact advancing_ok hc rfl
  · have hop' : Op.ofCode k.opcode = some (.zero .nop) := by rw [hop]; rfl
    have hsz' : (Op.zero .nop).sizeOf k.size = some sz := by
      unfold Op.sizeOf
      rw [hsz]
      rfl
    rw [decode_bytes, decodeHead_toBits hop' hsz' hc]
    rfl

/-- Settles O55: each writes its bit, which the next boundary meets. -/
theorem interruptFlagInstructions : Obligations.InterruptFlagInstructions := by
  refine ⟨fun c s hc => ⟨advancing_ok hc rfl, advancing_ok hc rfl, fun v q h => ⟨?_, step_drops h rfl⟩⟩, rfl, rfl⟩
  rw [step_takes (s := (s.setI true).setRip (s.rip + 2)) h rfl, State.boundary]
  simp [h]

/-- Settles O56: each writes its bit and goes on. -/
theorem haltAndMmuBits : Obligations.HaltAndMmuBits := by
  intro sz c s hc
  exact ⟨advancing_ok hc rfl, advancing_ok hc rfl, advancing_ok hc rfl⟩

end Sys2Proof.Machine
end

section
/-! Precise exceptions (R84, R249): the reads and the write of each shape of instruction, and that what raises in them is taken in the
state before the instruction but for what translations have filled. -/

namespace Sys2Proof.Machine

/-! ## Results computed from the operands -/

theorem counted_of_lt {sz : Size} {v : BitVec sz.bits} (h : v.toNat < sz.bits) (f : BitVec sz.bits → Nat → BitVec sz.bits)
    (t : BitVec sz.bits) (s : State) : counted sz f t v s = .ok (f t v.toNat) s :=
  if_pos h

theorem counted_of_ge {sz : Size} {v : BitVec sz.bits} (h : sz.bits ≤ v.toNat) (f : BitVec sz.bits → Nat → BitVec sz.bits)
    (t : BitVec sz.bits) (s : State) : counted sz f t v s = .ok ((Config.freeWord s.draws).setWidth sz.bits) s.drawn :=
  if_neg (Nat.not_lt.2 h)

theorem divided_zero {w : Nat} (f : BitVec w → BitVec w → State → Res (BitVec w)) (t : BitVec w) (s : State) :
    divided f t 0 s = .raised .divideByZero s :=
  if_pos rfl

theorem divided_of_ne {w : Nat} {v : BitVec w} (h : v ≠ 0) (f : BitVec w → BitVec w → State → Res (BitVec w)) (t : BitVec w)
    (s : State) : divided f t v s = f t v s :=
  if_neg h

theorem signedDivided_of_fits {sz : Size} {t v : BitVec sz.bits} (h : ¬(t.toInt = -2 ^ (sz.bits - 1) ∧ v.toInt = -1))
    (f : Int → Int → Int) (s : State) : signedDivided sz f t v s = .ok (BitVec.ofInt sz.bits (f t.toInt v.toInt)) s :=
  if_neg h

theorem signedDivided_of_overflow {sz : Size} {t v : BitVec sz.bits} (ht : t.toInt = -2 ^ (sz.bits - 1)) (hv : v.toInt = -1)
    (f : Int → Int → Int) (s : State) :
    signedDivided sz f t v s = .ok ((Config.freeWord s.draws).setWidth sz.bits) s.drawn :=
  if_pos ⟨ht, hv⟩

theorem ne_zero_of_toInt {w : Nat} {v : BitVec w} (h : v.toInt = -1) : v ≠ 0 := by
  rintro rfl
  simp at h

/-! ## What raises in each shape -/

theorem Res.bind_of_raised {α β : Type} {x : Res α} {e : Exn} {u : State} (h : x = .raised e u) (k : α → State → Res β) :
    x.bind k = .raised e u := by
  rw [h, Res.bind_raised]

theorem Res.bind_pure {α : Type} (x : Res α) : x.bind .ok = x := by
  cases x <;> rfl

theorem conclude_raised {α : Type} {s u : State} {x : Res α} {e : Exn} (h : x = .raised e u) (k : α → State → Outcome) :
    conclude s x k = takeException e (s.keepFills u) := by
  rw [h, conclude]

theorem transferring_raised {c : Cond} {len : Nat} {s u : State} {x : Res Word} {e : Exn} (hc : condHolds c s = true)
    (h : x = .raised e u) : transferring c len s x = takeException e (s.keepFills u) := by
  rw [transferring, whenHolds_true hc, conclude_raised h]

theorem writeOperand_raised {sz : Size} {o : Operand} {s u : State} {e : Exn} (h : operandDest sz o s = .raised e u)
    (v : BitVec sz.bits) : writeOperand sz o v s = .raised e u :=
  Res.bind_of_raised h _

section Shapes

variable {row : FlagRow} {sz : Size} {src tgt : Operand} {f : BitVec sz.bits → BitVec sz.bits → State → Res (BitVec sz.bits)}
  {s s₁ s₂ s₃ u : State} {v t r : BitVec sz.bits} {e : Exn}

theorem combine_raised_result (hv : readOperand sz src s = .ok v s₁) (ht : readOperand sz tgt s₁ = .ok t s₂)
    (hf : f t v s₂ = .raised e u) : combine row sz src tgt f s = .raised e u := by
  simp [combine, readBoth_ok hv ht, hf]

theorem combine_raised_dest (hv : readOperand sz src s = .ok v s₁) (ht : readOperand sz tgt s₁ = .ok t s₂)
    (hf : f t v s₂ = .ok r s₃) (hd : operandDest sz tgt s₃ = .raised e u) : combine row sz src tgt f s = .raised e u := by
  simp [combine, readBoth_ok hv ht, hf, writeOperand_raised hd]

theorem combineNoFlags_raised_dest (hv : readOperand sz src s = .ok v s₁) (ht : readOperand sz tgt s₁ = .ok t s₂)
    (hf : f t v s₂ = .ok r s₃) (hd : operandDest sz tgt s₃ = .raised e u) : combineNoFlags sz src tgt f s = .raised e u := by
  simp [combineNoFlags, readBoth_ok hv ht, hf, writeOperand_raised hd]

theorem modify_raised_dest {k : BitVec sz.bits} {g : BitVec sz.bits → BitVec sz.bits} (hv : readOperand sz src s = .ok v s₁)
    (hd : operandDest sz src s₁ = .raised e u) : modify row sz src k g s = .raised e u := by
  simp [modify, hv, writeOperand_raised hd]

end Shapes

/-- A register is written without a translation, so a fault is met in memory. -/
theorem writeZeroExtended_raised {sz : Size} {tgt : Operand} {s u : State} {e : Exn} (h : operandDest sz tgt s = .raised e u)
    (v : BitVec sz.bits) : writeZeroExtended sz tgt v s = .raised e u := by
  cases tgt with
  | reg r => cases h
  | _ => exact writeOperand_raised h v

/-- A push that meets a fault on its bytes, in a state that has the rsp of `s`. -/
theorem push_raised {sz : Size} {s s₁ u : State} {e : Exn} (hs : SameButFills s s₁)
    (h : memDest sz (s.reg rsp - BitVec.ofNat 32 sz.bytes) s₁ = .raised e u) (v : BitVec sz.bits) :
    push sz v s₁ = .raised e u := by
  rw [← hs.reg] at h
  exact Res.bind_of_raised h _

/-! ## The pops, with the stack pointer written out -/

theorem State.setReg_setReg (s : State) (r : RegNo) (v w : Word) : (s.setReg r v).setReg r w = s.setReg r w := by
  simp [State.setReg]

theorem State.setReg_reg (s : State) (r : RegNo) : s.setReg r (s.reg r) = s :=
  State.ext_fields (fun q => by rw [State.reg_setReg]; split <;> simp_all) rfl rfl rfl rfl rfl rfl rfl rfl rfl rfl rfl rfl rfl rfl rfl

/-- A pop with rsp at `a` reads the bytes at `a` and leaves rsp above them (R74). -/
theorem pop_at {sz : Size} {a : Word} {s t : State} {v : BitVec sz.bits} (h : memRead sz a s = .ok v t) :
    pop sz (s.setReg rsp a) = .ok v (t.setReg rsp (a + BitVec.ofNat 32 sz.bytes)) := by
  unfold pop
  rw [State.reg_setReg_same, memRead_setReg, h]
  simp only [Res.withReg, Res.bind_ok, State.reg_setReg_same, State.setReg_setReg]

theorem pop_at_raised {sz : Size} {a : Word} {s u : State} {e : Exn} (h : memRead sz a s = .raised e u) :
    pop sz (s.setReg rsp a) = .raised e (u.setReg rsp a) := by
  unfold pop
  rw [State.reg_setReg_same, memRead_setReg, h]
  rfl

theorem pop_of_ok {sz : Size} {s t : State} {v : BitVec sz.bits} (h : memRead sz (s.reg rsp) s = .ok v t) :
    pop sz s = .ok v (t.setReg rsp (s.reg rsp + BitVec.ofNat 32 sz.bytes)) := by
  have := pop_at h
  rwa [State.setReg_reg] at this

theorem pop_of_raised {sz : Size} {s u : State} {e : Exn} (h : memRead sz (s.reg rsp) s = .raised e u) :
    pop sz s = .raised e u :=
  Res.bind_of_raised h _

/-! ## Division by zero -/

/-- Settles O18: the shared `divided` raises once both operands are read. -/
theorem divisionByZeroTraps : Obligations.DivisionByZeroTraps := by
  intro sz c src tgt s s₁ s₂ t hc hv ht
  simp only [List.forall_mem_cons, List.not_mem_nil, IsEmpty.forall_iff, implies_true, and_true]
  refine ⟨?_, ?_, ?_, ?_⟩ <;> exact advancing_raised hc (combine_raised_result hv ht (divided_zero _ _ _))

/-! ## The reads of an instruction -/

/-- A two-operand instruction reads both operands first, but for four that only read the source (R119). -/
theorem exec_two_reads (o : TwoOp) (sz : Size) (c : Cond) (src tgt : Operand) (s : State) :
    (∃ k, exec (o.toInstr sz c src tgt) s = advancing c (o.toInstr sz c src tgt).length s
      ((readBoth (if (Op.two o).wordOnly then .word else sz) src tgt s).bind k)) ∨
    (o ∈ [.mov, .movz, .rta, .ioIn] ∧ ∃ k, exec (o.toInstr sz c src tgt) s = advancing c (o.toInstr sz c src tgt).length s
      ((readOperand (if (Op.two o).wordOnly then .word else sz) src s).bind k)) := by
  cases o with
  | mov => exact .inr ⟨by simp, _, rfl⟩
  | movz => exact .inr ⟨by simp, _, rfl⟩
  | rta => exact .inr ⟨by simp, _, rfl⟩
  | ioIn => exact .inr ⟨by simp, _, rfl⟩
  | _ => exact .inl ⟨_, rfl⟩

/-- A one-operand instruction but POP reads its operand first (R119). -/
theorem exec_one_reads {o : OneOp} (h : o ≠ .pop) (sz : Size) (c : Cond) (amt : BitVec 2) (src : Operand) (s : State) :
    ∃ (α : Type) (g : _ → State → Res α) (k : α → State → Outcome), exec (o.toInstr sz c amt src) s =
      whenHolds c (o.toInstr sz c amt src).length s
        (conclude s ((readOperand (if (Op.one o).wordOnly then .word else sz) src s).bind g) k) := by
  cases o with
  | pop => exact absurd rfl h
  | jmp => exact ⟨_, .ok, fun a t => .next (t.setRip a), by rw [Res.bind_pure]; rfl⟩
  | int =>
    refine ⟨_, .ok, ?k, ?eq⟩
    case eq =>
      rw [Res.bind_pure]
      rfl
  | _ => exact ⟨_, _, _, rfl⟩

/-- RETI reads the flags byte, then `rip`, then, with bit 3 of the byte 1, the stack pointer (R217). -/
theorem returnFromTrap_raised {s s₁ u : State} {e : Exn} {f : Byte} (hf : memRead .byte (s.reg rsp) s = .ok f s₁) :
    (memRead .word (s.reg rsp + 1) s₁ = .raised e u → ∃ a, returnFromTrap s = .raised e (u.setReg rsp a)) ∧
    ∀ (r : Word) (s₂ : State), memRead .word (s.reg rsp + 1) s₁ = .ok r s₂ → f.getLsbD 3 = true →
      memRead .word (s.reg rsp + 5) s₂ = .raised e u → ∃ a, returnFromTrap s = .raised e (u.setReg rsp a) := by
  have first := pop_of_ok hf
  refine ⟨fun h => ⟨s.reg rsp + 1, ?_⟩, fun r s₂ hr h3 h => ⟨s.reg rsp + 5, ?_⟩⟩
  · rw [returnFromTrap, first, Res.bind_ok]
    exact Res.bind_of_raised (pop_at_raised h) _
  · have second := pop_at hr
    rw [returnFromTrap, first, Res.bind_ok]
    refine (Res.bind_of_ok second _).trans ?_
    have third : s.reg rsp + 1 + BitVec.ofNat 32 Size.word.bytes = s.reg rsp + 5 := by
      rw [BitVec.add_assoc]
      rfl
    rw [if_pos h3, third, State.reg_setReg_same, memRead_setReg, h]
    rfl

/-- Settles O19: what an instruction reads it reads first. -/
theorem readFaultIsPrecise : Obligations.ReadFaultIsPrecise := by
  intro sz c amt src tgt s s₁ s₂ u e hc
  refine ⟨fun o h => ?_, fun o ho h => ?_, fun o v ho hv h => ?_, fun h => ?_, fun h => ?_, fun h => ?_, fun f hf => ⟨fun h => ?_,
    fun r hr h3 h => ?_⟩⟩
  · obtain ⟨k, hk⟩ | ⟨-, k, hk⟩ := exec_two_reads o sz c src tgt s <;> rw [hk]
    · exact advancing_raised hc (Res.bind_of_raised (Res.bind_of_raised h _) _)
    · exact advancing_raised hc (Res.bind_of_raised h _)
  · obtain ⟨α, g, k, hk⟩ := exec_one_reads ho sz c amt src s
    rw [hk, whenHolds_true hc, conclude_raised (Res.bind_of_raised h _)]
  · obtain ⟨k, hk⟩ | ⟨hm, -⟩ := exec_two_reads o sz c src tgt s
    · rw [hk]
      refine advancing_raised hc (Res.bind_of_raised ?_ _)
      rw [readBoth, hv, Res.bind_ok, h, Res.bind_raised]
    · exact absurd hm ho
  · exact advancing_raised hc (Res.bind_of_raised h _)
  · exact transferring_raised hc (pop_of_raised h)
  · exact (whenHolds_true hc _).trans (conclude_raised (Res.bind_of_raised (pop_of_raised h) _) _)
  · obtain ⟨a, ha⟩ := (returnFromTrap_raised hf).1 h
    exact (whenHolds_true hc _).trans (conclude_raised ha _)
  · obtain ⟨a, ha⟩ := (returnFromTrap_raised hf).2 r s₂ hr h3 h
    exact (whenHolds_true hc _).trans (conclude_raised ha _)

/-! ## The write of an instruction -/

/-- Settles O20: once the operands are read and the result is computed, the place to write is tried first. -/
theorem writeFaultIsPrecise : Obligations.WriteFaultIsPrecise := by
  intro sz c amt src tgt s s₁ s₂ u e hc
  simp only [List.forall_mem_cons, List.not_mem_nil, IsEmpty.forall_iff, implies_true, and_true]
  refine ⟨fun v t hv ht hd => ⟨?_, fun hlt => ?_, fun h0 => ?_, fun h0 hfit => ?_⟩,
    fun v t hv ht hd => ⟨fun hge => ?_, fun htm hvm => ?_⟩, fun v hv hd => ?_, fun v hv hd => ?_, fun v hv hd => ?_,
    fun v hv => ⟨fun hd => ?_, fun hd => ?_⟩, fun v hv => ⟨fun hd => ?_, fun hd => ?_⟩⟩
  · refine ⟨?_, ?_, ?_, ?_, ?_, ?_, ?_, ?_, ?_⟩ <;> exact advancing_raised hc (combine_raised_dest hv ht rfl hd)
  · have done := fun f => counted_of_lt hlt f t s₂
    refine ⟨?_, ?_, ?_, ?_, ?_⟩
    iterate 3 exact advancing_raised hc (combine_raised_dest hv ht (done _) hd)
    iterate 2 exact advancing_raised hc (combineNoFlags_raised_dest hv ht (done _) hd)
  · have done := fun f => divided_of_ne h0 (total f) t s₂
    constructor <;> exact advancing_raised hc (combine_raised_dest hv ht (done _) hd)
  · have done := fun f => (divided_of_ne h0 (signedDivided sz f) t s₂).trans (signedDivided_of_fits hfit f s₂)
    constructor <;> exact advancing_raised hc (combine_raised_dest hv ht (done _) hd)
  · have done := fun f => counted_of_ge hge f t s₂
    refine ⟨?_, ?_, ?_, ?_, ?_⟩
    iterate 3 exact advancing_raised hc (combine_raised_dest hv ht (done _) hd)
    iterate 2 exact advancing_raised hc (combineNoFlags_raised_dest hv ht (done _) hd)
  · have done := fun f => (divided_of_ne (ne_zero_of_toInt hvm) (signedDivided sz f) t s₂).trans
      (signedDivided_of_overflow htm hvm f s₂)
    constructor <;> exact advancing_raised hc (combine_raised_dest hv ht (done _) hd)
  · exact ⟨advancing_raised hc ((Res.bind_of_ok hv _).trans (writeOperand_raised hd _)),
      advancing_raised hc ((Res.bind_of_ok hv _).trans (writeZeroExtended_raised hd _)),
      advancing_raised hc ((Res.bind_of_ok hv _).trans (writeOperand_raised hd _))⟩
  · refine ⟨?_, ?_, ?_⟩ <;> exact advancing_raised hc (modify_raised_dest hv hd)
  · exact advancing_raised hc ((Res.bind_of_ok hv _).trans (Res.bind_of_raised hd _))
  · exact advancing_raised hc ((Res.bind_of_ok hv _).trans (push_raised (readOperand_ok hv).1 hd _))
  · have raised := push_raised (sz := .word) (readOperand_ok hv).1 hd
    exact transferring_raised hc ((Res.bind_of_ok hv _).trans (Res.bind_of_raised (raised _) _))
  · exact advancing_raised hc ((Res.bind_of_ok hv _).trans (Res.bind_of_raised hd _))
  · have raised := push_raised (sz := .word) (readOperand_ok hv).1 hd
    exact transferring_raised hc ((Res.bind_of_ok hv _).trans (Res.bind_of_raised (raised _) _))

end Sys2Proof.Machine
end

section
/-! Memory and translation (R61 to R65, R71, R80 to R85, R112 to R116): what operands read as, where accesses stop, the walk of the
tables, and the page faults. -/

namespace Sys2Proof.Machine

/-! ## Operands with the MMU disabled -/

theorem effectiveAddress_none (r : RegNo) (s : State) : effectiveAddress r none s = s.reg r := by
  simp [effectiveAddress]

theorem effectiveAddress_some (r : RegNo) (b : Byte) (s : State) :
    effectiveAddress r (some b) s = s.reg r + BitVec.ofNat 32 b.toNat := by
  rw [effectiveAddress, Option.getD_some, BitVec.ofNat_toNat]

theorem size_bits_le (sz : Size) : sz.bits ≤ 32 := by
  cases sz <;> decide

/-- Settles O22: the register and the immediate at once, the memory forms by the access at their address. -/
theorem operandForms : Obligations.OperandForms := by
  intro sz s hoff
  have low : ∀ v : Word, v.setWidth sz.bits = v.extractLsb' 0 sz.bits := fun v =>
    BitVec.setWidth_eq_extractLsb' (size_bits_le sz)
  have access : ∀ a, (Readable s (addrs a sz.bytes) → memRead sz a s = .ok ((wordAt s a).extractLsb' 0 sz.bits) s) ∧
      (Writable s (addrs a sz.bytes) → memDest sz a s = .ok (.mem (addrs a sz.bytes)) s) := fun a =>
    ⟨memRead_off_wordAt hoff, memDest_off hoff⟩
  refine ⟨fun r => ⟨by rw [← low]; rfl, rfl⟩, fun v => ⟨by rw [← low]; rfl, rfl⟩, fun o a ha => ?_⟩
  cases o with
  | reg r => exact ha.elim
  | imm v => exact ha.elim
  | immPtr p =>
    obtain rfl : a = p := ha
    exact access a
  | ptr r off =>
    cases off with
    | none =>
      obtain rfl : a = s.reg r := ha
      rw [readOperand, operandDest, effectiveAddress_none]
      exact access _
    | some b =>
      obtain rfl : a = s.reg r + BitVec.ofNat 32 b.toNat := ha
      rw [readOperand, operandDest, effectiveAddress_some]
      exact access _

/-! ## Accesses outside the memory map -/

theorem memRead_off_stops {s : State} {sz : Size} {a : Word} {f : Fault} (hoff : s.mmuEn = false)
    (h : readFault s.physMap s.busError (addrs a sz.bytes) = some f) : memRead sz a s = .fault f := by
  simp [memRead, translateRange_off hoff, h]

theorem memDest_off_stops {s : State} {sz : Size} {a : Word} {f : Fault} (hoff : s.mmuEn = false)
    (h : writeFault s.physMap s.busError (addrs a sz.bytes) = some f) : memDest sz a s = .fault f := by
  simp [memDest, translateRange_off hoff, h]

/-- Where there is memory, a read answers its byte, whatever it answers elsewhere. -/
theorem busBytes_zip {s : State} {use : BusUse} {pas : List Word} {p : Word × Byte} (h : p ∈ pas.zip (s.busBytes use pas))
    (hk : kindAt s.physMap p.1 ≠ none) : p.2 = Memory.read s.mem p.1.toNat := by
  rw [State.busBytes, ← List.map_prod_left_eq_zip] at h
  obtain ⟨pa, -, rfl⟩ := List.mem_map.1 h
  exact State.busByte_readable hk use

/-- Settles O23: by the first address that stops the access, or by there being none. -/
theorem accessStops : Obligations.AccessStops := by
  intro sz a s
  refine ⟨fun hoff hb hr => ?_, fun hoff hb => ?_, fun hoff h => ?_, fun hoff hi h => ?_, fun e t => memRead_raised,
    fun e t => memDest_raised⟩
  · obtain ⟨pa, hp, hk, hf⟩ := readFault_some hr hb
    exact ⟨pa, hp, hk, memRead_off_stops hoff hf⟩
  · have none_stops : readFault s.physMap s.busError (addrs a sz.bytes) = none :=
      readFault_eq_none.2 fun pa _ => readStop_eq_none.2 fun _ => hb
    refine ⟨_, _, memRead_goesOn hoff none_stops, by simp, sameButFills_afterRead _ _, ?_, fun p hp hk => busBytes_zip hp hk⟩
    rcases s.afterRead_cases (addrs a sz.bytes) with e | e <;> rw [e]
    rfl
  · obtain ⟨pa, hp, ⟨hk, hf⟩ | ⟨hk, hf⟩⟩ := writeFault_some h
    · exact ⟨pa, hp, .inl ⟨hk, memDest_off_stops hoff hf⟩⟩
    · exact ⟨pa, hp, .inr ⟨hk, memDest_off_stops hoff hf⟩⟩
  · have none_stops : writeFault s.physMap s.busError (addrs a sz.bytes) = none :=
      writeFault_eq_none.2 fun pa hp => writeStop_eq_none.2 (h pa hp)
    have valid : Dest.Valid s sz (.mem (addrs a sz.bytes)) :=
      ⟨addrs_nodup a ((size_bytes_le sz).trans (by norm_num)), by simp, none_stops⟩
    exact ⟨memDest_goesOn hoff none_stops, fun v => ⟨store_holds hi.1 valid v, store_frame s _ sz v⟩⟩

/-! ## Little-endian words -/

/-- The bytes of a word in ascending address order are its bits from the lowest (R61). -/
theorem leBytes_word (v : Word) :
    leBytes 4 v.toNat = [v.extractLsb' 0 8, v.extractLsb' 8 8, v.extractLsb' 16 8, v.extractLsb' 24 8] := by
  simp only [leBytes, BitVec.extractLsb', Nat.shiftRight_eq_div_pow, Nat.div_div_eq_div_mul]
  norm_num

/-- Settles O24: the stored bytes one by one, then reads of them. -/
theorem littleEndianStores : Obligations.LittleEndianStores := by
  intro s a v hi hoff hw
  have hr : Readable (s.store (.mem (addrs a 4)) .word v) (addrs a 4) := fun pa hp hk => by
    rw [State.physMap_store, hw pa hp] at hk
    cases hk
  have hoff' : (s.store (.mem (addrs a 4)) .word v).mmuEn = false := hoff
  have bytes : ∀ n < 4, Memory.read (s.store (.mem (addrs a 4)) .word v).mem (a + BitVec.ofNat 32 n).toNat =
      v.extractLsb' (8 * n) 8 := by
    have h := bytesAt_store hi hw v
    rw [leBytes_word, bytesAt] at h
    generalize s.store (.mem (addrs a 4)) .word v = t at h ⊢
    rw [addrs4, Memory.readBytes] at h
    simp only [List.map_cons, List.map_nil, List.cons.injEq, and_true] at h
    obtain ⟨h₀, h₁, h₂, h₃⟩ := h
    intro n hn
    interval_cases n
    · simpa using h₀
    · exact h₁
    · exact h₂
    · exact h₃
  refine ⟨bytes, ?_, ?_, ?_⟩
  · rw [memRead_off_wordAt hoff' (sz := .word) hr, wordAt_store hi hw]
    congr 1
    exact BitVec.extractLsb'_eq_self
  · rw [memRead_off_wordAt hoff' (sz := .half) fun pa hp => hr pa (mem_addrs_mono (by decide) pa hp), wordAt_store hi hw]
  · rw [← bytes 3 (by norm_num)]
    exact fetchByte_off hoff' (hr _ (mem_addrs.2 ⟨3, by norm_num, rfl⟩))

/-! ## The walk (R81, R82) -/

/-- The address of a directory entry, by the formula. -/
theorem directory_address (pdp va : Word) :
    pdp + 4 * (va.extractLsb' 22 10).setWidth 32 = pdp + BitVec.ofNat 32 (4 * (va.toNat / 2 ^ 22)) := by
  congr 1
  apply BitVec.eq_of_toNat_eq
  have := va.isLt
  simp only [BitVec.toNat_mul, BitVec.toNat_setWidth, BitVec.extractLsb'_toNat, Nat.shiftRight_eq_div_pow, BitVec.toNat_ofNat,
    BitVec.ofNat_eq_ofNat]
  omega

/-- The address of a table entry, by the formula. -/
theorem table_address (pde va : Word) :
    joinPage (pde.extractLsb' 12 20) 0 + 4 * (va.extractLsb' 12 10).setWidth 32 =
      BitVec.ofNat 32 (pde.toNat / 4096 * 4096 + 4 * (va.toNat / 4096 % 1024)) := by
  have page : joinPage (pde.extractLsb' 12 20) 0 = BitVec.ofNat 32 (pde.toNat / 4096 * 4096) := by
    apply BitVec.eq_of_toNat_eq
    have := pde.isLt
    rw [show (joinPage (pde.extractLsb' 12 20) 0).toNat = _ from BitVec.toNat_append (pde.extractLsb' 12 20) _]
    simp only [BitVec.extractLsb'_toNat, Nat.shiftRight_eq_div_pow, BitVec.toNat_ofNat, Nat.shiftLeft_eq, BitVec.ofNat_eq_ofNat,
      Nat.zero_div, Nat.zero_mod, Nat.or_zero]
    omega
  rw [page]
  apply BitVec.eq_of_toNat_eq
  have := va.isLt
  simp only [BitVec.toNat_add, BitVec.toNat_mul, BitVec.toNat_setWidth, BitVec.extractLsb'_toNat, Nat.shiftRight_eq_div_pow,
    BitVec.toNat_ofNat, BitVec.ofNat_eq_ofNat]
  omega

/-- Settles O26: the two reads of the walk, at the addresses of the formulas. -/
theorem walkReadsTables : Obligations.WalkReadsTables := by
  rintro s va pde pte hr rfl
  have dir := physRead_eq hr .directory
  rw [← directory_address] at dir ⊢
  refine ⟨fun h0 => ?_, fun h0 hr' hpte => ?_⟩
  · simp only [walk, dir, h0]
    rfl
  · have tab := physRead_eq hr' .table
    rw [← hpte, ← table_address] at tab
    simp only [walk, dir, h0, tab]
    rfl

/-! ## Translation (R80, R83) -/

theorem walk_vpn {s : State} {va : Word} {e : TlbEntry} (h : walk s va = .ok (some e)) : e.vpn = vpnOf va := by
  unfold walk at h
  split at h
  · cases h
  · split at h
    · split at h
      · cases h
      · split at h <;> cases h
        rfl
    · cases h

theorem applyEntry_ok {kind : AccessKind} {va pa : Word} {e : TlbEntry} {s t : State} (h : applyEntry kind va e s = .ok pa t) :
    (kind = .write → e.writable = true) ∧ pa = joinPage e.ppn va := by
  unfold applyEntry at h
  split at h
  · cases h
  · next hn =>
    refine ⟨fun hk => ?_, (Res.ok.inj h).1.symm⟩
    simpa using fun hw => hn ⟨hk, hw⟩

/-- What the TLB holds after a translation it held before, or is what the walk found (R83). -/
theorem translate_tlb {kind : AccessKind} {va : Word} {s : State} (hm : s.mmuEn = true) :
    (translate kind va s).All fun t => ∀ e ∈ t.tlb, e ∈ s.tlb ∨ walk s va = .ok (some e) := by
  have kept : ∀ e ∈ s.forgetSome.tlb, e ∈ s.tlb := fun e h => (List.mem_filter.1 h).1
  have left : ∀ e ∈ s.forgetSome.tlb, e ∈ s.tlb ∨ walk s va = .ok (some e) := fun e h => .inl (kept e h)
  rcases translate_cases (kind := kind) (va := va) hm with ⟨e, -, -, h⟩ | h <;> rw [h]
  · exact applyEntry_all (P := fun t => ∀ e ∈ t.tlb, e ∈ s.tlb ∨ walk s va = .ok (some e)) _ _ _ left
  · split
    · trivial
    · exact left
    · next e hw =>
      refine applyEntry_all (P := fun t => ∀ e ∈ t.tlb, e ∈ s.tlb ∨ walk s va = .ok (some e)) _ _ _ fun e' h' => ?_
      unfold State.mayFill at h'
      split at h'
      · rcases List.mem_cons.1 h' with rfl | h'
        exacts [.inr hw, left e' h']
      · exact left e' h'

/-- A translation that answers goes through an entry that was held or that the walk found (R80). -/
theorem translate_ok_entry {kind : AccessKind} {va pa : Word} {s t : State} (hm : s.mmuEn = true)
    (h : translate kind va s = .ok pa t) :
    ∃ e : TlbEntry, (e ∈ s.tlb ∨ walk s va = .ok (some e)) ∧ e.vpn = vpnOf va ∧ (kind = .write → e.writable = true) ∧
      pa = joinPage e.ppn va := by
  rcases translate_cases (kind := kind) (va := va) hm with ⟨e, he, hv, h'⟩ | h' <;> rw [h'] at h
  · exact ⟨e, .inl he, hv, applyEntry_ok h⟩
  · split at h
    · cases h
    · cases h
    · next e hw => exact ⟨e, .inr hw, walk_vpn hw, applyEntry_ok h⟩

/-- Settles O25: a translation is the use of a held entry or a walk. -/
theorem translationFollowsTables : Obligations.TranslationFollowsTables := by
  intro kind va s hm
  have fills := translate_fills kind va s
  have tlb := translate_tlb (kind := kind) (va := va) hm
  refine ⟨fun pa t h => ?_, fun ex t h => ?_, fun e hw hall => ?_⟩
  · have entry := translate_ok_entry hm h
    rw [h] at fills tlb
    exact ⟨fills, tlb, entry⟩
  · rw [h] at fills tlb
    exact ⟨fills, tlb⟩
  · rcases translate_cases (kind := kind) (va := va) hm with ⟨e', he', hv, h⟩ | h
    · exact ⟨_, _, h.trans (applyEntry_allows (fun hk => (hall hk).2 e' he' hv) _)⟩
    · rw [hw] at h
      exact ⟨_, _, h.trans (applyEntry_allows (fun hk => (hall hk).1) _)⟩

/-! ## Page faults (R80, R85, R247) -/

theorem TlbUnique.eq_of_vpn {l : List TlbEntry} (h : TlbUnique l) {a b : TlbEntry} (ha : a ∈ l) (hb : b ∈ l)
    (hv : a.vpn = b.vpn) : a = b := by
  by_contra hne
  have symm : Std.Symm fun a b : TlbEntry => a.vpn ≠ b.vpn := ⟨fun _ _ => Ne.symm⟩
  exact h.forall ha hb hne hv

/-- A write to a page with a read-only entry faults, or is decided by a walk after that entry was lost (R80, R83). -/
theorem translate_write_readOnly {va : Word} {s : State} {e : TlbEntry} (hm : s.mmuEn = true) (hu : TlbUnique s.tlb)
    (he : e ∈ s.tlb) (hv : e.vpn = vpnOf va) (hro : e.writable = false) :
    (∃ t, translate .write va s = .raised (.pageFaultWrite va) t) ∨
    (∃ e' t, walk s va = .ok (some e') ∧ e'.writable = true ∧ translate .write va s = .ok (joinPage e'.ppn va) t) ∨
    ∃ f, walk s va = .error f ∧ translate .write va s = .fault f := by
  rcases translate_cases (kind := .write) (va := va) hm with ⟨e', he', hv', h⟩ | h
  · obtain rfl := TlbUnique.eq_of_vpn hu he he' (hv.trans hv'.symm)
    exact .inl ⟨_, h.trans (applyEntry_readOnly hro _)⟩
  · cases hw : walk s va with
    | error f => exact .inr (.inr ⟨f, rfl, by rw [h, hw]⟩)
    | ok o =>
      rw [hw] at h
      cases o with
      | none => exact .inl ⟨_, h⟩
      | some e' =>
        cases hwr : e'.writable with
        | false => exact .inl ⟨_, h.trans (applyEntry_readOnly hwr _)⟩
        | true => exact .inr (.inl ⟨e', _, rfl, hwr, h.trans (applyEntry_allows (fun _ => hwr) _)⟩)

/-- An access whose second page faults, `k` bytes on (R85). -/
theorem translateRange_second_raised {kind : AccessKind} {va pa : Word} {n k : Nat} {s t u : State} {e : Exn}
    (hk : va.toNat % 4096 + k = 4096) (hn : k < n) (h : translate kind va s = .ok pa t)
    (h' : translate kind (va + BitVec.ofNat 32 k) t = .raised e u) : translateRange kind va n s = .raised e u := by
  have inPage : bytesInPage va n = k := by
    unfold bytesInPage
    omega
  rw [translateRange, inPage, h, Res.bind_ok, if_neg (Nat.not_le.2 hn), h', Res.bind_raised]

/-- Settles O27: the translation that faults, first on its own and then as a part of an access. -/
theorem pageFaultAddress : Obligations.PageFaultAddress := by
  intro s va hm
  refine ⟨fun kind ht hw => ⟨_, translate_absent hm ht hw⟩, fun e ht hw hro => ?_,
    fun e he hi hv hro => translate_write_readOnly hm hi.2 he hv hro, fun sz t u ex => ⟨fun h => ?_, fun h => ?_,
    fun pa k hk hn => ⟨fun h h' => ?_, fun h h' => ?_⟩⟩⟩
  · exact translate_readOnly hm (fun e' he' hv => absurd hv (ht e' he')) hw hro
  · obtain ⟨-, rfl⟩ := translate_raised h
    exact memRead_of_raised h
  · obtain ⟨-, rfl⟩ := translate_raised h
    exact memDest_of_raised h
  · obtain ⟨-, rfl⟩ := translate_raised h'
    exact Res.bind_of_raised (translateRange_second_raised hk hn h h') _
  · obtain ⟨-, rfl⟩ := translate_raised h'
    exact Res.bind_of_raised (translateRange_second_raised hk hn h h') _

end Sys2Proof.Machine
end

section
/-! Traps with the MMU disabled (R245 to R248, R256): the entry completes with its frame, RETI restores what the frame holds, and the
two undo each other; INT and BRK enter so too (R213, R216, R217). -/

namespace Sys2Proof.Machine

/-! ## Entering -/

theorem memRead_word_off {s : State} (hoff : s.mmuEn = false) {a : Word} (hr : Readable s (addrs a 4)) :
    memRead .word a s = .ok (wordAt s a) s := by
  rw [memRead_off_wordAt hoff (sz := .word) hr]
  congr 1
  exact BitVec.extractLsb'_eq_self

/-- A trap that is ready is taken, and leaves the frame (R245). -/
theorem enter_trapEntered {s : State} {vector h : Word} (hi : Inv s) (r : TrapReady s vector h) (saved w : Word) :
    ∃ t, enter vector saved w s = .next t ∧ TrapEntered s t h saved w := by
  obtain ⟨t, hpush, p⟩ := pushFrame_off hi r.mmuOff r.stack saved w
  have hread := memRead_word_off r.mmuOff r.readable
  rw [r.handler] at hread
  exact ⟨t.enterHandler h, enter_next.2 ⟨h, s, t, hread, r.installed, hpush, rfl⟩, rfl, p.sp, p.bytes, p.fz, p.fc,
    p.frame.enterHandler h⟩

section Alike

variable {s s' : State} (f : Frame s s' [] []) (hz : s'.flagZ = s.flagZ) (hc : s'.flagC = s.flagC)
include f

theorem Frame.reg_eq (r : RegNo) : s'.reg r = s.reg r := f.regs r (by simp)

theorem Frame.read_eq (a : Nat) : Memory.read s'.mem a = Memory.read s.mem a := f.mem a (by simp)

theorem Frame.trapSize_eq : trapSize s' = trapSize s := by
  simp only [trapSize, f.swapSp]

theorem Frame.trapBase_eq : trapBase s' = trapBase s := by
  simp only [trapBase, trapTop, f.trapSize_eq, f.swapSp, f.reg_eq]

/-- A trap is ready in a state that is the same but for `rip`, flags and draws. -/
theorem TrapReady.of_frame {vector h : Word} (r : TrapReady s vector h) : TrapReady s' vector h where
  mmuOff := f.mmuEn.trans r.mmuOff
  readable pa hp := by rw [f.physMap]; exact r.readable pa hp
  handler := by
    rw [← r.handler]
    simp only [wordAt, f.read_eq]
  installed := r.installed
  stack pa hp := by
    rw [f.trapBase_eq, f.trapSize_eq] at hp
    rw [f.physMap]
    exact r.stack pa hp

include hz hc

/-- A trap that is entered from a state that is the same but for `rip` and draws. -/
theorem TrapEntered.of_frame {t : State} {h saved w : Word} (e : TrapEntered s' t h saved w) : TrapEntered s t h saved w where
  rip := e.rip
  rsp := e.rsp.trans f.trapBase_eq
  pushed := by
    have hp := e.pushed
    rw [f.trapBase_eq, f.trapSize_eq] at hp
    rw [hp]
    simp only [trapFrame, flagsByte, f.swapSp, f.flagI, hz, hc, f.reg_eq]
  flagZ := e.flagZ.trans hz
  flagC := e.flagC.trans hc
  rest := by
    have hr := e.rest
    rw [f.trapBase_eq, f.trapSize_eq] at hr
    exact ((f.weaken (by simp) (by simp)).enterHandler s'.rip).trans hr

end Alike

theorem takeInterrupt_trapEntered {v : Byte} {s : State} {h : Word} (hi : Inv s)
    (r : TrapReady s (BitVec.ofNat 32 (4 * v.toNat)) h) :
    ∃ t, takeInterrupt v s = .next t ∧ TrapEntered s t h s.rip (BitVec.ofNat 32 v.toNat) := by
  rw [BitVec.ofNat_toNat]
  exact enter_trapEntered hi r _ _

/-- An exception that is ready is taken; the word it pushes is its operand, where it has one (R247). -/
theorem takeException_trapEntered {e : Exn} {s : State} {h : Word} (hi : Inv s) (r : TrapReady s e.vector h) :
    ∃ t w, takeException e s = .next t ∧ TrapEntered s t h s.rip w ∧ ∀ va, e.operand = some va → w = va := by
  unfold takeException
  cases ho : e.operand with
  | some va =>
    obtain ⟨t, ht, entered⟩ := enter_trapEntered hi r s.rip va
    exact ⟨t, va, ht, entered, fun va' hva => Option.some.inj hva⟩
  | none =>
    have f : Frame s s.drawn [] [] := (Fills.drawn s).frame _ _
    obtain ⟨t, ht, entered⟩ := enter_trapEntered (s := s.drawn) hi (r.of_frame f) s.rip (Config.freeWord s.draws)
    exact ⟨t, _, ht, entered.of_frame f rfl rfl, nofun⟩

/-- Settles O15: the interrupt by its vector, each exception by its own. -/
theorem trapEntryFrame : Obligations.TrapEntryFrame := by
  refine ⟨fun v s h => takeInterrupt_trapEntered, fun e s h hi r => ?_⟩
  have r' : TrapReady s e.vector h := by
    cases e <;> exact r
  obtain ⟨t, w, ht, entered, hw⟩ := takeException_trapEntered hi r'
  refine ⟨t, w, ht, entered, fun va hva => hw va ?_⟩
  rcases hva with rfl | rfl <;> rfl

/-! ## Returning -/

/-- What RETI leaves: flags, `rip` and rsp are restored, all else is as before (R217). -/
theorem frame_restored {s u : State} (hf : Fills s u) (f : Byte) (a r : Word) :
    Frame ((s.setI (f.getLsbD 2)).setSwap (f.getLsbD 3)) ((restoreFlags f (u.setReg rsp a)).setRip r) [rsp] [] := by
  have g := (hf.frame [rsp] []).trans (frame_setReg u rsp a)
  exact ⟨g.regs, g.mem, rfl, rfl, g.mmuEn, g.pdp, g.halted, g.tlb, g.physMap, g.busError, g.irq, g.ioLog⟩

section Return

variable {s s₁ s₂ : State} {f : Byte} {r : Word} (hf : memRead .byte (s.reg rsp) s = .ok f s₁)
  (hr : memRead .word (s.reg rsp + 1) s₁ = .ok r s₂)
include hf hr

/-- The two pops of RETI (R217). -/
theorem returnFromTrap_pops : returnFromTrap s =
    if f.getLsbD 3 then
      (memRead .word (s.reg rsp + 5) (s₂.setReg rsp (s.reg rsp + 5))).bind fun sp s₃ =>
        .ok () (((restoreFlags f s₃).setReg rsp sp).setRip r)
    else .ok () ((restoreFlags f (s₂.setReg rsp (s.reg rsp + 5))).setRip r) := by
  have first := pop_of_ok hf
  have second := pop_at hr
  have third : s.reg rsp + 1 + BitVec.ofNat 32 Size.word.bytes = s.reg rsp + 5 := by
    rw [BitVec.add_assoc]
    rfl
  rw [third] at second
  rw [returnFromTrap, first, Res.bind_ok]
  refine (Res.bind_of_ok second _).trans ?_
  rw [State.reg_setReg_same]

theorem returnFromTrap_keeps_stack (h3 : f.getLsbD 3 = false) :
    returnFromTrap s = .ok () ((restoreFlags f (s₂.setReg rsp (s.reg rsp + 5))).setRip r) := by
  rw [returnFromTrap_pops hf hr, h3]
  rfl

theorem returnFromTrap_restores_stack (h3 : f.getLsbD 3 = true) {s₃ : State} {sp : Word}
    (hsp : memRead .word (s.reg rsp + 5) s₂ = .ok sp s₃) :
    returnFromTrap s = .ok () ((restoreFlags f (s₃.setReg rsp sp)).setRip r) := by
  have restored : ∀ a : Word, (restoreFlags f (s₃.setReg rsp a)).setReg rsp sp = restoreFlags f (s₃.setReg rsp sp) := fun a =>
    congrArg (restoreFlags f) (State.setReg_setReg s₃ rsp a sp)
  rw [returnFromTrap_pops hf hr, if_pos h3, memRead_setReg, hsp]
  simp only [Res.withReg, Res.bind_ok, restored]

end Return

/-- Settles O59: RETI by whether the flags byte restores the stack pointer. -/
theorem returnFromInterrupt : Obligations.ReturnFromInterrupt := by
  intro c s s₁ s₂ f r hc hf hr
  have fills : Fills s s₂ := (memRead_ok hf).trans (memRead_ok hr)
  have run : ∀ u, returnFromTrap s = .ok () u → exec (.reti c) s = .next u := fun u h =>
    (whenHolds_true hc _).trans (by rw [h]; rfl)
  refine ⟨fun h3 => ?_, fun h3 s₃ sp hsp => ?_⟩
  · refine ⟨_, run _ (returnFromTrap_keeps_stack hf hr h3), rfl, rfl, rfl, by simp, ?_⟩
    rw [← h3]
    exact frame_restored fills f _ r
  · refine ⟨_, run _ (returnFromTrap_restores_stack hf hr h3 hsp), rfl, rfl, rfl, by simp, ?_⟩
    rw [← h3]
    exact frame_restored (fills.trans (memRead_ok hsp)) f _ r

/-! ## There and back -/

/-- The bytes of a part of a range of addresses. -/
theorem bytesAt_part (s : State) (a : Word) {i n k : Nat} (h : i + n ≤ k) :
    bytesAt s (a + BitVec.ofNat 32 i) n = ((bytesAt s a k).drop i).take n := by
  obtain ⟨m, rfl⟩ := Nat.exists_eq_add_of_le h
  rw [Nat.add_assoc]
  simp only [bytesAt, ← addrs_append, Memory.readBytes, List.map_append]
  rw [List.drop_left' (by simp), List.take_left' (by simp)]

theorem readable_part {s : State} {a : Word} {i n k : Nat} (hr : Writable s (addrs a k)) (h : i + n ≤ k) :
    Readable s (addrs (a + BitVec.ofNat 32 i) n) := by
  obtain ⟨m, rfl⟩ := Nat.exists_eq_add_of_le h
  intro pa hp hk
  have hmem : pa ∈ addrs a (i + n + m) := by
    rw [Nat.add_assoc, ← addrs_append, ← addrs_append]
    exact List.mem_append_right _ (List.mem_append_left _ hp)
  rw [hr pa hmem] at hk
  cases hk

/-- A word that lies in a range of RAM is read back. -/
theorem memRead_part {s : State} {a : Word} {i k : Nat} {sz : Size} {v : BitVec sz.bits} (hoff : s.mmuEn = false)
    (hw : Writable s (addrs a k)) (h : i + sz.bytes ≤ k)
    (hb : ((bytesAt s a k).drop i).take sz.bytes = leBytes sz.bytes v.toNat) :
    memRead sz (a + BitVec.ofNat 32 i) s = .ok v s := by
  rw [memRead_off hoff (readable_part hw h), bytesAt_part s a h, hb, leNat_leBytes, ← size_two_pow_bits]
  congr 1
  apply BitVec.eq_of_toNat_eq
  rw [BitVec.toNat_ofNat, Nat.mod_mod, Nat.mod_eq_of_lt v.isLt]

/-- What the frame of a trap reads as (R248): the flags byte, the saved `rip`, and with `SWAP` the old rsp. -/
theorem trapEntered_reads {s t : State} {h saved w : Word} (e : TrapEntered s t h saved w) (hoff : s.mmuEn = false)
    (hw : Writable s (addrs (trapBase s) (trapSize s))) :
    memRead .byte (trapBase s + 4) t = .ok (flagsByte s) t ∧ memRead .word (trapBase s + 5) t = .ok saved t ∧
      (s.swapSp = true → memRead .word (trapBase s + 9) t = .ok (s.reg rsp) t) := by
  have hoff' : t.mmuEn = false := e.rest.mmuEn.trans hoff
  have hw' : Writable t (addrs (trapBase s) (trapSize s)) := fun pa hp => by
    rw [e.rest.physMap]
    exact hw pa hp
  have size : 9 ≤ trapSize s ∧ (s.swapSp = true → trapSize s = 13) := by
    unfold trapSize
    split <;> simp_all
  refine ⟨memRead_part (i := 4) (sz := .byte) hoff' hw' (by simp only [Size.bytes]; omega) ?_,
    memRead_part (i := 5) (sz := .word) hoff' hw' (by simp only [Size.bytes]; omega) ?_,
    fun hs => memRead_part (i := 9) (sz := .word) hoff' hw' (by simp only [Size.bytes, size.2 hs]; omega) ?_⟩
  · rw [e.pushed, trapFrame, flagsByte_le]
    simp [leBytes]
  · rw [e.pushed, trapFrame, flagsByte_le]
    simp [leBytes]
  · rw [e.pushed, trapFrame, flagsByte_le, if_pos hs]
    simp [leBytes]

/-- Without a switch of stacks the frame lies just below rsp. -/
theorem trapBase_add_nine {s : State} (h : s.swapSp = false) : trapBase s + 9 = s.reg rsp := by
  simp [trapBase, trapTop, trapSize, h]

theorem memRead_setReg_ok {sz : Size} {a : Word} {s t : State} {v : BitVec sz.bits} (h : memRead sz a s = .ok v t) (r : RegNo)
    (x : Word) : memRead sz a (s.setReg r x) = .ok v (t.setReg r x) := by
  rw [memRead_setReg, h]
  rfl

theorem flagsByte_bits (s : State) : (flagsByte s).getLsbD 0 = s.flagZ ∧ (flagsByte s).getLsbD 1 = s.flagC ∧
    (flagsByte s).getLsbD 2 = s.flagI ∧ (flagsByte s).getLsbD 3 = s.swapSp := by
  simp only [getLsbD_flagsByte]
  simp

/-- Settles O21: RETI reads what the entry pushed. -/
theorem trapRoundTrip : Obligations.TrapRoundTrip := by
  intro v s h hi r
  obtain ⟨t, ht, e⟩ := takeInterrupt_trapEntered hi r
  obtain ⟨hflags, hrip, hsp⟩ := trapEntered_reads e r.mmuOff r.stack
  obtain ⟨bz, bc, bi, bs⟩ := flagsByte_bits s
  -- RETI runs in `t'`, where the pushed word is removed
  let t' := t.setReg rsp (t.reg rsp + 4)
  have at_sp : t'.reg rsp = trapBase s + 4 := by rw [State.reg_setReg_same, e.rsp]
  have up : ∀ k : Word, t'.reg rsp + k = trapBase s + (4 + k) := fun k => by rw [at_sp, BitVec.add_assoc]
  have first : memRead .byte (t'.reg rsp) t' = .ok (flagsByte s) t' := at_sp ▸ memRead_setReg_ok hflags _ _
  have second : memRead .word (t'.reg rsp + 1) t' = .ok s.rip t' := up 1 ▸ memRead_setReg_ok hrip _ _
  obtain ⟨keeps, restores⟩ := returnFromInterrupt .always t' t' t' (flagsByte s) s.rip rfl first second
  have back : ∃ u, exec (.reti .always) t' = .next u ∧ u.flagZ = s.flagZ ∧ u.flagC = s.flagC ∧ u.rip = s.rip ∧
      u.reg rsp = s.reg rsp ∧ Frame ((t'.setI s.flagI).setSwap s.swapSp) u [rsp] [] := by
    rw [bz, bc, bi] at keeps restores
    rw [bs] at keeps restores
    cases hs : s.swapSp with
    | false =>
      obtain ⟨u, hu, hz, hc, hrip, hsp, f⟩ := keeps hs
      exact ⟨u, hu, hz, hc, hrip, hsp.trans ((up 5).trans (trapBase_add_nine hs)), f⟩
    | true =>
      obtain ⟨u, hu, hz, hc, hrip, hsp, f⟩ := restores hs t' (s.reg rsp) (up 5 ▸ memRead_setReg_ok (hsp hs) _ _)
      exact ⟨u, hu, hz, hc, hrip, hsp, f⟩
  obtain ⟨u, hu, hz, hc, hrip, hsp, f⟩ := back
  refine ⟨t, u, ht, hu, hrip, hz, hc, fun q _ => ?_, fun a ha => ?_, f.flagI, f.swapSp, ?_, ?_, ?_, fun hm => ?_, ?_, ?_, ?_, ?_⟩
  · by_cases hq : q = rsp
    · rw [hq, hsp]
      rfl
    · have out : q ∉ [rsp] := by simpa using hq
      exact (f.regs q out).trans ((t.reg_setReg_other _ hq).trans (e.rest.regs q out))
  · exact (f.mem a (by simp)).trans (e.rest.mem a ha)
  · exact f.mmuEn.trans e.rest.mmuEn
  · exact f.pdp.trans e.rest.pdp
  · exact f.halted.trans e.rest.halted
  · exact (f.tlb (e.rest.mmuEn.trans hm)).trans (e.rest.tlb hm)
  · exact f.physMap.trans e.rest.physMap
  · exact f.busError.trans e.rest.busError
  · exact f.irq.trans e.rest.irq
  · exact f.ioLog.trans e.rest.ioLog

/-! ## INT and BRK -/

/-- Settles O58: the entry of exception 4 from the address of the next instruction. -/
theorem breakpointTraps : Obligations.BreakpointTraps := by
  intro sz c s hc
  have run : exec (.brk sz c) s = takeException .breakpoint (s.setRip (s.rip + 2)) := whenHolds_true hc _
  refine ⟨run, fun h hi r => ?_⟩
  have f : Frame s (s.setRip (s.rip + 2)) [] [] := (Frame.refl s _ _).setRip _
  obtain ⟨t, w, ht, e, -⟩ := takeException_trapEntered (e := .breakpoint) (s := s.setRip (s.rip + 2)) hi (r.of_frame f)
  exact ⟨t, w, run.trans ht, e.of_frame f rfl rfl⟩

/-- INT, once its source is read (R216). -/
theorem exec_int {c : Cond} {src : Operand} {s s₁ : State} {v : Word} (hc : condHolds c s = true)
    (hv : readOperand .word src s = .ok v s₁) :
    exec (.int c src) s =
      if 0xFF < v.toNat then .refused (.intVectorAbove0xFF v)
      else if s.flagI then takeInterrupt (v.setWidth 8) (s₁.setRip (s.next (Instr.int c src).length))
      else .next (s₁.setRip (s.next (Instr.int c src).length)) := by
  rw [← (readOperand_ok hv).1.flagI]
  exact (whenHolds_true hc _).trans (by rw [hv]; rfl)

/-- Settles O57: INT by its source value and `IF`. -/
theorem softwareInterrupt : Obligations.SoftwareInterrupt := by
  intro c src s s₁ v hc hv
  have fills : Fills s s₁ := readOperand_okFills hv
  have run := exec_int hc hv
  refine ⟨fun hle hif => ?_, fun hle hif => ?_, fun hgt => by rw [run, if_pos hgt]⟩
  · rw [if_neg (Nat.not_lt.2 hle), hif] at run
    exact ⟨_, run, rfl, (fills.frame _ _).setRip _, fills.same.flagZ, fills.same.flagC⟩
  · rw [if_neg (Nat.not_lt.2 hle), if_pos hif] at run
    refine ⟨run, fun h hi r => ?_⟩
    have low : (v.setWidth 8).toNat = v.toNat := by
      rw [BitVec.toNat_setWidth]
      omega
    have vector : BitVec.ofNat 32 (4 * (v.setWidth 8).toNat) = 4 * v := by
      rw [low]
      apply BitVec.eq_of_toNat_eq
      simp
    have f : Frame s (s₁.setRip (s.next (Instr.int c src).length)) [] [] := (fills.frame _ _).setRip _
    have hi' : Inv (s₁.setRip (s.next (Instr.int c src).length)) := ⟨fills.keeps.wf hi.1, fills.uniq hi.2⟩
    obtain ⟨t, ht, e⟩ := takeInterrupt_trapEntered (v := v.setWidth 8) hi' (vector ▸ r.of_frame f)
    have word : BitVec.ofNat 32 (v.setWidth 8).toNat = v := by rw [low, BitVec.ofNat_toNat, BitVec.setWidth_eq]
    rw [word] at e
    exact ⟨t, run.trans ht, e.of_frame f fills.same.flagZ fills.same.flagC⟩

end Sys2Proof.Machine
end

section
/-! What the arithmetic, logic, shift, rotate, bit, move and compare instructions complete with: the value each computes, as arithmetic
on its operands, put into the shapes they share (R141 to R150, R161 to R173, R181 to R185). -/

namespace Sys2Proof

/-! ## Values -/

/-- A difference modulo 2^W is the integer difference. -/
theorem ofInt_toNat_sub {w : Nat} (t v : BitVec w) : BitVec.ofInt w ((t.toNat : Int) - v.toNat) = t - v := by
  have split : BitVec.ofInt w ((t.toNat : Int) - v.toNat) + BitVec.ofInt w v.toNat = BitVec.ofInt w t.toNat := by
    rw [← BitVec.ofInt_add, sub_add_cancel]
  rw [BitVec.ofInt_natCast, BitVec.ofInt_natCast, BitVec.ofNat_toNat, BitVec.ofNat_toNat, BitVec.setWidth_eq, BitVec.setWidth_eq]
    at split
  exact eq_sub_of_add_eq split

theorem ofNat_toNat_add {w : Nat} (t v : BitVec w) : BitVec.ofNat w (t.toNat + v.toNat) = t + v := by
  apply BitVec.eq_of_toNat_eq
  simp

theorem ofNat_toNat_mul {w : Nat} (t v : BitVec w) : BitVec.ofNat w (t.toNat * v.toNat) = t * v := by
  apply BitVec.eq_of_toNat_eq
  simp

theorem ofInt_toInt_mul {w : Nat} (t v : BitVec w) : BitVec.ofInt w (t.toInt * v.toInt) = t * v := by
  rw [BitVec.ofInt_mul, BitVec.ofInt_toInt, BitVec.ofInt_toInt]

/-- A W-bit result is 0 when the exact one is 0 modulo 2^W. -/
theorem ofNat_beq_zero (w n : Nat) : (BitVec.ofNat w n == 0) = decide (n % 2 ^ w = 0) := by
  rw [beq_eq_decide]
  congr 1
  rw [← BitVec.toNat_inj, BitVec.toNat_ofNat]
  simp

theorem sub_beq_zero {w : Nat} (t v : BitVec w) : (t - v == 0) = decide (t = v) := by
  rw [beq_eq_decide]
  congr 1
  exact propext sub_eq_zero

/-- The two ways to say that a product is out of the signed range. -/
theorem signed_range (w : Nat) (hw : 0 < w) (p : Int) :
    (2 * p < -(2 ^ w) ∨ 2 ^ w ≤ 2 * p) ↔ (p < -2 ^ (w - 1) ∨ p > 2 ^ (w - 1) - 1) := by
  obtain ⟨n, rfl⟩ := Nat.exists_eq_succ_of_ne_zero hw.ne'
  rw [Nat.succ_sub_one, pow_succ]
  generalize (2 : Int) ^ n = m
  omega

theorem not_intMin_or {w : Nat} (hw : 0 < w) {t v : BitVec w} (h : ¬(t.toInt = -2 ^ (w - 1) ∧ v.toInt = -1)) :
    t ≠ BitVec.intMin w ∨ v ≠ -1#w := by
  by_contra hn
  push Not at hn
  obtain ⟨rfl, rfl⟩ := hn
  have half : 2 ^ (w - 1) < 2 ^ w := Nat.pow_lt_pow_right (by omega) (by omega)
  refine h ⟨?_, ?_⟩
  · rw [BitVec.toInt_intMin, Nat.mod_eq_of_lt half]
    norm_cast
  · rw [BitVec.neg_one_eq_allOnes]
    exact BitVec.toInt_allOnes.trans (if_pos hw)

theorem ofInt_tdiv {w : Nat} (hw : 0 < w) {t v : BitVec w} (h : ¬(t.toInt = -2 ^ (w - 1) ∧ v.toInt = -1)) :
    BitVec.ofInt w (t.toInt.tdiv v.toInt) = t.sdiv v := by
  rw [← BitVec.toInt_sdiv_of_ne_or_ne t v (not_intMin_or hw h), BitVec.ofInt_toInt]

theorem ofInt_tmod {w : Nat} (t v : BitVec w) : BitVec.ofInt w (t.toInt.tmod v.toInt) = t.srem v := by
  rw [← BitVec.toInt_srem, BitVec.ofInt_toInt]

/-- A remainder is smaller than the divisor, with the sign of the dividend (R150). -/
theorem tmod_bounds {t v : Int} (hv : v ≠ 0) : |t.tmod v| < |v| ∧ (t.tmod v ≠ 0 → (t.tmod v).sign = t.sign) := by
  constructor
  · rw [Int.abs_eq_natAbs, Int.abs_eq_natAbs, Int.natAbs_tmod]
    have := Nat.mod_lt t.natAbs (Int.natAbs_pos.2 hv)
    omega
  · intro h
    rw [Int.sign_tmod, if_neg]
    exact fun hd => h (Int.tmod_eq_zero_of_dvd hd)

/-! ## Shifts and rotates -/

theorem ofNat_shiftLeft {w : Nat} (t : BitVec w) (n : Nat) : BitVec.ofNat w (t.toNat * 2 ^ n) = t <<< n := by
  apply BitVec.eq_of_toNat_eq
  rw [BitVec.toNat_shiftLeft, Nat.shiftLeft_eq, BitVec.toNat_ofNat]

theorem ofNat_ushiftRight {w : Nat} (t : BitVec w) (n : Nat) : BitVec.ofNat w (t.toNat / 2 ^ n) = t >>> n := by
  rw [← Nat.shiftRight_eq_div_pow, ← BitVec.toNat_ushiftRight, BitVec.ofNat_toNat, BitVec.setWidth_eq]

theorem ofInt_sshiftRight {w : Nat} (t : BitVec w) (n : Nat) : BitVec.ofInt w (t.toInt / 2 ^ n) = t.sshiftRight n := by
  have h : (t.sshiftRight n).toInt = t.toInt / 2 ^ n := by
    rw [BitVec.toInt_sshiftRight, Int.shiftRight_eq_div_pow]
    norm_cast
  rw [← h, BitVec.ofInt_toInt]

theorem ushiftRight_beq_zero {w : Nat} (t : BitVec w) (n : Nat) : (t >>> n == 0) = decide (t.toNat / 2 ^ n = 0) := by
  rw [beq_eq_decide]
  congr 1
  rw [← BitVec.toNat_inj, BitVec.toNat_ushiftRight, Nat.shiftRight_eq_div_pow]
  simp

theorem sshiftRight_beq_zero {w : Nat} (t : BitVec w) (n : Nat) :
    (t.sshiftRight n == 0) = decide (t.toInt / 2 ^ n = 0) := by
  rw [beq_eq_decide]
  congr 1
  rw [← BitVec.toInt_inj, BitVec.toInt_sshiftRight, Int.shiftRight_eq_div_pow]
  simp

namespace Machine

/-- A rotation left takes bit `n` to bit `n` plus the count, modulo W (R168). -/
theorem getLsbD_rotateLeft {w : Nat} (t v : BitVec w) {n : Nat} (hn : n < w) :
    (rotateLeft t v).getLsbD ((n + v.toNat) % w) = t.getLsbD n := by
  have hm : v.toNat % w < w := Nat.mod_lt _ (by omega)
  rw [Nat.add_mod, Nat.mod_eq_of_lt hn]
  unfold rotateLeft
  generalize v.toNat % w = m at hm ⊢
  rcases Nat.lt_or_ge (n + m) w with h | h
  · rw [Nat.mod_eq_of_lt h]
    have high : t.getLsbD (w - m + (n + m)) = false := BitVec.getLsbD_of_ge _ _ (by omega)
    rw [BitVec.getLsbD_or, BitVec.getLsbD_shiftLeft, BitVec.getLsbD_ushiftRight, high, Nat.add_sub_cancel]
    have notLow : ¬n + m < m := by omega
    simp only [h, notLow, decide_true, decide_false, Bool.not_false, Bool.and_self, Bool.true_and, Bool.or_false]
  · rw [Nat.mod_eq_sub_mod h, Nat.mod_eq_of_lt (by omega)]
    have low : n + m - w < m := by omega
    have back : w - m + (n + m - w) = n := by omega
    simp [low, back]

/-- A rotation right takes it back (R169). -/
theorem getLsbD_rotateRight {w : Nat} (t v : BitVec w) {n : Nat} (hn : n < w) :
    (rotateRight t v).getLsbD n = t.getLsbD ((n + v.toNat) % w) := by
  have hm : v.toNat % w < w := Nat.mod_lt _ (by omega)
  rw [Nat.add_mod, Nat.mod_eq_of_lt hn]
  unfold rotateRight
  generalize v.toNat % w = m at hm ⊢
  rcases Nat.lt_or_ge (n + m) w with h | h
  · rw [Nat.mod_eq_of_lt h]
    have low : n < w - m := by omega
    simp [low, Nat.add_comm]
  · rw [Nat.mod_eq_sub_mod h, Nat.mod_eq_of_lt (by omega)]
    have high : t.getLsbD (m + n) = false := BitVec.getLsbD_of_ge _ _ (by omega)
    have back : n - (w - m) = n + m - w := by omega
    have notLow : ¬n < w - m := by omega
    rw [BitVec.getLsbD_or, BitVec.getLsbD_shiftLeft, BitVec.getLsbD_ushiftRight, high, back]
    simp only [hn, notLow, decide_true, decide_false, Bool.not_false, Bool.and_self, Bool.true_and, Bool.false_or]

/-- A rotation keeps every bit, so it is 0 only if its operand is. -/
theorem rotateLeft_eq_zero {w : Nat} {t v : BitVec w} : rotateLeft t v = 0 ↔ t = 0 := by
  refine ⟨fun h => BitVec.eq_of_getLsbD_eq fun n hn => ?_, fun h => by simp [rotateLeft, h]⟩
  rw [← getLsbD_rotateLeft t v hn, h]
  simp

theorem rotateRight_eq_zero {w : Nat} {t v : BitVec w} : rotateRight t v = 0 ↔ t = 0 := by
  refine ⟨fun h => BitVec.eq_of_getLsbD_eq fun n hn => ?_, fun h => by simp [rotateRight, h]⟩
  -- the place bit `n` of the operand is taken to
  have hm : v.toNat % w < w := Nat.mod_lt _ (by omega)
  have place : ((n + (w - v.toNat % w)) % w + v.toNat) % w = n := by
    have round : n + (w - v.toNat % w) + v.toNat = n + w * (v.toNat / w + 1) := by
      have := Nat.div_add_mod v.toNat w
      rw [Nat.mul_add, Nat.mul_one]
      omega
    rw [Nat.mod_add_mod, round, Nat.add_mul_mod_self_left, Nat.mod_eq_of_lt hn]
  rw [← place, ← getLsbD_rotateRight t v (Nat.mod_lt _ (by omega)), h]
  simp

end Machine

end Sys2Proof
end

section
/-! Results of the instructions that combine two operands, change one, or compare: what each completes with, assembled from the shapes
they share and the values above (R141 to R173, R181 to R185). -/

namespace Sys2Proof.Machine

/-! ## The shapes, from the premises of the statements -/

section Shapes

variable {i : Instr} {row : FlagRow} {sz : Size} {c : Cond} {src tgt : Operand}
  {f : BitVec sz.bits → BitVec sz.bits → State → Res (BitVec sz.bits)} {s : State} {v t r : BitVec sz.bits} {d : Dest} {z cc : Bool}

/-- An instruction that computes its result from its operands, and the flags of its row. -/
theorem completes_updates (hi : Inv s) (hc : condHolds c s = true) (h : UpdatesAt sz src tgt s v t d)
    (he : exec i s = advancing c i.length s (combine row sz src tgt f s)) (hf : ∀ u, f t v u = .ok r u)
    (hz : zAfter (flagPolicy row).z t v r s.flagZ = z) (hcc : cAfter (flagPolicy row).c t v s.flagC = cc) :
    Completes i s d sz r z cc := by
  obtain ⟨s₁, s₂, s₃, hv, ht, hd⟩ := h
  exact completes_combine he hi hc hv ht (hf s₂) (.refl s₂) hd hz hcc

/-- The same, with no flag. -/
theorem completes_updates_noFlags (hi : Inv s) (hc : condHolds c s = true) (h : UpdatesAt sz src tgt s v t d)
    (he : exec i s = advancing c i.length s (combineNoFlags sz src tgt f s)) (hf : ∀ u, f t v u = .ok r u) :
    Completes i s d sz r s.flagZ s.flagC := by
  obtain ⟨s₁, s₂, s₃, hv, ht, hd⟩ := h
  exact completes_combineNoFlags he hi hc hv ht (hf s₂) (.refl s₂) hd

/-- An instruction that reads both operands and writes flags only. -/
theorem completesFlags_reads {g : BitVec sz.bits × BitVec sz.bits → State → State} (hc : condHolds c s = true)
    (h : ReadsAs sz src tgt s v t)
    (he : exec i s = advancing c i.length s ((readBoth sz src tgt s).bind fun vt s₁ => .ok () (g vt s₁)))
    (hg : ∀ u, Frame u (g (v, t) u) [] [])
    (hz : ∀ u, SameButFills s u → (g (v, t) u).flagZ = z) (hcc : ∀ u, SameButFills s u → (g (v, t) u).flagC = cc) :
    CompletesFlags i s z cc := by
  obtain ⟨s₁, s₂, hv, ht⟩ := h
  have fills : Fills s s₂ := (readOperand_okFills hv).trans (readOperand_okFills ht)
  refine ⟨_, he.trans (advancing_ok hc (Res.bind_of_ok (readBoth_ok hv ht) _)), ?_, hz s₂ fills.same, hcc s₂ fills.same, rfl⟩
  exact ((fills.frame _ _).trans (hg s₂)).setRip _

/-- An instruction that reads its source and writes its target, and no flag. -/
theorem completes_move {g : BitVec sz.bits → BitVec sz.bits} (hi : Inv s) (hc : condHolds c s = true)
    (h : ReadsInto sz src tgt s v d)
    (he : exec i s = advancing c i.length s ((readOperand sz src s).bind fun v s₁ => writeOperand sz tgt (g v) s₁)) :
    Completes i s d sz (g v) s.flagZ s.flagC := by
  obtain ⟨s₁, s₂, hv, hd⟩ := h
  have fills : Fills s s₂ := (readOperand_okFills hv).trans (operandDest_okFills hd)
  refine completes_of hi fills (operandDest_ok hd).2.2 (s₂.store d sz (g v)) ?_ ⟨rfl, rfl, .refl _ _ _⟩ ?_ ?_
  · exact he.trans (advancing_ok hc ((Res.bind_of_ok hv _).trans (writeOperand_ok hd _)))
  · rw [State.flagZ_store, fills.same.flagZ]
  · rw [State.flagC_store, fills.same.flagC]

end Shapes

/-! ## Arithmetic -/

/-- Settles O35: sum and difference of the unsigned values, carry and borrow. -/
theorem addSubResults : Obligations.AddSubResults := by
  intro sz c src tgt s v t d hi hc h
  constructor
  · rw [← ofNat_beq_zero, ofNat_toNat_add]
    exact completes_updates hi hc h rfl (fun _ => rfl) rfl rfl
  · rw [← sub_beq_zero, ofInt_toNat_sub]
    exact completes_updates hi hc h rfl (fun _ => rfl) rfl rfl

/-- The amount of INC and DEC fits every size (R109). -/
theorem toNat_stepAmount (sz : Size) (amt : BitVec 2) : (stepAmount sz amt).toNat = 2 ^ amt.toNat := by
  have fits : 2 ^ amt.toNat < 2 ^ sz.bits := by
    apply Nat.pow_lt_pow_right (by omega)
    have := amt.isLt
    cases sz <;> simp only [Size.bits] <;> omega
  rw [stepAmount, BitVec.toNat_ofNat, Nat.shiftLeft_eq, Nat.one_mul, Nat.mod_eq_of_lt fits]

/-- Settles O36: ADD and SUB by the power of two that the amount field names. -/
theorem incDecResults : Obligations.IncDecResults := by
  intro sz c amt src s s₁ s₂ v d hi hc hv hd
  rw [← toNat_stepAmount sz amt]
  constructor
  · rw [← ofNat_beq_zero, ofNat_toNat_add]
    exact completes_modify (f := (· + stepAmount sz amt)) rfl hi hc hv hd rfl rfl
  · rw [ofInt_toNat_sub]
    exact completes_modify (f := (· - stepAmount sz amt)) rfl hi hc hv hd
      ((sub_beq_zero _ _).trans (decide_eq_decide.2 BitVec.toNat_inj.symm)) rfl

/-- Settles O6: the amount field by the decoder, its four values by what INC and DEC complete with. -/
theorem amountOfIncDec : Obligations.AmountOfIncDec := by
  constructor
  · intro w h hh hop bs rest i hb
    obtain ⟨-, htgt, -⟩ := decodeHead_fields hh
    obtain ⟨op, sz, c, off, tgt, sr⟩ := h
    obtain rfl : tgt = w.extractLsb' 2 2 := htgt
    rcases hop with rfl | rfl
    all_goals
      simp only [decodeBody] at hb
      split at hb
      · cases hb
      next src _ _ =>
        cases hb
        exact ⟨src, rfl, rfl⟩
  · intro sz c amt src s s₁ s₂ v d k hi hc hv hd hk
    have amount : 2 ^ amt.toNat = k := by
      revert hk
      simp only [List.mem_cons, Prod.mk.injEq, List.not_mem_nil, or_false]
      rintro (⟨rfl, rfl⟩ | ⟨rfl, rfl⟩ | ⟨rfl, rfl⟩ | ⟨rfl, rfl⟩) <;> rfl
    obtain ⟨⟨t, ht, hholds, -⟩, u, hu, hholds', -⟩ := incDecResults sz c amt src s s₁ s₂ v d hi hc hv hd
    have step : BitVec.ofNat sz.bits k = stepAmount sz amt := by
      rw [stepAmount, Nat.shiftLeft_eq, Nat.one_mul, amount]
    rw [← toNat_stepAmount sz amt] at hholds hholds'
    rw [ofNat_toNat_add] at hholds
    rw [ofInt_toNat_sub] at hholds'
    rw [step]
    exact ⟨⟨t, ht, hholds⟩, u, hu, hholds'⟩

/-- Settles O37: the product of the unsigned and of the signed values. -/
theorem multiplyResults : Obligations.MultiplyResults := by
  intro sz c src tgt s v t d hi hc h
  have pos : 0 < sz.bits := by cases sz <;> decide
  rw [← ofNat_beq_zero, ofNat_toNat_mul]
  refine ⟨completes_updates hi hc h rfl (fun _ => rfl) rfl rfl, ?_⟩
  exact completes_updates hi hc h rfl (fun u => congrArg (Res.ok · u) (ofInt_toInt_mul t v)) rfl
    (decide_eq_decide.2 (signed_range sz.bits pos _))

/-- Settles O38: quotient and remainder of the unsigned values. -/
theorem unsignedDivisionResults : Obligations.UnsignedDivisionResults := by
  intro sz c src tgt s v t d hi hc h h0
  have pos : 0 < v.toNat := Nat.pos_of_ne_zero fun e => h0 (BitVec.eq_of_toNat_eq e)
  have quotient : (t / v).toNat = t.toNat / v.toNat := BitVec.toNat_udiv
  have remainder : (t % v).toNat = t.toNat % v.toNat := BitVec.toNat_umod
  have done : ∀ (f : BitVec sz.bits → BitVec sz.bits → BitVec sz.bits) u, divided (total f) t v u = .ok (f t v) u := fun f u =>
    divided_of_ne h0 _ t u
  refine ⟨t / v, t % v, ?_, ?_, ?_, ?_⟩
  · rw [quotient, remainder, Nat.div_add_mod]
  · rw [remainder]
    exact Nat.mod_lt _ pos
  · refine completes_updates hi hc h rfl (fun u => (done _ u).trans (congrArg (Res.ok · u) ?_)) rfl rfl
    rw [← quotient, BitVec.ofNat_toNat, BitVec.setWidth_eq]
  · refine completes_updates hi hc h rfl (fun u => (done _ u).trans (congrArg (Res.ok · u) ?_)) rfl rfl
    rw [← remainder, BitVec.ofNat_toNat, BitVec.setWidth_eq]

/-- Settles O39: quotient and remainder of the signed values, which fit but for the most negative number by -1. -/
theorem signedDivisionResults : Obligations.SignedDivisionResults := by
  intro sz c src tgt s v t d hi hc h h0 hfit
  have pos : 0 < sz.bits := by cases sz <;> decide
  have nonzero : v.toInt ≠ 0 := fun e => h0 (BitVec.toInt_inj.1 (e.trans BitVec.toInt_zero.symm))
  have quotient : (t.sdiv v).toInt = t.toInt.tdiv v.toInt := BitVec.toInt_sdiv_of_ne_or_ne t v (not_intMin_or pos hfit)
  have remainder : (t.srem v).toInt = t.toInt.tmod v.toInt := BitVec.toInt_srem t v
  have done : ∀ f u, divided (signedDivided sz f) t v u = .ok (BitVec.ofInt sz.bits (f t.toInt v.toInt)) u := fun f u =>
    (divided_of_ne h0 _ t u).trans (signedDivided_of_fits hfit f u)
  obtain ⟨small, sign⟩ := tmod_bounds (t := t.toInt) nonzero
  refine ⟨t.sdiv v, t.srem v, ?_, remainder ▸ small, remainder ▸ sign, ?_, ?_⟩
  · rw [quotient, remainder, Int.mul_tdiv_add_tmod]
  · exact completes_updates hi hc h rfl (fun u => (done _ u).trans (congrArg (Res.ok · u) (ofInt_tdiv pos hfit))) rfl rfl
  · exact completes_updates hi hc h rfl (fun u => (done _ u).trans (congrArg (Res.ok · u) (ofInt_tmod t v))) rfl rfl

/-! ## Logic, shifts and bits -/

/-- Settles O40: each result by the bits of the operands. -/
theorem logicResults : Obligations.LogicResults := by
  refine ⟨fun sz c src tgt s v t d hi hc h => ⟨t &&& v, t ||| v, t ^^^ v, fun n hn => ⟨?_, ?_, ?_⟩, ?_, ?_, ?_⟩,
    fun sz c src s s₁ s₂ v d hi hc hv hd => ⟨~~~v, fun k hk => ?_, ?_⟩⟩
  · exact BitVec.getLsbD_and
  · exact BitVec.getLsbD_or
  · exact BitVec.getLsbD_xor
  · exact completes_updates hi hc h rfl (fun _ => rfl) rfl rfl
  · exact completes_updates hi hc h rfl (fun _ => rfl) rfl rfl
  · exact completes_updates hi hc h rfl (fun _ => rfl) rfl rfl
  · rw [BitVec.getLsbD_not, decide_eq_true hk, Bool.true_and]
  · exact completes_modify rfl hi hc hv hd rfl rfl

/-- Settles O41: shifts as multiplication and division by a power of two. -/
theorem shiftResults : Obligations.ShiftResults := by
  intro sz c src tgt s v t d hi hc h hlt
  have done : ∀ f u, counted sz f t v u = .ok (f t v.toNat) u := fun f u => counted_of_lt hlt f t u
  refine ⟨?_, ?_, ?_⟩
  · rw [← ofNat_beq_zero, ofNat_shiftLeft]
    exact completes_updates hi hc h rfl (done _) rfl rfl
  · rw [← ushiftRight_beq_zero, ofNat_ushiftRight]
    exact completes_updates hi hc h rfl (done _) rfl rfl
  · rw [← sshiftRight_beq_zero, ofInt_sshiftRight]
    exact completes_updates hi hc h rfl (done _) rfl rfl

/-- Settles O42: the rotations bit by bit, which keep a value 0 or not. -/
theorem rotateResults : Obligations.RotateResults := by
  intro sz c src tgt s v t d hi hc h
  refine ⟨rotateLeft t v, rotateRight t v, fun n hn => ⟨getLsbD_rotateLeft t v hn, getLsbD_rotateRight t v hn⟩, ?_, ?_⟩
  · exact completes_updates hi hc h rfl (fun _ => rfl) (decide_eq_decide.2 rotateLeft_eq_zero) rfl
  · exact completes_updates hi hc h rfl (fun _ => rfl) (decide_eq_decide.2 rotateRight_eq_zero) rfl

theorem getLsbD_bitAt {w n : Nat} (hn : n < w) (k : Nat) : (bitAt w n).getLsbD k = decide (k = n) := by
  rw [bitAt, ← BitVec.twoPow_eq, BitVec.getLsbD_twoPow, decide_eq_true hn, Bool.true_and, decide_eq_decide]
  exact eq_comm

/-- The bit that BTS tests (R172). -/
theorem and_bitAt_beq_zero {w n : Nat} (hn : n < w) (t : BitVec w) : (t &&& bitAt w n == 0) = !t.getLsbD n := by
  rw [beq_eq_decide]
  cases ht : t.getLsbD n with
  | true =>
    refine decide_eq_false fun h => ?_
    have bit := congrArg (BitVec.getLsbD · n) h
    simp only [BitVec.getLsbD_and, getLsbD_bitAt hn, ht, decide_true, Bool.and_self] at bit
    exact absurd bit (by simp)
  | false =>
    refine decide_eq_true (BitVec.eq_of_getLsbD_eq fun k hk => ?_)
    rw [BitVec.getLsbD_and, getLsbD_bitAt hn]
    by_cases hkn : k = n
    · rw [hkn, ht]
      simp
    · simp [hkn]

theorem testBit_of_lt {sz : Size} {v : BitVec sz.bits} (h : v.toNat < sz.bits) (t : BitVec sz.bits) (s : State) :
    testBit sz t v s = setFlags .bts t v (t &&& bitAt sz.bits v.toNat) s :=
  if_pos h

theorem testBit_of_ge {sz : Size} {v : BitVec sz.bits} (h : sz.bits ≤ v.toNat) (t : BitVec sz.bits) (s : State) :
    testBit sz t v s = s.drawn.setZ (Config.freeBit s.draws) :=
  if_neg (Nat.not_lt.2 h)

/-- Settles O43: the bit by its place in the word. -/
theorem bitResults : Obligations.BitResults := by
  intro sz c src tgt s v t hc hlt
  refine ⟨fun h => ?_, fun d hi h =>
    ⟨t ||| bitAt sz.bits v.toNat, t &&& ~~~bitAt sz.bits v.toNat, fun n hn => ⟨?_, ?_⟩, ?_, ?_⟩⟩
  · refine completesFlags_reads (g := fun vt u => testBit sz vt.2 vt.1 u) hc h rfl (fun u => ?_) (fun u _ => ?_) fun u hu => ?_
    · rw [testBit_of_lt hlt]
      exact (Frame.refl u _ _).setFlags _ _ _ _
    · rw [testBit_of_lt hlt, ← and_bitAt_beq_zero hlt]
      rfl
    · rw [testBit_of_lt hlt]
      exact hu.flagC
  · rw [BitVec.getLsbD_or, getLsbD_bitAt hlt]
  · rw [BitVec.getLsbD_and, BitVec.getLsbD_not, getLsbD_bitAt hlt, decide_eq_true hn, Bool.true_and, decide_not]
  · exact completes_updates_noFlags hi hc h rfl fun u => counted_of_lt hlt _ t u
  · exact completes_updates_noFlags hi hc h rfl fun u => counted_of_lt hlt _ t u

/-- Settles O44: the result is a draw, after which the target is written. -/
theorem openResultsComplete : Obligations.OpenResultsComplete := by
  intro sz c src tgt s s₁ s₂ s₃ v t d hi hc hv ht
  simp only [List.forall_mem_cons, List.not_mem_nil, IsEmpty.forall_iff, implies_true, and_true]
  refine ⟨fun hge => ⟨Config.freeBit s₂.draws, ?_⟩, fun hge hd => ?_, fun htm hvm hd => ?_⟩
  · have fills : Fills s s₂ := (readOperand_okFills hv).trans (readOperand_okFills ht)
    refine ⟨_, advancing_ok hc (Res.bind_of_ok (readBoth_ok hv ht) _), ?_, ?_, ?_, rfl⟩
    · rw [testBit_of_ge hge]
      have f := (fills.trans (.drawn s₂)).frame [] []
      exact ⟨f.regs, f.mem, f.flagI, f.swapSp, f.mmuEn, f.pdp, f.halted, f.tlb, f.physMap, f.busError, f.irq, f.ioLog⟩
    · rw [testBit_of_ge hge]
      rfl
    · rw [testBit_of_ge hge]
      exact fills.same.flagC
  · have done : ∀ f, counted sz f t v s₂ = .ok ((Config.freeWord s₂.draws).setWidth sz.bits) s₂.drawn := fun f =>
      counted_of_ge hge f t s₂
    exact ⟨⟨⟨_, completes_combine rfl hi hc hv ht (done _) (.drawn s₂) hd rfl rfl⟩,
        ⟨_, completes_combine rfl hi hc hv ht (done _) (.drawn s₂) hd rfl rfl⟩,
        _, completes_combine rfl hi hc hv ht (done _) (.drawn s₂) hd rfl rfl⟩,
      ⟨_, completes_combineNoFlags rfl hi hc hv ht (done _) (.drawn s₂) hd⟩,
      _, completes_combineNoFlags rfl hi hc hv ht (done _) (.drawn s₂) hd⟩
  · have done : ∀ f, divided (signedDivided sz f) t v s₂ = .ok ((Config.freeWord s₂.draws).setWidth sz.bits) s₂.drawn := fun f =>
      (divided_of_ne (ne_zero_of_toInt hvm) _ t s₂).trans (signedDivided_of_overflow htm hvm f s₂)
    exact ⟨⟨_, completes_combine rfl hi hc hv ht (done _) (.drawn s₂) hd rfl rfl⟩,
      _, completes_combine rfl hi hc hv ht (done _) (.drawn s₂) hd rfl rfl⟩

/-! ## Moves, compares, addresses -/

/-- MOVZ to memory is a move (R182). -/
theorem exec_movz_memory {sz : Size} {c : Cond} {src tgt : Operand} {s : State} (h : ∀ r, tgt ≠ .reg r) :
    exec (.movz sz c src tgt) s = advancing c (Instr.movz sz c src tgt).length s
      ((readOperand sz src s).bind fun v s₁ => writeOperand sz tgt v s₁) := by
  cases tgt with
  | reg r => exact absurd rfl (h r)
  | _ => rfl

/-- Settles O45: MOVZ to a register writes all of it, and to memory is a move. -/
theorem moveResults : Obligations.MoveResults := by
  intro sz c src tgt s v d hi hc h
  refine ⟨completes_move (g := id) hi hc h rfl, ?_⟩
  cases tgt with
  | reg r =>
    obtain ⟨s₁, s₂, hv, -⟩ := h
    have fills : Fills s s₁ := readOperand_okFills hv
    refine ⟨_, advancing_ok hc (Res.bind_of_ok hv _), ?_, ?_, fills.same.flagZ, fills.same.flagC, rfl⟩
    · rw [State.reg_setRip, State.reg_setReg_same, BitVec.toNat_setWidth_of_le (size_bits_le sz)]
    · exact ((fills.frame _ _).trans (frame_setReg s₁ r _)).setRip _
  | _ => exact completes_move (g := id) hi hc h (exec_movz_memory nofun)

/-- Settles O46: the flags of the comparisons by the orders of the values. -/
theorem compareResults : Obligations.CompareResults := by
  intro sz c src tgt s v t hc h
  constructor
  · refine completesFlags_reads (g := fun vt u => setFlags .cmp vt.2 vt.1 (vt.2 - vt.1) u) hc h rfl
      (fun u => (Frame.refl u _ _).setFlags _ _ _ _) (fun u _ => ?_) fun u _ => rfl
    exact decide_eq_decide.2 BitVec.toNat_inj.symm
  · refine completesFlags_reads (g := fun vt u => setFlags .icmp vt.2 vt.1 (vt.2 - vt.1) u) hc h rfl
      (fun u => (Frame.refl u _ _).setFlags _ _ _ _) (fun u _ => ?_) fun u _ => rfl
    exact decide_eq_decide.2 BitVec.toInt_inj.symm

end Sys2Proof.Machine
end

section
/-! Results of the control transfers, the stack instructions and the I/O bus (R73, R74, R185, R190 to R197, R201 to R204). -/

namespace Sys2Proof.Machine

/-! ## Relative addresses -/

/-- An instruction's own address plus the signed displacement (R190). -/
theorem relative_eq {w : Nat} (s : State) (v : BitVec w) : relative s v = BitVec.ofInt 32 (s.rip.toNat + v.toInt) := by
  rw [BitVec.ofInt_add, BitVec.ofInt_natCast, BitVec.ofNat_toNat, BitVec.setWidth_eq]
  rfl

/-- The low bits of an integer modulo 2^32 are the integer modulo fewer. -/
theorem setWidth_ofInt {n : Nat} (h : n ≤ 32) (x : Int) : (BitVec.ofInt 32 x).setWidth n = BitVec.ofInt n x := by
  apply BitVec.eq_of_toInt_eq
  rw [BitVec.toInt_setWidth, BitVec.toInt_ofInt, BitVec.toNat_ofInt]
  have pos : (0 : Int) ≤ x % (2 ^ 32 : Nat) := Int.emod_nonneg _ (by norm_num)
  have dvd : ((2 ^ n : Nat) : Int) ∣ (2 ^ 32 : Nat) := Int.natCast_dvd_natCast.2 (pow_dvd_pow 2 h)
  rw [Int.toNat_of_nonneg pos, ← Int.emod_bmod, Int.emod_emod_of_dvd _ dvd, Int.emod_bmod]

theorem relative_low (s : State) {sz : Size} (v : BitVec sz.bits) :
    (relative s v).setWidth sz.bits = BitVec.ofInt sz.bits (s.rip.toNat + v.toInt) := by
  rw [relative_eq, setWidth_ofInt (size_bits_le sz)]

/-- Settles O48: both take the address of the instruction, RTA the low bits of it. -/
theorem relativeAddresses : Obligations.RelativeAddresses := by
  refine fun sz c src tgt s v hc => ⟨fun d hi h => ?_, fun s₁ hv => ?_⟩
  · rw [← relative_low]
    exact completes_move (g := fun v => (relative s v).setWidth sz.bits) hi hc h rfl
  · have fills : Fills s s₁ := readOperand_okFills hv
    exact ⟨_, transferring_ok hc (Res.bind_of_ok hv _), relative_eq s v, (fills.frame _ _).setRip _, fills.same.flagZ,
      fills.same.flagC⟩

/-- Settles O47: the source is read and `rip` set. -/
theorem jumpGoesToSource : Obligations.JumpGoesToSource := by
  intro c src s s₁ v hc hv
  have fills : Fills s s₁ := readOperand_okFills hv
  exact ⟨_, transferring_ok hc hv, rfl, (fills.frame _ _).setRip _, fills.same.flagZ, fills.same.flagC⟩

/-! ## Pushes -/

theorem memDest_okFills {sz : Size} {a : Word} {s t : State} {d : Dest} (h : memDest sz a s = .ok d t) : Fills s t := by
  have := memDest_allFills sz a s
  rw [h] at this
  exact this

/-- A push after reads, in terms of the state before them (R73). -/
theorem push_after_reads {sz : Size} {s s₁ s₂ : State} {pas : List Word} (hf : Fills s s₁)
    (hd : memDest sz (s.reg rsp - BitVec.ofNat 32 sz.bytes) s₁ = .ok (.mem pas) s₂) (v : BitVec sz.bits) :
    push sz v s₁ = .ok () ((s₂.store (.mem pas) sz v).setReg rsp (s.reg rsp - BitVec.ofNat 32 sz.bytes)) := by
  rw [← hf.same.reg] at hd ⊢
  exact Res.bind_of_ok hd _

/-- What a push after reads leaves in memory, and what it changes (R73). -/
theorem pushed_holds_frame {sz : Size} {s s₁ s₂ : State} {a : Word} {pas : List Word} (hi : Inv s) (hf : Fills s s₁)
    (hd : memDest sz a s₁ = .ok (.mem pas) s₂) (v : BitVec sz.bits) (b : Word) :
    Holds s ((s₂.store (.mem pas) sz v).setReg rsp b) (.mem pas) sz v ∧
      Frame s ((s₂.store (.mem pas) sz v).setReg rsp b) [rsp] pas ∧
      s₂.flagZ = s.flagZ ∧ s₂.flagC = s.flagC := by
  have fills : Fills s s₂ := hf.trans (memDest_okFills hd)
  have wf : Memory.wf s₂.mem = true := fills.keeps.wf hi.1
  refine ⟨fills.holds (store_holds wf (memDest_ok hd).2.1 v), ?_, fills.same.flagZ, fills.same.flagC⟩
  exact ((fills.frame _ _).trans ((store_frame s₂ (.mem pas) sz v).weaken (by simp [Dest.regs]) (by simp [Dest.stored]))).trans
    ((frame_setReg _ _ _).weaken (by simp) (by simp))

/-- Settles O49: the source read, the return address pushed. -/
theorem callResults : Obligations.CallResults := by
  intro sz c src s hi hc
  refine ⟨fun s₁ s₂ v pas hv hd => ?_, fun s₁ s₂ v pas hv hd => ?_⟩
  · have fills : Fills s s₁ := readOperand_okFills hv
    have run : exec (.call c src) s = .next (((s₂.store (.mem pas) .word (s.next (Instr.call c src).length)).setReg rsp
        (s.reg rsp - 4)).setRip v) :=
      transferring_ok hc ((Res.bind_of_ok hv _).trans
        (Res.bind_of_ok (push_after_reads (sz := .word) fills hd (s.next (Instr.call c src).length)) _))
    obtain ⟨holds, frame, hz, hcc⟩ := pushed_holds_frame hi fills hd (s.next (Instr.call c src).length) (s.reg rsp - 4)
    exact ⟨_, run, rfl, by simp, holds, frame.setRip _, hz, hcc⟩
  · have fills : Fills s s₁ := readOperand_okFills hv
    have run : exec (.rcall sz c src) s = .next (((s₂.store (.mem pas) .word
        (s.next (Instr.rcall sz c src).length)).setReg rsp (s.reg rsp - 4)).setRip (relative s v)) :=
      transferring_ok hc ((Res.bind_of_ok hv _).trans
        (Res.bind_of_ok (push_after_reads (sz := .word) fills hd (s.next (Instr.rcall sz c src).length)) _))
    obtain ⟨holds, frame, hz, hcc⟩ := pushed_holds_frame hi fills hd (s.next (Instr.rcall sz c src).length) (s.reg rsp - 4)
    exact ⟨_, run, relative_eq s v, by simp, holds, frame.setRip _, hz, hcc⟩

/-- Settles O50: a pop into `rip`. -/
theorem returnPops : Obligations.ReturnPops := by
  intro c s s₁ v hc hv
  have fills : Fills s s₁ := memRead_ok hv
  exact ⟨_, transferring_ok hc (pop_of_ok hv), rfl, by simp,
    ((fills.frame _ _).trans (frame_setReg s₁ rsp _)).setRip _, fills.same.flagZ, fills.same.flagC⟩

/-! ## Loops -/

/-- The countdown after the source is read (R196, R197). -/
theorem countDown_eq {s s₁ : State} (hf : Fills s s₁) (target next : Word) :
    countDown target next s₁ = .ok (if s.reg 31 = 1 then next else target) (s₁.setReg 31 (s.reg 31 - 1)) := by
  simp only [countDown, loopReg, hf.same.reg, sub_eq_zero]

theorem countDown_frame {s s₁ : State} (hf : Fills s s₁) (v : Word) : Frame s (s₁.setReg 31 v) [31] [] :=
  (hf.frame _ _).trans (frame_setReg s₁ 31 v)

/-- Settles O51: the source is read, then r31 counts down. -/
theorem loopCountsDown : Obligations.LoopCountsDown := by
  intro sz c src s s₁ hc
  refine ⟨fun v hv => ?_, fun v hv => ?_⟩
  · have fills : Fills s s₁ := readOperand_okFills hv
    have run : exec (.loop c src) s = .next ((s₁.setReg 31 (s.reg 31 - 1)).setRip
        (if s.reg 31 = 1 then s.next (Instr.loop c src).length else v)) :=
      transferring_ok hc ((Res.bind_of_ok hv _).trans (countDown_eq fills v _))
    exact ⟨_, run, by simp, rfl, (countDown_frame fills _).setRip _, fills.same.flagZ, fills.same.flagC⟩
  · have fills : Fills s s₁ := readOperand_okFills hv
    have run : exec (.rloop sz c src) s = .next ((s₁.setReg 31 (s.reg 31 - 1)).setRip
        (if s.reg 31 = 1 then s.next (Instr.rloop sz c src).length else relative s v)) :=
      transferring_ok hc ((Res.bind_of_ok hv _).trans (countDown_eq fills (relative s v) _))
    rw [relative_eq] at run
    exact ⟨_, run, by simp, rfl, (countDown_frame fills _).setRip _, fills.same.flagZ, fills.same.flagC⟩

/-! ## PUSH and POP, IN and OUT -/

theorem Fills.setReg {s t : State} (h : Fills s t) (r : RegNo) (v : Word) : Fills (s.setReg r v) (t.setReg r v) :=
  ⟨by rw [h.same]; rfl, h.off, h.uniq⟩

theorem Fills.logIo {s t : State} (h : Fills s t) (e : IoEvent) : Fills (s.logIo e) (t.logIo e) :=
  ⟨by rw [h.same]; rfl, h.off, h.uniq⟩

/-- A value stored after reads, with `rip` set: it is held, and nothing else is changed. -/
theorem stored_holds_frame {s u : State} {d : Dest} {sz : Size} (hwf : Memory.wf s.mem = true) (hf : Fills s u)
    (hd : d.Valid u sz) (v : BitVec sz.bits) (next : Word) :
    Holds s ((u.store d sz v).setRip next) d sz v ∧ Frame s ((u.store d sz v).setRip next) d.regs d.stored := by
  refine ⟨?_, ((hf.frame _ _).trans (store_frame u d sz v)).setRip _⟩
  have holds := hf.holds (store_holds (hf.keeps.wf hwf) hd v)
  cases d <;> exact holds

/-- Settles O52: a push after the read, and a write after the pop. -/
theorem pushPopResults : Obligations.PushPopResults := by
  intro sz c src s s₁ s₂ v hi hc
  refine ⟨fun pas hv hd => ?_, fun d hv hd => ?_⟩
  · have fills : Fills s s₁ := readOperand_okFills hv
    obtain ⟨holds, frame, hz, hcc⟩ := pushed_holds_frame hi fills hd v (s.reg rsp - BitVec.ofNat 32 sz.bytes)
    exact ⟨_, advancing_ok hc ((Res.bind_of_ok hv _).trans (push_after_reads fills hd v)), holds, by simp, frame.setRip _, hz, hcc,
      rfl⟩
  · have fills : Fills s s₂ := (memRead_ok hv).trans (operandDest_okFills hd)
    have run : exec (.pop sz c src) s = .next (((s₂.setReg rsp (s₂.reg rsp + BitVec.ofNat 32 sz.bytes)).store d sz
        v).setRip (s.next (Instr.pop sz c src).length)) :=
      advancing_ok hc ((Res.bind_of_ok hv _).trans (Res.bind_of_ok hd _))
    have valid : d.Valid (s₂.setReg rsp (s₂.reg rsp + BitVec.ofNat 32 sz.bytes)) sz := (operandDest_ok hd).2.2
    rw [fills.same.reg] at run valid
    obtain ⟨holds, frame⟩ := stored_holds_frame (s := s.setReg rsp (s.reg rsp + BitVec.ofNat 32 sz.bytes)) hi.1
      (fills.setReg rsp _) valid v (s.next (Instr.pop sz c src).length)
    exact ⟨_, run, holds, frame, by simpa using fills.same.flagZ, by simpa using fills.same.flagC, rfl⟩

/-- Settles O53: the port of IN is read once its target is found; OUT only records its transfer. -/
theorem portTransfers : Obligations.PortTransfers := by
  intro c src tgt s hi hc
  refine ⟨fun p d h => ?_, fun v p h => ?_⟩
  · obtain ⟨s₁, s₂, hp, hd⟩ := h
    have fills : Fills s s₂ := (readOperand_okFills hp).trans (operandDest_okFills hd)
    have run : exec (.ioIn c src tgt) s = .next (((s₂.drawn.logIo (.read p (Config.ioRead s₂.draws p))).store d .word
        (Config.ioRead s₂.draws p)).setRip (s.next (Instr.ioIn c src tgt).length)) :=
      advancing_ok hc ((Res.bind_of_ok hp _).trans (Res.bind_of_ok hd _))
    have valid : d.Valid (s₂.drawn.logIo (.read p (Config.ioRead s₂.draws p))) .word := (operandDest_ok hd).2.2
    obtain ⟨holds, frame⟩ := stored_holds_frame (s := s.logIo (.read p (Config.ioRead s₂.draws p))) hi.1
      ((fills.trans (.drawn s₂)).logIo _) valid (Config.ioRead s₂.draws p) (s.next (Instr.ioIn c src tgt).length)
    refine ⟨_, _, run, ?_, frame, by simpa using fills.same.flagZ, by simpa using fills.same.flagC, rfl⟩
    cases d <;> exact holds
  · obtain ⟨s₁, s₂, hv, hp⟩ := h
    have fills : Fills s s₂ := (readOperand_okFills hv).trans (readOperand_okFills hp)
    exact ⟨_, advancing_ok hc (Res.bind_of_ok (readBoth_ok hv hp) _), ((fills.logIo _).frame _ _).setRip _, fills.same.flagZ,
      fills.same.flagC, rfl⟩

end Sys2Proof.Machine
end
